-- ==== Sys2Proof/Word.lean ====
section
/-!
DEFINITION. The two sizes of data the block moves: a byte of MEM or symbol, and a 32-bit register or
command word (00_scope.md R12).
-/

namespace Sys2Proof

/-- A byte is 8 bits; a symbol is a byte (00_scope.md R12). -/
abbrev Byte := BitVec 8

/-- A register of the register block, or a command word (10_state.md R20, 30_encoding.md R81). -/
abbrev Word := BitVec 32

end Sys2Proof
end

