-- ==== Sys2Proof/Config.lean ====
section
/-!
DEFINITION. What an implementation fixes: the OPEN parameters of 00_scope.md section 4, and the one
free value the spec leaves (a read of SENC_STATE or SDEC_STATE while BUSY).
-/

namespace Sys2Proof

/-- The named parameters a model takes as an argument (00_scope.md R7 to R11). They are constants of
one machine: the state carries them so that the PARAM registers can show them, and no step changes
them. MEM_BASE and REG_BASE (20_memory.md R69) are not here: no rule depends on them. -/
structure Params where
  /-- MEM_BYTES, the size of MEM in bytes (R7). -/
  memBytes : Nat
  /-- NUM_SLOTS, the number of handle slots (R8). -/
  numSlots : Nat
  /-- ENC_STAGE_BYTES, the largest interior group of the Streaming Encoder, in bytes (R9). -/
  encStageBytes : Nat
  /-- DEC_CHUNK, the most symbols the Streaming Decoder asks for in one pull (R10). -/
  decChunk : Nat
  /-- ALPHA_11, the standard symbol at index 11 (R11). -/
  alpha11 : Byte
  /-- ALPHA_12, the standard symbol at index 12 (R11). -/
  alpha12 : Byte
  /-- ALPHA_20, the standard symbol at index 20 (R11). -/
  alpha20 : Byte
  /-- ALPHA_26, the standard symbol at index 26 (R11). -/
  alpha26 : Byte
  deriving DecidableEq, Repr

/-- The spec's defaults (00_scope.md section 4): `M`, `C`, `W` and `4` are 0x4D, 0x43, 0x57, 0x34. -/
def Params.default : Params :=
  { memBytes := 65536, numSlots := 4, encStageBytes := 640, decChunk := 1024,
    alpha11 := 0x4D, alpha12 := 0x43, alpha20 := 0x57, alpha26 := 0x34 }

/-- The value a host read of SENC_STATE or SDEC_STATE returns while BUSY = 1: unspecified, a draw
(70_reset_and_hazards.md R297, 93_implementation_defined.md U4). It has no body, so nothing can be
proved of a value of it. The argument is the number of draws made before this one. -/
opaque Config.unspecifiedWord : Nat → Word

end Sys2Proof
end

