-- ==== Sys2Proof/Machine/Tables.lean ====
section
/-!
DEFINITION. The alphabet_lut and decode_table as data: BuildTable, and the two shipped alphabets
(40_alphabet_lut.md sections 1 and 2).
-/

namespace Sys2Proof.Machine

/-- The decode-table value that means "not in this alphabet" (40_alphabet_lut.md R101). -/
def sentinel : Byte := 0xFF

/-- DT[s][b], of the table of slot s (00_scope.md R14). -/
def entryAt (dt : Vector Byte 256) (b : Byte) : Byte := dt[b.toNat]'b.isLt

/-- ALPHA[s][v], of the alphabet of slot s (00_scope.md R14). -/
def symbolAt (alpha : Vector Byte 32) (v : BitVec 5) : Byte := alpha[v.toNat]'v.isLt

/-- One write of BuildTable: the entry of byte `b` becomes `v`. -/
def setEntry (dt : Vector Byte 256) (b v : Byte) : Vector Byte 256 :=
  dt.set b.toNat v b.isLt

/-- BuildTable (40_alphabet_lut.md R102): all entries the sentinel, then for i = 0 to 31 in ascending
order the entry of symbol i becomes i. -/
def buildTable (sym : Vector Byte 32) : Vector Byte 256 :=
  sym.toList.zipIdx.foldl (fun dt e => setEntry dt e.1 (BitVec.ofNat 8 e.2)) (Vector.replicate 256 sentinel)

/-- ALPHA[0], the standard alphabet (40_alphabet_lut.md R103): the string
`YBNDRFG8EJK**PQX0T1V*2SZA3*5H769` with the four parameters at the stars. -/
def standardAlphabet (p : Params) : Vector Byte 32 :=
  #v[0x59, 0x42, 0x4E, 0x44, 0x52, 0x46, 0x47, 0x38,
     0x45, 0x4A, 0x4B, p.alpha11, p.alpha12, 0x50, 0x51, 0x58,
     0x30, 0x54, 0x31, 0x56, p.alpha20, 0x32, 0x53, 0x5A,
     0x41, 0x33, p.alpha26, 0x35, 0x48, 0x37, 0x36, 0x39]

/-- The 28 symbols of the standard alphabet that the source's vectors fix (40_alphabet_lut.md R103). -/
def fixedSymbols : List Byte :=
  [0x59, 0x42, 0x4E, 0x44, 0x52, 0x46, 0x47, 0x38, 0x45, 0x4A, 0x4B, 0x50, 0x51, 0x58,
   0x30, 0x54, 0x31, 0x56, 0x32, 0x53, 0x5A, 0x41, 0x33, 0x35, 0x48, 0x37, 0x36, 0x39]

/-- An uppercase ASCII letter, 0x41 to 0x5A (40_alphabet_lut.md R104). -/
def isUpper (b : Byte) : Bool := 0x41 ≤ b.toNat && b.toNat ≤ 0x5A

/-- An ASCII digit, 0x30 to 0x39 (00_scope.md R11). -/
def isDigit (b : Byte) : Bool := 0x30 ≤ b.toNat && b.toNat ≤ 0x39

/-- ASCII case-folding of one symbol (40_alphabet_lut.md R104). -/
def foldCase (b : Byte) : Byte := if isUpper b then b + 0x20 else b

/-- ALPHA[1], the lowercase alphabet (40_alphabet_lut.md R104). -/
def lowerAlphabet (p : Params) : Vector Byte 32 := Vector.ofFn (fun i => foldCase (standardAlphabet p)[i])

end Sys2Proof.Machine
end

