-- ==== Sys2Proof/Syntax.lean ====
section
/-!
DEFINITION. The fifteen commands of 30_encoding.md R85, one constructor per row of the opcode table.
-/

namespace Sys2Proof

/-- A command. A handle-taking command carries its slot number HSEL (30_encoding.md R83); the other
operands are not in the command word, they are the latched ARG registers (R86). -/
inductive Instr where
  /-- NOP (40_alphabet_lut.md R112). -/
  | nop
  /-- LUT_LOAD: construct a handle in a loadable slot (40_alphabet_lut.md R109). -/
  | lutLoad (h : Nat)
  /-- SYM_LOOKUP: read one alphabet_lut entry (40_alphabet_lut.md R110). -/
  | symLookup (h : Nat)
  /-- DT_LOOKUP: read one decode_table entry (40_alphabet_lut.md R111). -/
  | dtLookup (h : Nat)
  /-- ENC: whole-buffer encode, byte-aligned (41_encoder.md R135). -/
  | enc (h : Nat)
  /-- ENC_BITS: whole-buffer encode of a bit count (41_encoder.md R136). -/
  | encBits (h : Nat)
  /-- ENC_LEN: EncodedLen (41_encoder.md R138). -/
  | encLen
  /-- DEC_LEN: DecodedLen (41_encoder.md R139). -/
  | decLen
  /-- DEC: whole-buffer decode, byte-aligned (42_decoder.md R168). -/
  | dec (h : Nat)
  /-- DEC_BITS: whole-buffer decode of a bit count (42_decoder.md R169). -/
  | decBits (h : Nat)
  /-- SENC_OPEN: create an encoder stream (43_stream_encoder.md R191). -/
  | sencOpen (h : Nat)
  /-- SENC_WRITE: write bytes into the stream (43_stream_encoder.md R192). -/
  | sencWrite
  /-- SENC_CLOSE: finalise the stream (43_stream_encoder.md R198). -/
  | sencClose
  /-- SDEC_OPEN: create a decoder stream (44_stream_decoder.md R221). -/
  | sdecOpen (h : Nat)
  /-- SDEC_READ: read decoded bytes (44_stream_decoder.md R222). -/
  | sdecRead
  deriving DecidableEq, Repr

/-- The slot number of a handle-taking command; 0 for a no-handle command, whose HSEL must be 0
(30_encoding.md R83). -/
def Instr.hsel : Instr → Nat
  | .nop | .encLen | .decLen | .sencWrite | .sencClose | .sdecRead => 0
  | .lutLoad h | .symLookup h | .dtLookup h | .enc h | .encBits h => h
  | .dec h | .decBits h | .sencOpen h | .sdecOpen h => h

/-- The handle-taking commands (30_encoding.md R83). -/
def Instr.takesHandle : Instr → Bool
  | .nop | .encLen | .decLen | .sencWrite | .sencClose | .sdecRead => false
  | .lutLoad _ | .symLookup _ | .dtLookup _ | .enc _ | .encBits _ => true
  | .dec _ | .decBits _ | .sencOpen _ | .sdecOpen _ => true

end Sys2Proof
end

