-- ==== Sys2Proof/WellFormed.lean ====
section
/-!
DEFINITION. What a well-formed command and a legal choice of parameters are.
-/

namespace Sys2Proof

/-- A command is well-formed when its slot number fits HSEL, 0 to 7 (30_encoding.md R83). -/
def Instr.wellFormed (i : Instr) : Bool := i.hsel < 8

namespace Params

/-- Legal range of MEM_BYTES (00_scope.md R7). -/
def legalMemBytes (p : Params) : Bool := 64 ≤ p.memBytes && p.memBytes ≤ 2 ^ 31

/-- Legal range of NUM_SLOTS (00_scope.md R8). -/
def legalNumSlots (p : Params) : Bool := 2 ≤ p.numSlots && p.numSlots ≤ 8

/-- Legal values of ENC_STAGE_BYTES (00_scope.md R9 and section 4). -/
def legalEncStage (p : Params) : Bool :=
  p.encStageBytes % 5 = 0 && 5 ≤ p.encStageBytes && p.encStageBytes ≤ 40955

/-- Legal values of DEC_CHUNK (00_scope.md R10 and section 4). -/
def legalDecChunk (p : Params) : Bool :=
  p.decChunk % 8 = 0 && 8 ≤ p.decChunk && p.decChunk ≤ 65528

/-- The four open symbols, in index order. -/
def openSymbols (p : Params) : List Byte := [p.alpha11, p.alpha12, p.alpha20, p.alpha26]

/-- Legal choice of the open symbols (00_scope.md R11): uppercase letters or digits, distinct from
each other and from the 28 fixed symbols. -/
def legalAlphabet (p : Params) : Bool :=
  p.openSymbols.all (fun b => Machine.isUpper b || Machine.isDigit b)
    && decide p.openSymbols.Nodup
    && p.openSymbols.all (fun b => !Machine.fixedSymbols.contains b)

/-- A legal choice of every parameter (00_scope.md R7 to R11). -/
def legal (p : Params) : Bool :=
  p.legalMemBytes && p.legalNumSlots && p.legalEncStage && p.legalDecChunk && p.legalAlphabet

end Params

end Sys2Proof
end

