-- ==== Sys2Proof/Decode.lean ====
section
/-!
DEFINITION. Decoding of the 32-bit command word, total and rejecting by name (30_encoding.md sections
2, 3 and 5), and the encoder written from the same opcode map.
-/

namespace Sys2Proof

/-- Why a word is an illegal command (30_encoding.md R84). -/
inductive IllegalWord where
  /-- R84(a): RSV, bits 31 to 11, is nonzero. -/
  | reservedBits
  /-- R84(b): OPC is none of the fifteen values. -/
  | unassignedOpcode
  /-- R84(c): a no-handle opcode with a nonzero HSEL. -/
  | handleNotTaken
  deriving DecidableEq, Repr

/-- OPC, bits 7 to 0 (30_encoding.md R82). -/
def opcField (w : Word) : BitVec 8 := w.extractLsb' 0 8

/-- HSEL, bits 10 to 8, read as an unsigned number (30_encoding.md R83). -/
def hselField (w : Word) : Nat := (w.extractLsb' 8 3).toNat

/-- RSV, bits 31 to 11 (30_encoding.md R84). -/
def rsvField (w : Word) : BitVec 21 := w.extractLsb' 11 21

/-- A row of the opcode map: a word selects it when `w &&& mask = pattern`, and it then spells the
command `build` makes of HSEL. -/
structure OpRow where
  /-- The bits the row fixes. -/
  mask : Word
  /-- Their values. -/
  pattern : Word
  /-- The command, from the slot number (ignored by a no-handle command). -/
  build : Nat → Instr

/-- The word selects the row (30_encoding.md R85). -/
def OpRow.selects (w : Word) (r : OpRow) : Bool := w &&& r.mask == r.pattern

/-- The mask of a no-handle command: every bit is fixed. -/
def maskAll : Word := 0xFFFFFFFF

/-- The mask of a handle-taking command: every bit but HSEL. -/
def maskHandle : Word := 0xFFFFF8FF

/-- The opcode map (30_encoding.md R85), in the table's order. -/
def opcodeMap : List OpRow :=
  [⟨maskAll, 0x00000000, fun _ => .nop⟩,
   ⟨maskHandle, 0x00000001, .lutLoad⟩,
   ⟨maskHandle, 0x00000002, .symLookup⟩,
   ⟨maskHandle, 0x00000003, .dtLookup⟩,
   ⟨maskHandle, 0x00000010, .enc⟩,
   ⟨maskHandle, 0x00000011, .encBits⟩,
   ⟨maskAll, 0x00000012, fun _ => .encLen⟩,
   ⟨maskAll, 0x00000013, fun _ => .decLen⟩,
   ⟨maskHandle, 0x00000020, .dec⟩,
   ⟨maskHandle, 0x00000021, .decBits⟩,
   ⟨maskHandle, 0x00000030, .sencOpen⟩,
   ⟨maskAll, 0x00000031, fun _ => .sencWrite⟩,
   ⟨maskAll, 0x00000032, fun _ => .sencClose⟩,
   ⟨maskHandle, 0x00000040, .sdecOpen⟩,
   ⟨maskAll, 0x00000041, fun _ => .sdecRead⟩]

/-- Why a word whose RSV is 0 and that no row takes is illegal: its OPC is unassigned, or it is a
no-handle opcode with HSEL nonzero (30_encoding.md R84(b) and (c)). -/
def noRowReason (w : Word) : IllegalWord :=
  if opcodeMap.any (fun r => opcField w == opcField r.pattern) then .handleNotTaken else .unassignedOpcode

/-- Decode (30_encoding.md R88), total on every word. -/
def decodeWord (w : Word) : Except IllegalWord Instr :=
  if rsvField w ≠ 0 then .error .reservedBits
  else match opcodeMap.find? (OpRow.selects w) with
    | none => .error (noRowReason w)
    | some r => .ok (r.build (hselField w))

/-- The operation code of a command (30_encoding.md R85). -/
def Instr.opc : Instr → Word
  | .nop => 0x00
  | .lutLoad _ => 0x01
  | .symLookup _ => 0x02
  | .dtLookup _ => 0x03
  | .enc _ => 0x10
  | .encBits _ => 0x11
  | .encLen => 0x12
  | .decLen => 0x13
  | .dec _ => 0x20
  | .decBits _ => 0x21
  | .sencOpen _ => 0x30
  | .sencWrite => 0x31
  | .sencClose => 0x32
  | .sdecOpen _ => 0x40
  | .sdecRead => 0x41

/-- The word the host writes to CMD: `(HSEL << 8) | OPC` (30_encoding.md R92). -/
def encode (i : Instr) : Word := BitVec.ofNat 32 i.hsel <<< 8 ||| i.opc

/-- What the decoder reads from an instruction whose bits are `w`, numbered as the opcode table
numbers them. Every command is one 32-bit word, written as one register write (30_encoding.md R81),
so bit 0 is the register's bit 0 and no byte order enters; bits above `nbits` are 0. -/
def decodeTableWord (nbits w : Nat) : Option Instr :=
  match decodeWord (BitVec.ofNat 32 (w % 2 ^ nbits)) with
  | .ok i => some i
  | .error _ => none

end Sys2Proof
end

