-- ==== Sys2Proof/Machine/State.lean ====
section
/-!
DEFINITION. The state of the block (10_state.md), as plain data, with its reset value
(70_reset_and_hazards.md R290), and the reasons a step can stop.
-/

namespace Sys2Proof.Machine

/-- The error codes 0 to 8 of STATUS.ERR (10_state.md R24). Codes 9 to 15 are never produced and have
no constructor. -/
inductive ErrCode where
  | ok | corruptInput | invalidArg | ioError | illegalCmd | badHandle | addrRange | bitRange | streamState
  deriving DecidableEq, Repr

/-- STATUS (10_state.md R23). BUSY and OVR are also the core's `busy` and `ovr` (R45). -/
structure Status where
  /-- Bit 0: a command has been accepted and has not completed. -/
  busy : Bool
  /-- Bit 1: the most recently accepted command has completed. -/
  done : Bool
  /-- Bit 2: end of stream, at a completion of SDEC_READ. -/
  eof : Bool
  /-- Bit 3: a CMD write was dropped. -/
  ovr : Bool
  /-- Bits 11 to 8: the error code of the most recent completion. -/
  err : ErrCode
  deriving DecidableEq, Repr

/-- The latched copies a command reads (10_state.md R27). -/
structure Latch where
  cmd : Word
  a0 : Word
  a1 : Word
  a2 : Word
  a3 : Word
  deriving DecidableEq, Repr

/-- One handle slot: ALPHA[s], DT[s] and VALID[s] (10_state.md R40 to R42). -/
structure Slot where
  alpha : Vector Byte 32
  dt : Vector Byte 256
  valid : Bool
  deriving DecidableEq, Repr

/-- A loadable slot before LUT_LOAD: not valid, its tables unspecified and unreachable (10_state.md
R40 to R42). DESIGN CHOICE (log entry 2): the tables hold zeros. Unsafe only in a state no run
reaches: no command reads a slot that is not valid. -/
def Slot.unloaded : Slot :=
  { alpha := Vector.replicate 32 0, dt := Vector.replicate 256 0, valid := false }

/-- senc.state (43_stream_encoder.md R190). -/
inductive SencMode where
  | idle | opened | closed | failed
  deriving DecidableEq, Repr

/-- The Streaming Encoder state (10_state.md R43). `buf` holds the meaningful fringe bytes, so that
senc.nbuf is its length. DESIGN CHOICE (log entry 3), safe: the bytes beyond nbuf are not held. -/
structure Senc where
  state : SencMode
  slot : BitVec 3
  buf : List Byte
  err : Word
  deriving DecidableEq, Repr

/-- The Streaming Decoder state (10_state.md R44). `buf` holds the decoded bytes not yet delivered, so
that sdec.count is its length (log entry 3). -/
structure Sdec where
  isOpen : Bool
  slot : BitVec 3
  buf : List Byte
  eof : Bool
  deriving DecidableEq, Repr

/-- The sink's answer to a transaction (60_exceptions.md R262). -/
inductive SinkAnswer where
  | ok
  | err (code : Word)
  deriving DecidableEq, Repr

/-- The status of a source answer (60_exceptions.md R263). -/
inductive SourceStatus where
  | ok
  | eof
  | err (code : Word)
  deriving DecidableEq, Repr

/-- The source's answer to a pull (60_exceptions.md R263). -/
structure SourceAnswer where
  syms : List Byte
  st : SourceStatus
  deriving DecidableEq, Repr

/-- What became of a port transaction: no answer yet, an answer, or abandoned by a soft reset
(70_reset_and_hazards.md R292). -/
inductive Reply (α : Type) where
  | pending
  | answered (a : α)
  | abandoned
  deriving DecidableEq, Repr

/-- An entry of SINKLOG: the symbols sent and the answer (20_memory.md R77). -/
structure SinkTx where
  syms : List Byte
  reply : Reply SinkAnswer
  deriving DecidableEq, Repr

/-- An entry of SRCLOG: the number of symbols asked for, and the answer's symbols and status
(20_memory.md R77). -/
structure SourceTx where
  max : Nat
  reply : Reply SourceAnswer
  deriving DecidableEq, Repr

/-- The rest of a running command (10_state.md R45): what it waits for and what it still needs. -/
inductive Cont where
  /-- The command is accepted and the core has not taken its step yet (70_reset_and_hazards.md R303). -/
  | start (i : Instr)
  /-- SENC_WRITE waits for the sink's answer to the topped-up fringe (43_stream_encoder.md R192 (a)):
  `p` is what is left of the source bytes and `t` how many topped the fringe up. -/
  | sencFringe (p : List Byte) (t : Nat)
  /-- SENC_WRITE waits for the sink's answer to the interior group of the first `nn` bytes of `p`
  (R192 (b)); `acc` bytes of the write are accepted so far. -/
  | sencGroup (nn : Nat) (p : List Byte) (acc : Nat)
  /-- SENC_CLOSE waits for the sink's answer to the final fringe (R198). -/
  | sencClose
  /-- SDEC_READ waits for the source's answer to its pull (44_stream_decoder.md R222). -/
  | sdecPull
  deriving DecidableEq, Repr

/-- One bus transaction of the host: a register access of `width` bits at a byte offset (10_state.md
R20, R38) or a MEM byte access (20_memory.md R61). -/
inductive HostOp where
  | regRead (width offset : Nat)
  | regWrite (width offset : Nat) (w : Word)
  | memRead (addr : Nat)
  | memWrite (addr : Nat) (b : Byte)
  deriving DecidableEq, Repr

/-- A transaction of the host's program (30_encoding.md R92). -/
inductive HostMove where
  /-- One bus transaction. -/
  | op (o : HostOp)
  /-- `WAIT`: read STATUS until BUSY = 0, then read the outcome. -/
  | wait
  deriving DecidableEq, Repr

/-- What moves next (00_scope.md R5). -/
inductive Input where
  /-- The host makes a bus transaction; if it is an acceptance, the core takes its step with it. -/
  | host (op : HostOp)
  /-- The host makes a bus transaction; if it is an acceptance, the core's step is left for later. -/
  | hostHeld (op : HostOp)
  /-- The host makes the next transaction of its program; `held` as in `host` and `hostHeld`. -/
  | program (held : Bool)
  /-- The core takes the step of a command accepted earlier, if there is one. -/
  | core
  /-- The sink answers the transaction at place `tx` of SINKLOG. -/
  | sinkAnswer (tx : Nat) (a : SinkAnswer)
  /-- The source answers the transaction at place `tx` of SRCLOG. -/
  | sourceAnswer (tx : Nat) (a : SourceAnswer)
  /-- Power-on reset, from outside (70_reset_and_hazards.md R290). -/
  | powerOn
  deriving DecidableEq, Repr

/-- What one host read returned. -/
inductive HostSeen where
  | reg (offset : Nat) (w : Word)
  | mem (addr : Nat) (b : Byte)
  deriving DecidableEq, Repr

/-- MEM, as the list of its written bytes with their addresses (20_memory.md R60, R63): strictly
rising addresses, and an unlisted address is an unwritten byte. -/
abbrev Memory := List Host.Cell

/-- The whole state of the block (10_state.md, 20_memory.md R77), with the inputs still to come. -/
structure State where
  /-- The implementation parameters, constant (00_scope.md section 4; log entry 1). -/
  params : Params
  /-- CMD: the last accepted command word (R22). -/
  cmdReg : Word
  /-- STATUS (R23). -/
  status : Status
  /-- ARG0 (R25). -/
  arg0 : Word
  /-- ARG1 (R25). -/
  arg1 : Word
  /-- ARG2 (R25). -/
  arg2 : Word
  /-- ARG3 (R25). -/
  arg3 : Word
  /-- RES0 (R26). -/
  res0 : Word
  /-- RES1 (R26). -/
  res1 : Word
  /-- ERR_OFFSET (R28). -/
  errOffset : Word
  /-- IO_CODE (R29). -/
  ioCode : Word
  /-- The latched copies (R27). -/
  latch : Latch
  /-- The rest of a running command (R45). -/
  cont : Option Cont
  /-- The loadable slots 2 to 7, in order (R40 to R42). Slots 0 and 1 are ROM (`slotAt`), and the
  slots at or above NUM_SLOTS do not exist. -/
  loadable : Vector Slot 6
  /-- The Streaming Encoder (R43). -/
  senc : Senc
  /-- The Streaming Decoder (R44). -/
  sdec : Sdec
  /-- MEM (20_memory.md R60). -/
  mem : Memory
  /-- SINKLOG (20_memory.md R77), oldest first. -/
  sinkLog : List SinkTx
  /-- SRCLOG (20_memory.md R77), oldest first. -/
  srcLog : List SourceTx
  /-- The model's own: the agents' moves to come, next first (R21; log entry 5). -/
  inputs : List Input
  /-- The model's own: the rest of the host's program, next transaction first (30_encoding.md R92; log
  entry 5). -/
  program : List HostMove
  /-- The model's own: what the host's reads returned, oldest first (log entry 6). -/
  hostLog : List HostSeen
  /-- The model's own: the number of unspecified values drawn so far (log entry 4). -/
  draws : Nat
  deriving DecidableEq, Repr

/-- A fault stops the machine: the model gives the run no meaning beyond it. Both are safe (they err
toward unprovable): the hardware goes on. -/
inductive Fault where
  /-- A command or the host reads a byte of MEM that nothing has written (20_memory.md R63,
  70_reset_and_hazards.md R293). Raised by `readBytes`, `decodeTo` and `hostReadMem`. Safe. -/
  | unwrittenMem (addr : Nat)
  /-- The host touches a MEM range of the running command while BUSY (70_reset_and_hazards.md R296).
  Raised by `hostReadMem` and `hostWriteMem`. Safe. -/
  | hostRace (addr : Nat)
  deriving DecidableEq, Repr

/-- A refusal: the input is no legal transaction of its agent, so the hardware is given nothing to do. -/
inductive Refusal where
  /-- The instruction has no meaning in the model; raised by `exec` only, for no instruction of this
  model. Safe. -/
  | notModelled (mnemonic : String)
  /-- A register access that is not 32 bits wide, not 4-aligned, or outside the 256 bytes
  (10_state.md R38). Raised by `hostStep`. Safe. -/
  | illegalRegAccess
  /-- A host access outside MEM (20_memory.md R61). Raised by `hostStep`. Safe. -/
  | outsideMem
  /-- A source answer with more than DEC_CHUNK symbols (60_exceptions.md R263). Raised by
  `sourceStep`. Safe. -/
  | sourceOverrun
  /-- A port answer to a transaction that does not exist or has its answer already (60_exceptions.md
  R262, R263). Raised by `sinkStep` and `sourceStep`. Safe. -/
  | noSuchTransaction
  deriving DecidableEq, Repr

/-- The state after power-on reset of a block with parameters `p` (70_reset_and_hazards.md R290). -/
def State.powerOn (p : Params) : State :=
  { params := p
    cmdReg := 0
    status := { busy := false, done := false, eof := false, ovr := false, err := .ok }
    arg0 := 0
    arg1 := 0
    arg2 := 0
    arg3 := 0
    res0 := 0
    res1 := 0
    errOffset := 0
    ioCode := 0
    latch := { cmd := 0, a0 := 0, a1 := 0, a2 := 0, a3 := 0 }
    cont := none
    loadable := Vector.replicate 6 Slot.unloaded
    senc := { state := .idle, slot := 0, buf := [], err := 0 }
    sdec := { isOpen := false, slot := 0, buf := [], eof := false }
    mem := []
    sinkLog := []
    srcLog := []
    inputs := []
    program := []
    hostLog := []
    draws := 0 }

/-- The machine right after power-on reset, with the default parameters. -/
def State.reset : State := State.powerOn Params.default

end Sys2Proof.Machine
end

