-- ==== Sys2Proof/Machine/Operands.lean ====
section
/-!
DEFINITION. How operands are formed from the latched words (30_encoding.md R86, R87), and the range
and overlap checks of buffers (20_memory.md R64, R65).
-/

namespace Sys2Proof.Machine

/-- `ceil(a / b)` for b > 0 (00_scope.md R13). -/
def ceilDiv (a b : Nat) : Nat := (a + b - 1) / b

/-- The source address operand, `zext_32(a0)` (30_encoding.md R87). -/
def srcAddr (l : Latch) : Nat := l.a0.toNat

/-- The length operand, `a1` unsigned (30_encoding.md R87). -/
def lengthArg (l : Latch) : Nat := l.a1.toNat

/-- The destination address operand, `zext_32(a2)` (30_encoding.md R87). -/
def dstAddr (l : Latch) : Nat := l.a2.toNat

/-- The bit count operand, `sint32(a3)` (30_encoding.md R87). -/
def bitCount (l : Latch) : Int := l.a3.toInt

/-- The index operand, `a0[4:0]` (30_encoding.md R87). -/
def indexArg (l : Latch) : BitVec 5 := l.a0.extractLsb' 0 5

/-- The byte operand, `a0[7:0]` (30_encoding.md R87). -/
def byteArg (l : Latch) : Byte := l.a0.extractLsb' 0 8

/-- InRange (20_memory.md R64): an empty range passes, and the sum does not wrap. -/
def inRange (p : Params) (addr n : Nat) : Bool := n = 0 || addr + n ≤ p.memBytes

/-- Overlap (20_memory.md R65). -/
def overlap (a n b m : Nat) : Bool := 0 < n && 0 < m && a < b + m && b < a + n

/-- The check of a command with a source and a destination range (20_memory.md R64, R65). -/
def buffersOk (p : Params) (src n dst m : Nat) : Bool :=
  inRange p src n && inRange p dst m && !overlap src n dst m

end Sys2Proof.Machine
end

