-- ==== Sys2Proof/Machine/Codec.lean ====
section
/-!
DEFINITION. The codec's algorithms as functions of data: the encode bit-walk and the length functions
(41_encoder.md sections 1 and 2), and the decode group walk (42_decoder.md section 1).
-/

namespace Sys2Proof.Machine

/-- StreamBit (41_encoder.md R130): stream bit j of `src`, limited to L significant bits. -/
def streamBit (src : List Byte) (L j : Nat) : Bool :=
  if j < L then (src.getD (j / 8) 0).getLsbD (7 - j % 8) else false

/-- SymVal (41_encoder.md R131): the bits 5k to 5k+4 of the stream, the first the most significant. -/
def symVal (src : List Byte) (L k : Nat) : BitVec 5 :=
  BitVec.ofNat 5 ((List.range 5).map (fun t => (streamBit src L (5 * k + t)).toNat <<< (4 - t))).sum

/-- The cursor-walk form of SymVal that 41_encoder.md R131 gives beside the bit form. -/
def symValCursor (src : List Byte) (L k : Nat) : Nat :=
  let c := 5 * k
  let off := c % 8
  let i := c / 8
  let b0 := (src.getD i 0).toNat
  let b1 := if i + 1 < src.length then (src.getD (i + 1) 0).toNat else 0
  let v := if off ≤ 3 then (b0 >>> (3 - off)) &&& 31 else ((b0 <<< (off - 3)) ||| (b1 >>> (11 - off))) &&& 31
  if c + 5 > L then v &&& ((31 <<< (c + 5 - L)) &&& 31) else v

/-- EncodeCore (41_encoder.md R132) with the alphabet `alpha`: ceil(L/5) symbols. -/
def encodeCore (alpha : Vector Byte 32) (src : List Byte) (L : Nat) : List Byte :=
  (List.range (ceilDiv L 5)).map (fun k => symbolAt alpha (symVal src L k))

/-- EncodedLen (41_encoder.md R137). -/
def encodedLen (n : Nat) : Nat := ceilDiv n 5 * 8

/-- DecodedLen (41_encoder.md R137). -/
def decodedLen (n : Nat) : Nat := ceilDiv n 8 * 5

/-- The mode of a decode (42_decoder.md R166): ALIGNED, or BITS(bc). -/
inductive DecMode where
  | aligned
  | bits (bc : Nat)
  deriving DecidableEq, Repr

/-- How a decode ends (42_decoder.md R166). -/
inductive DecEnd where
  /-- Every symbol was decoded. -/
  | ok
  /-- The symbol at this input offset is not in the alphabet (42_decoder.md R161). -/
  | corrupt (offset : Nat)
  /-- The symbol at this input offset lies in an unwritten byte of MEM (20_memory.md R63). -/
  | unread (offset : Nat)
  deriving DecidableEq, Repr

/-- The table T of 42_decoder.md R164: symbols in a group to bytes emitted. -/
def tableT (dlen : Nat) : Nat := [0, 1, 1, 2, 2, 3, 4, 4, 5].getD dlen 0

/-- B(r) of 42_decoder.md R165, of the remaining count `bc - 40g` (0 stands for r <= 0). -/
def bitsB (r : Nat) : Nat := ceilDiv (min r 40) 8

/-- How many bytes group g of `dlen` symbols emits (42_decoder.md R164, R165). The subtraction stops at
0, where B is 0 as it is for every r <= 0. -/
def emitCount (mode : DecMode) (g dlen : Nat) : Nat :=
  match mode with
  | .aligned => tableT dlen
  | .bits bc => bitsB (bc - 40 * g)

/-- A group's values: those of its symbols, then zeros (42_decoder.md R162). -/
def padGroup (vals : List Byte) : Vector Byte 8 := Vector.ofFn (fun j => vals.getD j 0)

/-- Combine (42_decoder.md R163). The shifts are of bytes, so that `& 0xFF` is the width. -/
def combine (d : Vector Byte 8) : List Byte :=
  [d[0] <<< 3 ||| d[1] >>> 2,
   d[1] <<< 6 ||| d[2] <<< 1 ||| d[3] >>> 4,
   d[3] <<< 4 ||| d[4] >>> 1,
   d[4] <<< 7 ||| d[5] <<< 2 ||| d[6] >>> 3,
   d[6] <<< 5 ||| d[7]]

/-- Looks up `n` symbols from input offset `i` on, in input order, and stops at the first that is not
in the alphabet (42_decoder.md R161). -/
def readGroup (dt : Vector Byte 256) (sym : Nat → Option Byte) : Nat → Nat → Except DecEnd (List Byte)
  | 0, _ => .ok []
  | n + 1, i =>
    match sym i with
    | none => .error (.unread i)
    | some c =>
      if entryAt dt c = sentinel then .error (.corrupt i)
      else match readGroup dt sym n (i + 1) with
        | .error e => .error e
        | .ok vs => .ok (entryAt dt c :: vs)

/-- Decodes `n` groups from group g on (the loop of 42_decoder.md R166). -/
def decodeGroups (dt : Vector Byte 256) (sym : Nat → Option Byte) (L : Nat) (mode : DecMode) :
    Nat → Nat → List Byte × DecEnd
  | 0, _ => ([], .ok)
  | n + 1, g =>
    match readGroup dt sym (min 8 (L - 8 * g)) (8 * g) with
    | .error e => ([], e)
    | .ok vs =>
      let r := decodeGroups dt sym L mode n (g + 1)
      ((combine (padGroup vs)).take (emitCount mode g (min 8 (L - 8 * g))) ++ r.1, r.2)

/-- DecodeCore (42_decoder.md R166) of the L symbols that `sym` gives by input offset. -/
def decodeCore (dt : Vector Byte 256) (sym : Nat → Option Byte) (L : Nat) (mode : DecMode) : List Byte × DecEnd :=
  decodeGroups dt sym L mode (ceilDiv L 8) 0

/-- DecodeSeq (44_stream_decoder.md R224): DecodeCore of a byte sequence, in ALIGNED mode. -/
def decodeSeq (dt : Vector Byte 256) (syms : List Byte) : List Byte × DecEnd :=
  decodeCore dt (fun i => syms[i]?) syms.length .aligned

/-- OutCount (42_decoder.md R167). -/
def outCount (L : Nat) (mode : DecMode) : Nat :=
  match mode with
  | .aligned => 5 * (L / 8) + tableT (L % 8)
  | .bits bc => ((List.range (ceilDiv L 8)).map (fun g => bitsB (bc - 40 * g))).sum

end Sys2Proof.Machine
end

