-- ==== Sys2Proof/Machine/Flags.lean ====
section
/-!
DEFINITION. STATUS and the other register words: how the flags change at acceptance and completion
(10_state.md R23, R46) and how each read-only register is composed from the state (R31 to R36).
-/

namespace Sys2Proof.Machine

/-- The number of an error code (10_state.md R24). -/
def ErrCode.code : ErrCode → BitVec 4
  | .ok => 0
  | .corruptInput => 1
  | .invalidArg => 2
  | .ioError => 3
  | .illegalCmd => 4
  | .badHandle => 5
  | .addrRange => 6
  | .bitRange => 7
  | .streamState => 8

/-- STATUS at acceptance (10_state.md R23): BUSY = 1, DONE = 0, EOF = 0, ERR and OVR as they were. -/
def Status.accepted (st : Status) : Status := { st with busy := true, done := false, eof := false }

/-- STATUS at a completion (60_exceptions.md R251, R252): BUSY = 0, DONE = 1, OVR as it was. -/
def Status.completed (st : Status) (eof : Bool) (err : ErrCode) : Status :=
  { st with busy := false, done := true, eof := eof, err := err }

/-- The bit `b` at place `i` of a register word. -/
def flagBit (b : Bool) (i : Nat) : Word := BitVec.ofNat 32 b.toNat <<< i

/-- STATUS as the host reads it (10_state.md R23). -/
def statusWord (st : Status) : Word :=
  flagBit st.busy 0 ||| flagBit st.done 1 ||| flagBit st.eof 2 ||| flagBit st.ovr 3
    ||| st.err.code.setWidth 32 <<< 8

/-- STATUS.EOF at an OK completion of SDEC_READ (44_stream_decoder.md R226), of the decoder after the
read's own delivery. -/
def eofFlag (d : Sdec) : Bool := d.eof && d.buf.isEmpty

/-- ID, the ASCII codes of "ZR32" (10_state.md R33). -/
def idWord : Word := 0x5A523332

/-- A ROM slot: always valid, its table built from its alphabet (10_state.md R42, 40_alphabet_lut.md
R105). -/
def romSlot (alpha : Vector Byte 32) : Slot := { alpha := alpha, dt := buildTable alpha, valid := true }

/-- The handle of slot number s (40_alphabet_lut.md R100): slots 0 and 1 are the ROM alphabets
(10_state.md R40, R41), slots 2 to 7 the loadable ones; a greater number is no slot. -/
def slotAt (s : State) (i : Nat) : Slot :=
  match i with
  | 0 => romSlot (standardAlphabet s.params)
  | 1 => romSlot (lowerAlphabet s.params)
  | j + 2 => s.loadable[j]?.getD Slot.unloaded

/-- Usable (40_alphabet_lut.md R100). -/
def usable (s : State) (i : Nat) : Bool := i < s.params.numSlots && (slotAt s i).valid

/-- LUT_LOAD may load the slot: it exists, is no ROM slot and is not valid (40_alphabet_lut.md R109). -/
def canLoad (s : State) (i : Nat) : Bool := i < s.params.numSlots && 2 ≤ i && !(slotAt s i).valid

/-- SLOT_VALID (10_state.md R31): bit s is VALID[s] for s < NUM_SLOTS, the others 0. -/
def slotValidWord (s : State) : Word :=
  (List.range 8).foldl (fun w i => w ||| flagBit (usable s i) i) 0

/-- The number of senc.state (10_state.md R32). -/
def SencMode.code : SencMode → BitVec 2
  | .idle => 0
  | .opened => 1
  | .closed => 2
  | .failed => 3

/-- SENC_STATE (10_state.md R32): NBUF in bits 2:0, STATE in 5:4, SLOT in 10:8. -/
def sencStateWord (e : Senc) : Word :=
  (BitVec.ofNat 3 e.buf.length).setWidth 32 ||| e.state.code.setWidth 32 <<< 4 ||| e.slot.setWidth 32 <<< 8

/-- SDEC_STATE (10_state.md R36): COUNT in bits 15:0, EOF in 16, OPEN in 17, SLOT in 26:24. -/
def sdecStateWord (d : Sdec) : Word :=
  (BitVec.ofNat 16 d.buf.length).setWidth 32 ||| flagBit d.eof 16 ||| flagBit d.isOpen 17
    ||| d.slot.setWidth 32 <<< 24

/-- PARAM_MEM (10_state.md R34). -/
def paramMemWord (p : Params) : Word := BitVec.ofNat 32 p.memBytes

/-- PARAM_STREAM (10_state.md R35): DEC_CHUNK in bits 15:0, ENC_STAGE_BYTES in 31:16. -/
def paramStreamWord (p : Params) : Word :=
  (BitVec.ofNat 16 p.decChunk).setWidth 32 ||| (BitVec.ofNat 16 p.encStageBytes).setWidth 32 <<< 16

/-- PARAM_SLOTS (10_state.md R35): NUM_SLOTS in bits 3:0. -/
def paramSlotsWord (p : Params) : Word := (BitVec.ofNat 4 p.numSlots).setWidth 32

/-- What the register at a byte offset reads, while its value is specified (10_state.md R20, R30,
R37). -/
def regValue (s : State) (offset : Nat) : Word :=
  match offset with
  | 0x00 => s.cmdReg
  | 0x04 => statusWord s.status
  | 0x08 => s.arg0
  | 0x0C => s.arg1
  | 0x10 => s.arg2
  | 0x14 => s.arg3
  | 0x18 => s.res0
  | 0x1C => s.res1
  | 0x20 => s.errOffset
  | 0x24 => s.ioCode
  | 0x28 => 0
  | 0x2C => idWord
  | 0x30 => slotValidWord s
  | 0x34 => sencStateWord s.senc
  | 0x38 => sdecStateWord s.sdec
  | 0x3C => paramMemWord s.params
  | 0x40 => paramStreamWord s.params
  | 0x44 => paramSlotsWord s.params
  | _ => 0

end Sys2Proof.Machine
end

