-- ==== Sys2Proof/Machine/Ops.lean ====
section
/-!
DEFINITION. The named operations over memory and state: MemRead and MemWrite (20_memory.md R63), the
two completion primitives (60_exceptions.md R251, R252: they stand where another machine takes an
exception and returns from it, R267, R268), the opening of a port transaction, and loading a slot.
-/

namespace Sys2Proof.Machine

/-- The canonical form of MEM: strictly rising addresses. -/
def Memory.wf (m : Memory) : Bool := decide (m.Pairwise (fun x y => x.1 < y.1))

/-- The byte at an address, if it has been written (20_memory.md R63). -/
def readByte : Memory → Nat → Option Byte
  | [], _ => none
  | (k, b) :: m, a => if k = a then some b else readByte m a

/-- Writes one byte, keeping the addresses rising. -/
def writeByte : Memory → Nat → Byte → Memory
  | [], a, b => [(a, b)]
  | (k, v) :: m, a, b =>
    if a < k then (a, b) :: (k, v) :: m
    else if a = k then (a, b) :: m
    else (k, v) :: writeByte m a b

/-- MemWrite (20_memory.md R63). -/
def writeBytes : Memory → Nat → List Byte → Memory
  | m, _, [] => m
  | m, a, b :: bs => writeBytes (writeByte m a b) (a + 1) bs

/-- MemRead (20_memory.md R63) of n bytes: a byte nothing has written is a fault. -/
def readBytes (m : Memory) : Nat → Nat → Except Fault (List Byte)
  | _, 0 => .ok []
  | a, n + 1 =>
    match readByte m a with
    | none => .error (.unwrittenMem a)
    | some b => match readBytes m (a + 1) n with
      | .error f => .error f
      | .ok bs => .ok (b :: bs)

/-- What `raise` may name besides the error (60_exceptions.md R252); each defaults to 0. -/
structure ErrInfo where
  offset : Nat := 0
  code : Word := 0
  count : Nat := 0
  deriving DecidableEq, Repr

/-- `complete(res0, res1)` with STATUS.EOF <- eof (60_exceptions.md R251). -/
def completeWith (s : State) (res0 res1 : Word) (eof : Bool) : State :=
  { s with
    res0 := res0
    res1 := res1
    errOffset := 0
    ioCode := 0
    status := s.status.completed eof .ok
    cont := none }

/-- `complete(n, 0)` for a count n (60_exceptions.md R251). -/
def completeCount (s : State) (n : Nat) : State := completeWith s (BitVec.ofNat 32 n) 0 false

/-- `raise E(info)` (60_exceptions.md R252). -/
def raiseError (s : State) (e : ErrCode) (info : ErrInfo := {}) : State :=
  { s with
    res0 := BitVec.ofNat 32 info.count
    res1 := 0
    errOffset := BitVec.ofNat 32 info.offset
    ioCode := info.code
    status := s.status.completed false e
    cont := none }

/-- MemWrite on the state's MEM. -/
def storeBytes (s : State) (dst : Nat) (bs : List Byte) : State := { s with mem := writeBytes s.mem dst bs }

/-- LUT_LOAD's writes to slot i (40_alphabet_lut.md R109). Only a loadable slot has cells to write. -/
def loadSlot (s : State) (i : Nat) (sym : Vector Byte 32) : State :=
  { s with loadable := s.loadable.setIfInBounds (i - 2) { alpha := sym, dt := buildTable sym, valid := true } }

/-- SinkWrite (00_scope.md R14): sends `syms` and waits; the transaction enters SINKLOG without an
answer (20_memory.md R77). `c` is the rest of the command. -/
def sinkWrite (s : State) (syms : List Byte) (c : Cont) : State :=
  { s with sinkLog := s.sinkLog ++ [{ syms := syms, reply := .pending }], cont := some c }

/-- SourcePull (00_scope.md R14): asks for `max` symbols and waits. -/
def sourcePull (s : State) (max : Nat) (c : Cont) : State :=
  { s with srcLog := s.srcLog ++ [{ max := max, reply := .pending }], cont := some c }

/-- The sink's answer to transaction `tx` enters SINKLOG (20_memory.md R77). -/
def logSinkAnswer (s : State) (tx : Nat) (a : SinkAnswer) : State :=
  { s with sinkLog := s.sinkLog.modify tx (fun e => { e with reply := .answered a }) }

/-- The source's answer to transaction `tx` enters SRCLOG (20_memory.md R77). -/
def logSourceAnswer (s : State) (tx : Nat) (a : SourceAnswer) : State :=
  { s with srcLog := s.srcLog.modify tx (fun e => { e with reply := .answered a }) }

/-- A transaction without an answer becomes ABANDONED (70_reset_and_hazards.md R292). -/
def Reply.abandon {α : Type} : Reply α → Reply α
  | .pending => .abandoned
  | .answered a => .answered a
  | .abandoned => .abandoned

/-- Soft reset (70_reset_and_hazards.md R291, R292): the power-on values, but MEM, the logs and the
constants stay, and a pending transaction is abandoned. The model's own fields stay too. -/
def softReset (s : State) : State :=
  { State.powerOn s.params with
    mem := s.mem
    sinkLog := s.sinkLog.map (fun e => { e with reply := e.reply.abandon })
    srcLog := s.srcLog.map (fun e => { e with reply := e.reply.abandon })
    inputs := s.inputs
    program := s.program
    hostLog := s.hostLog
    draws := s.draws }

/-- Power-on reset from outside (70_reset_and_hazards.md R290). The inputs to come, the host's program and
the draws made are the model's own and stay (log entry 15). DESIGN CHOICE (log entry 23), safe: the logs
start anew, and nothing is kept of a transaction that was pending. -/
def powerOnReset (s : State) : State :=
  { State.powerOn s.params with inputs := s.inputs, program := s.program, draws := s.draws }

end Sys2Proof.Machine
end

