-- ==== Sys2Proof/Machine/Decoder.lean ====
section
/-!
DEFINITION. Whole-buffer decode (42_decoder.md section 2).
-/

namespace Sys2Proof.Machine

/-- What DEC and DEC_BITS share once their operands are formed (42_decoder.md R168, R169): the range
and overlap check over the L symbols and OutCount bytes, the decode, and the write of the bytes of the
completed groups, whether or not a symbol was corrupt. -/
def decodeTo (s : State) (h : Nat) (mode : DecMode) : Host.Outcome State Fault Refusal :=
  let src := srcAddr s.latch
  let len := lengthArg s.latch
  let dst := dstAddr s.latch
  if !buffersOk s.params src len dst (outCount len mode) then .next (raiseError s .addrRange)
  else
    let r := decodeCore (slotAt s h).dt (fun i => readByte s.mem (src + i)) len mode
    match r.2 with
    | .unread i => .fault (.unwrittenMem (src + i))
    | .corrupt i =>
      .next (raiseError (storeBytes s dst r.1) .corruptInput { offset := i, count := r.1.length })
    | .ok => .next (completeCount (storeBytes s dst r.1) r.1.length)

/-- DEC (42_decoder.md R168). -/
def execDec (h : Nat) (s : State) : Host.Outcome State Fault Refusal :=
  if !usable s h then .next (raiseError s .badHandle)
  else decodeTo s h .aligned

/-- DEC_BITS (42_decoder.md R169). -/
def execDecBits (h : Nat) (s : State) : Host.Outcome State Fault Refusal :=
  if !usable s h then .next (raiseError s .badHandle)
  else if bitCount s.latch < 0 then .next (raiseError s .invalidArg)
  else decodeTo s h (.bits (bitCount s.latch).toNat)

end Sys2Proof.Machine
end

