-- ==== Sys2Proof/Machine/Encoder.lean ====
section
/-!
DEFINITION. Whole-buffer encode and the length functions (41_encoder.md section 3).
-/

namespace Sys2Proof.Machine

/-- What ENC and ENC_BITS share once their operands are formed (41_encoder.md R135, R136): the range
and overlap check over the n source bytes and the ceil(L/5) symbols, the read of the first `nread`
bytes, the encoding of L bits and the write of the symbols. -/
def encodeTo (s : State) (h n nread L : Nat) : Host.Outcome State Fault Refusal :=
  if !buffersOk s.params (srcAddr s.latch) n (dstAddr s.latch) (ceilDiv L 5) then .next (raiseError s .addrRange)
  else match readBytes s.mem (srcAddr s.latch) nread with
    | .error f => .fault f
    | .ok src =>
      .next (completeCount (storeBytes s (dstAddr s.latch) (encodeCore (slotAt s h).alpha src L)) (ceilDiv L 5))

/-- ENC (41_encoder.md R135). -/
def execEnc (h : Nat) (s : State) : Host.Outcome State Fault Refusal :=
  if !usable s h then .next (raiseError s .badHandle)
  else encodeTo s h (lengthArg s.latch) (lengthArg s.latch) (8 * lengthArg s.latch)

/-- ENC_BITS (41_encoder.md R136). -/
def execEncBits (h : Nat) (s : State) : Host.Outcome State Fault Refusal :=
  if !usable s h then .next (raiseError s .badHandle)
  else if bitCount s.latch < 0 then .next (raiseError s .invalidArg)
  else if bitCount s.latch > 8 * (lengthArg s.latch : Int) then .next (raiseError s .bitRange)
  else encodeTo s h (lengthArg s.latch) (ceilDiv (bitCount s.latch).toNat 8) (bitCount s.latch).toNat

/-- A 64-bit length result in RES1:RES0 (41_encoder.md R138, R139). -/
def completeLength (s : State) (r : Nat) : State :=
  completeWith s ((BitVec.ofNat 64 r).extractLsb' 0 32) ((BitVec.ofNat 64 r).extractLsb' 32 32) false

/-- ENC_LEN (41_encoder.md R138). -/
def execEncLen (s : State) : Host.Outcome State Fault Refusal :=
  .next (completeLength s (encodedLen (lengthArg s.latch)))

/-- DEC_LEN (41_encoder.md R139). -/
def execDecLen (s : State) : Host.Outcome State Fault Refusal :=
  .next (completeLength s (decodedLen (lengthArg s.latch)))

end Sys2Proof.Machine
end

