-- ==== Sys2Proof/Machine/Lut.lean ====
section
/-!
DEFINITION. The commands on the tables, and NOP (40_alphabet_lut.md section 4).
-/

namespace Sys2Proof.Machine

/-- NOP (40_alphabet_lut.md R112). -/
def execNop (s : State) : Host.Outcome State Fault Refusal := .next (completeWith s 0 0 false)

/-- The 32 bytes LUT_LOAD has read, as the slot's alphabet. -/
def alphabetOf (bs : List Byte) : Vector Byte 32 := Vector.ofFn (fun i => bs.getD i 0)

/-- LUT_LOAD (40_alphabet_lut.md R109). -/
def execLutLoad (h : Nat) (s : State) : Host.Outcome State Fault Refusal :=
  if !canLoad s h then .next (raiseError s .badHandle)
  else if !inRange s.params (srcAddr s.latch) 32 then .next (raiseError s .addrRange)
  else match readBytes s.mem (srcAddr s.latch) 32 with
    | .error f => .fault f
    | .ok bs => .next (completeWith (loadSlot s h (alphabetOf bs)) 0 0 false)

/-- SYM_LOOKUP (40_alphabet_lut.md R110). -/
def execSymLookup (h : Nat) (s : State) : Host.Outcome State Fault Refusal :=
  if !usable s h then .next (raiseError s .badHandle)
  else .next (completeWith s ((symbolAt (slotAt s h).alpha (indexArg s.latch)).setWidth 32) 0 false)

/-- DT_LOOKUP (40_alphabet_lut.md R111). -/
def execDtLookup (h : Nat) (s : State) : Host.Outcome State Fault Refusal :=
  if !usable s h then .next (raiseError s .badHandle)
  else .next (completeWith s ((entryAt (slotAt s h).dt (byteArg s.latch)).setWidth 32) 0 false)

end Sys2Proof.Machine
end

