-- ==== Sys2Proof/Machine/StreamDecoder.lean ====
section
/-!
DEFINITION. The Streaming Decoder (44_stream_decoder.md): SDEC_OPEN, SDEC_READ, and what follows the
source's answer to a pull.
-/

namespace Sys2Proof.Machine

/-- SDEC_OPEN (44_stream_decoder.md R221). -/
def execSdecOpen (h : Nat) (s : State) : Host.Outcome State Fault Refusal :=
  if !usable s h then .next (raiseError s .badHandle)
  else .next (completeWith
    { s with sdec := { isOpen := true, slot := BitVec.ofNat 3 h, buf := [], eof := false } } 0 0 false)

/-- The delivery of SDEC_READ (44_stream_decoder.md R222, R225, R226): the first min(req, count) bytes
of the buffer go to MEM, the rest move to the front, and EOF is reported by the decoder as it is then. -/
def sdecDeliver (s : State) : State :=
  let d := min (lengthArg s.latch) s.sdec.buf.length
  let after := { s.sdec with buf := s.sdec.buf.drop d }
  let s' := { storeBytes s (dstAddr s.latch) (s.sdec.buf.take d) with sdec := after }
  completeWith s' (BitVec.ofNat 32 d) 0 (eofFlag after)

/-- SDEC_READ pulls from the source (44_stream_decoder.md R223). -/
def needsPull (s : State) : Bool := 0 < lengthArg s.latch && s.sdec.buf.isEmpty && !s.sdec.eof

/-- SDEC_READ (44_stream_decoder.md R222), up to its completion or its pull. -/
def execSdecRead (s : State) : Host.Outcome State Fault Refusal :=
  if !s.sdec.isOpen then .next (raiseError s .streamState)
  else if !inRange s.params (dstAddr s.latch) (lengthArg s.latch) then .next (raiseError s .addrRange)
  else if needsPull s then .next (sourcePull s s.params.decChunk .sdecPull)
  else .next (sdecDeliver s)

/-- The decode of a pulled chunk and what follows (44_stream_decoder.md R222, R224, R228). A chunk is a
byte sequence, so its decode never meets an unread symbol. -/
def decodeChunk (s : State) (syms : List Byte) : State :=
  let r := decodeSeq (slotAt s s.sdec.slot.toNat).dt syms
  match r.2 with
  | .corrupt i => raiseError s .corruptInput { offset := i }
  | .ok => sdecDeliver { s with sdec := { s.sdec with buf := r.1 } }
  | .unread _ => sdecDeliver { s with sdec := { s.sdec with buf := r.1 } }

/-- The rest of SDEC_READ after the source's answer (44_stream_decoder.md R222, R228). -/
def afterPull (s : State) (a : SourceAnswer) : State :=
  match a.st with
  | .err c => raiseError s .ioError { code := c }
  | .eof => decodeChunk { s with sdec := { s.sdec with eof := true } } a.syms
  | .ok => decodeChunk s a.syms

/-- The source answers pull `tx` (60_exceptions.md R263). More than DEC_CHUNK symbols are no legal
answer; the pending pull resumes its command; the answer to an abandoned one is discarded
(70_reset_and_hazards.md R292); no other is a pull that can be answered (log entry 9; after power-on reset,
log entry 23). -/
def sourceStep (s : State) (tx : Nat) (a : SourceAnswer) : Host.Outcome State Fault Refusal :=
  match s.srcLog[tx]? with
  | none => .refused .noSuchTransaction
  | some e =>
    if e.max < a.syms.length then .refused .sourceOverrun
    else match e.reply with
      | .abandoned => .next s
      | .pending =>
        match s.cont with
        | some .sdecPull => .next (afterPull (logSourceAnswer s tx a) a)
        | some (.start _) => .refused .noSuchTransaction
        | some (.sencFringe _ _) => .refused .noSuchTransaction
        | some (.sencGroup _ _ _) => .refused .noSuchTransaction
        | some .sencClose => .refused .noSuchTransaction
        | none => .refused .noSuchTransaction
      | .answered _ => .refused .noSuchTransaction

end Sys2Proof.Machine
end

