-- ==== Sys2Proof/Machine/StreamEncoder.lean ====
section
/-!
DEFINITION. The Streaming Encoder (43_stream_encoder.md): SENC_OPEN, SENC_WRITE, SENC_CLOSE, and what
follows the sink's answer to a transaction of theirs.
-/

namespace Sys2Proof.Machine

/-- The alphabet of the stream's handle, bound at SENC_OPEN (43_stream_encoder.md R196). -/
def streamAlphabet (s : State) : Vector Byte 32 := (slotAt s s.senc.slot.toNat).alpha

/-- SENC_OPEN (43_stream_encoder.md R191). -/
def execSencOpen (h : Nat) (s : State) : Host.Outcome State Fault Refusal :=
  if !usable s h then .next (raiseError s .badHandle)
  else .next (completeWith
    { s with senc := { state := .opened, slot := BitVec.ofNat 3 h, buf := [], err := 0 } } 0 0 false)

/-- The fringe becomes `buf`. -/
def setFringe (s : State) (buf : List Byte) : State := { s with senc := { s.senc with buf := buf } }

/-- A sink transaction failed with code `c` after `count` bytes of this write were accepted: the stream
is FAILED, the code is kept, and the command ends with IO_ERROR (43_stream_encoder.md R197). -/
def failStream (s : State) (c : Word) (count : Nat) : State :=
  raiseError { s with senc := { s.senc with state := .failed, err := c } } .ioError { code := c, count := count }

/-- Regions (b) and (c) of SENC_WRITE (43_stream_encoder.md R192): with 5 or more bytes left, send the
largest group that fits the staging buffer; else keep them as the new fringe and complete. -/
def sencInterior (s : State) (p : List Byte) (acc : Nat) : State :=
  if 5 ≤ p.length then
    let nn := min s.params.encStageBytes (p.length - p.length % 5)
    sinkWrite s (encodeCore (streamAlphabet s) (p.take nn) (8 * nn)) (.sencGroup nn p acc)
  else completeCount (setFringe s p) (lengthArg s.latch)

/-- Region (a) of SENC_WRITE (43_stream_encoder.md R192), for the source bytes `p`: top up the fringe of
an earlier call, if there is one, and send it when it has reached 5 bytes. -/
def sencTopUp (s : State) (p : List Byte) : State :=
  if s.senc.buf.isEmpty then sencInterior s p 0
  else
    let t := min p.length (5 - s.senc.buf.length)
    let buf := s.senc.buf ++ p.take t
    let s' := setFringe s buf
    if buf.length < 5 then completeCount s' (lengthArg s.latch)
    else sinkWrite s' (encodeCore (streamAlphabet s) (buf.take 5) 40) (.sencFringe (p.drop t) t)

/-- SENC_WRITE (43_stream_encoder.md R192), up to its completion or its first sink transaction. -/
def execSencWrite (s : State) : Host.Outcome State Fault Refusal :=
  match s.senc.state with
  | .idle => .next (raiseError s .streamState)
  | .closed => .next (raiseError s .streamState)
  | .failed => .next (raiseError s .ioError { code := s.senc.err })
  | .opened =>
    if !inRange s.params (srcAddr s.latch) (lengthArg s.latch) then .next (raiseError s .addrRange)
    else match readBytes s.mem (srcAddr s.latch) (lengthArg s.latch) with
      | .error f => .fault f
      | .ok p => .next (sencTopUp s p)

/-- SENC_CLOSE (43_stream_encoder.md R198), up to its completion or its sink transaction. -/
def execSencClose (s : State) : Host.Outcome State Fault Refusal :=
  match s.senc.state with
  | .idle => .next (raiseError s .streamState)
  | .closed => .next (completeWith s 0 0 false)
  | .failed => .next (raiseError s .ioError { code := s.senc.err })
  | .opened =>
    if s.senc.buf.isEmpty then
      .next (completeWith { s with senc := { s.senc with state := .closed } } 0 0 false)
    else
      .next (sinkWrite s (encodeCore (streamAlphabet s) s.senc.buf (8 * s.senc.buf.length)) .sencClose)

/-- The rest of SENC_WRITE after the answer to the topped-up fringe (43_stream_encoder.md R192 (a)). -/
def afterFringe (s : State) (p : List Byte) (t : Nat) (a : SinkAnswer) : State :=
  match a with
  | .ok => sencInterior (setFringe s []) p t
  | .err c => failStream (setFringe s []) c 0

/-- The rest of SENC_WRITE after the answer to an interior group (43_stream_encoder.md R192 (b)). -/
def afterGroup (s : State) (nn : Nat) (p : List Byte) (acc : Nat) (a : SinkAnswer) : State :=
  match a with
  | .ok => sencInterior s (p.drop nn) (acc + nn)
  | .err c => failStream s c acc

/-- The rest of SENC_CLOSE after the answer to the final fringe (43_stream_encoder.md R198). -/
def afterClose (s : State) (a : SinkAnswer) : State :=
  match a with
  | .ok => completeWith { s with senc := { s.senc with state := .closed, buf := [] } } 0 0 false
  | .err c => failStream (setFringe s []) c 0

/-- The sink answers transaction `tx` (60_exceptions.md R262). The pending one resumes its command; the
answer to an abandoned one is discarded (70_reset_and_hazards.md R292); no other is a transaction that
can be answered (log entry 9; after power-on reset, log entry 23). -/
def sinkStep (s : State) (tx : Nat) (a : SinkAnswer) : Host.Outcome State Fault Refusal :=
  match s.sinkLog[tx]?.map SinkTx.reply with
  | some .abandoned => .next s
  | some .pending =>
    match s.cont with
    | some (.sencFringe p t) => .next (afterFringe (logSinkAnswer s tx a) p t a)
    | some (.sencGroup nn p acc) => .next (afterGroup (logSinkAnswer s tx a) nn p acc a)
    | some .sencClose => .next (afterClose (logSinkAnswer s tx a) a)
    | some (.start _) => .refused .noSuchTransaction
    | some .sdecPull => .refused .noSuchTransaction
    | none => .refused .noSuchTransaction
  | some (.answered _) => .refused .noSuchTransaction
  | none => .refused .noSuchTransaction

end Sys2Proof.Machine
end

