-- ==== Sys2Proof/Machine/Dispatch.lean ====
section
/-!
DEFINITION. The command's rule, one arm per command of 30_encoding.md R85: what the core does in the
step of an accepted command, up to its completion or its first port transaction (00_scope.md R6).
-/

namespace Sys2Proof.Machine

def exec (i : Instr) (s : State) : Host.Outcome State Fault Refusal :=
  match i with
  | .nop => Sys2Proof.Machine.execNop s
  | .lutLoad h => Sys2Proof.Machine.execLutLoad h s
  | .symLookup h => Sys2Proof.Machine.execSymLookup h s
  | .dtLookup h => Sys2Proof.Machine.execDtLookup h s
  | .enc h => Sys2Proof.Machine.execEnc h s
  | .encBits h => Sys2Proof.Machine.execEncBits h s
  | .encLen => Sys2Proof.Machine.execEncLen s
  | .decLen => Sys2Proof.Machine.execDecLen s
  | .dec h => Sys2Proof.Machine.execDec h s
  | .decBits h => Sys2Proof.Machine.execDecBits h s
  | .sencOpen h => Sys2Proof.Machine.execSencOpen h s
  | .sencWrite => Sys2Proof.Machine.execSencWrite s
  | .sencClose => Sys2Proof.Machine.execSencClose s
  | .sdecOpen h => Sys2Proof.Machine.execSdecOpen h s
  | .sdecRead => Sys2Proof.Machine.execSdecRead s

end Sys2Proof.Machine
end

