-- ==== Sys2Proof/Machine/HostPort.lean ====
section
/-!
DEFINITION. What the host's bus transactions do (10_state.md R20 to R38, 20_memory.md R61): register
reads and writes, the acceptance of a command (30_encoding.md R80), CTRL, and MEM accesses with the
hazards of 70_reset_and_hazards.md R295 to R298.
-/

namespace Sys2Proof.Machine

/-- A legal register access: 32 bits, 4-byte aligned, in the 256-byte block (10_state.md R20, R38). -/
def legalRegAccess (width offset : Nat) : Bool := width = 32 && offset % 4 = 0 && offset < 256

/-- Parts 1 and 2 of an acceptance (30_encoding.md R80): latch CMD and ARG, set BUSY, clear DONE and
EOF. -/
def accept (s : State) (w : Word) : State :=
  { s with
    cmdReg := w
    latch := { cmd := w, a0 := s.arg0, a1 := s.arg1, a2 := s.arg2, a3 := s.arg3 }
    status := s.status.accepted }

/-- A write of `w` to CMD (10_state.md R22): dropped with OVR while BUSY (70_reset_and_hazards.md R295),
else an acceptance (30_encoding.md R80). An illegal word completes with ILLEGAL_CMD at once
(60_exceptions.md R258); a command is run, or held until the core's turn (70_reset_and_hazards.md R303). -/
def writeCmd (held : Bool) (w : Word) (s : State) : Host.Outcome State Fault Refusal :=
  if s.status.busy then .next { s with status := { s.status with ovr := true } }
  else match decodeWord w with
    | .error _ => .next (raiseError (accept s w) .illegalCmd)
    | .ok i =>
      if held then .next { accept s w with cont := some (.start i) }
      else exec i (accept s w)

/-- A write of `w` to CTRL (10_state.md R30): SRST is bit 0, CLR_OVR bit 1. -/
def writeCtrl (w : Word) (s : State) : State :=
  if w.getLsbD 0 then softReset s
  else if w.getLsbD 1 then { s with status := { s.status with ovr := false } }
  else s

/-- A legal host write to the register at `offset` (10_state.md R20): CMD, ARG0 to ARG3 and CTRL take
it; every read-only or reserved register ignores it (R37). -/
def hostWriteReg (held : Bool) (offset : Nat) (w : Word) (s : State) : Host.Outcome State Fault Refusal :=
  match offset with
  | 0x00 => writeCmd held w s
  | 0x08 => .next { s with arg0 := w }
  | 0x0C => .next { s with arg1 := w }
  | 0x10 => .next { s with arg2 := w }
  | 0x14 => .next { s with arg3 := w }
  | 0x28 => .next (writeCtrl w s)
  | _ => .next s

/-- SENC_STATE and SDEC_STATE have no specified value while BUSY (70_reset_and_hazards.md R297). -/
def readIsDraw (s : State) (offset : Nat) : Bool := s.status.busy && (offset = 0x34 || offset = 0x38)

/-- A legal host read of the register at `offset`. It changes nothing of the block (10_state.md R38);
the value goes to the host's log. An unspecified value is a draw. -/
def hostReadReg (offset : Nat) (s : State) : State :=
  if readIsDraw s offset then
    { s with hostLog := s.hostLog ++ [.reg offset (Config.unspecifiedWord s.draws)], draws := s.draws + 1 }
  else { s with hostLog := s.hostLog ++ [.reg offset (regValue s offset)] }

/-- The MEM ranges of a command, as (address, length), that the host must not touch while it runs
(70_reset_and_hazards.md R296, with the ranges of 60_exceptions.md R260). A negative bit count names no
destination. -/
def commandRanges (i : Instr) (l : Latch) : List (Nat × Nat) :=
  match i with
  | .lutLoad _ => [(srcAddr l, 32)]
  | .enc _ => [(srcAddr l, lengthArg l), (dstAddr l, ceilDiv (8 * lengthArg l) 5)]
  | .encBits _ => [(srcAddr l, lengthArg l), (dstAddr l, ceilDiv (bitCount l).toNat 5)]
  | .dec _ => [(srcAddr l, lengthArg l), (dstAddr l, outCount (lengthArg l) .aligned)]
  | .decBits _ => [(srcAddr l, lengthArg l), (dstAddr l, outCount (lengthArg l) (.bits (bitCount l).toNat))]
  | .sencWrite => [(srcAddr l, lengthArg l)]
  | .sdecRead => [(dstAddr l, lengthArg l)]
  | .nop => []
  | .symLookup _ => []
  | .dtLookup _ => []
  | .encLen => []
  | .decLen => []
  | .sencOpen _ => []
  | .sencClose => []
  | .sdecOpen _ => []

/-- The byte at `addr` lies in a range of the running command while BUSY (70_reset_and_hazards.md
R296). The running command is the one in the latched copy of CMD. -/
def races (s : State) (addr : Nat) : Bool :=
  s.status.busy && match decodeWord s.latch.cmd with
    | .error _ => false
    | .ok i => (commandRanges i s.latch).any (fun r => r.1 ≤ addr && addr < r.1 + r.2)

/-- A host read of a byte inside MEM (20_memory.md R61, R63; 70_reset_and_hazards.md R293, R296). DESIGN
CHOICE (log entry 22), safe: a byte that both races and is unwritten gives `hostRace`; the spec names both
faults and no order. -/
def hostReadMem (addr : Nat) (s : State) : Host.Outcome State Fault Refusal :=
  if races s addr then .fault (.hostRace addr)
  else match readByte s.mem addr with
    | none => .fault (.unwrittenMem addr)
    | some b => .next { s with hostLog := s.hostLog ++ [.mem addr b] }

/-- A host write of a byte inside MEM (20_memory.md R61; 70_reset_and_hazards.md R293, R296). -/
def hostWriteMem (addr : Nat) (b : Byte) (s : State) : Host.Outcome State Fault Refusal :=
  if races s addr then .fault (.hostRace addr)
  else .next { s with mem := writeByte s.mem addr b }

/-- One bus transaction of the host (00_scope.md R5(1)). An illegal one is refused (10_state.md R38,
20_memory.md R61). -/
def hostStep (held : Bool) (op : HostOp) (s : State) : Host.Outcome State Fault Refusal :=
  match op with
  | .regRead width offset =>
    if legalRegAccess width offset then .next (hostReadReg offset s) else .refused .illegalRegAccess
  | .regWrite width offset w =>
    if legalRegAccess width offset then hostWriteReg held offset w s else .refused .illegalRegAccess
  | .memRead addr =>
    if addr < s.params.memBytes then hostReadMem addr s else .refused .outsideMem
  | .memWrite addr b =>
    if addr < s.params.memBytes then hostWriteMem addr b s else .refused .outsideMem

/-- The core's turn (00_scope.md R5(2)): it takes the step of a command that was accepted and held; with
nothing to start it does nothing (a command waiting on a port has no enabled step,
93_implementation_defined.md U8). -/
def coreStep (s : State) : Host.Outcome State Fault Refusal :=
  match s.cont with
  | some (.start i) => exec i { s with cont := none }
  | some (.sencFringe _ _) => .next s
  | some (.sencGroup _ _ _) => .next s
  | some .sencClose => .next s
  | some .sdecPull => .next s
  | none => .next s

/-- What WAIT reads once it has found BUSY = 0: RES0, RES1, ERR_OFFSET and IO_CODE; STATUS is the last
poll's (30_encoding.md R92; log entry 17). -/
def outcomeReads : List HostMove :=
  [.op (.regRead 32 0x18), .op (.regRead 32 0x1C), .op (.regRead 32 0x20), .op (.regRead 32 0x24)]

/-- One poll of WAIT (30_encoding.md R92), `rest` the program after it: the host reads STATUS, and it polls
again with its next move while BUSY = 1, and else goes on to the outcome. -/
def waitPoll (rest : List HostMove) (s : State) : State :=
  let t := hostReadReg 0x04 s
  if s.status.busy then { t with program := .wait :: rest } else { t with program := outcomeReads ++ rest }

/-- The host makes the next transaction of its program (30_encoding.md R92); with none left it does
nothing. -/
def programStep (held : Bool) (s : State) : Host.Outcome State Fault Refusal :=
  match s.program with
  | [] => .next s
  | .op o :: rest => hostStep held o { s with program := rest }
  | .wait :: rest => .next (waitPoll rest s)

/-- The agent named by the input takes its step (00_scope.md R5, R6). -/
def inputStep (e : Input) (s : State) : Host.Outcome State Fault Refusal :=
  match e with
  | .host op => hostStep false op s
  | .hostHeld op => hostStep true op s
  | .program held => programStep held s
  | .core => coreStep s
  | .sinkAnswer tx a => sinkStep s tx a
  | .sourceAnswer tx a => sourceStep s tx a
  | .powerOn => .next (powerOnReset s)

/-- The host's next transaction is the write of `w` to CMD. -/
def issueWord (w : Word) : Input := .host (.regWrite 32 0x00 w)

end Sys2Proof.Machine
end

