-- ==== Sys2Proof/Machine/Step.lean ====
section
/-!
DEFINITION. One step of the whole block: the next input's agent takes its step. The block has no
program counter (10_state.md R21): the host's sequence of CMD writes in `inputs` is the program.
-/

namespace Sys2Proof.Machine

/-- One step. With no input to come the core takes its turn: it starts a command that was accepted and
held, and otherwise nothing happens, for the block is idle or waits on a port that has not answered and may
never answer (70_reset_and_hazards.md R303; log entry 7). -/
def step (s : State) : Host.Outcome State Fault Refusal :=
  match s.inputs with
  | [] => coreStep s
  | e :: rest => inputStep e { s with inputs := rest }

/-- `s` with the command word `w` where the next step finds it: the host's next transaction is its
write to CMD, and the core is idle, so that the write is an acceptance (log entry 5). -/
def State.withFetchWord (s : State) (nbits w : Nat) : State :=
  { s with
    inputs := issueWord (BitVec.ofNat 32 (w % 2 ^ nbits)) :: s.inputs
    status := { s.status with busy := false }
    cont := none }

end Sys2Proof.Machine
end

