-- ==== Sys2Proof/Machine/HostProgram.lean ====
section
/-!
DEFINITION. The host's assembler lines and pseudo-instructions, and the bus transactions each expands
to (30_encoding.md R91, R92).
-/

namespace Sys2Proof.Machine

/-- A line of a host program (30_encoding.md R91, R92). Operands are in the order of R91. -/
inductive HostLine where
  | nop
  | lutLoad (h src : Nat)
  | symLookup (h index : Nat)
  | dtLookup (h byte : Nat)
  | enc (h src n dst : Nat)
  | encBits (h src n dst : Nat) (bits : Int)
  | encLen (n : Nat)
  | decLen (n : Nat)
  | dec (h src len dst : Nat)
  | decBits (h src len dst : Nat) (bits : Int)
  | sencOpen (h : Nat)
  | sencWrite (src n : Nat)
  | sencClose
  | sdecOpen (h : Nat)
  | sdecRead (dst req : Nat)
  /-- `WAIT`. -/
  | wait
  /-- `MEMSET [a], b0, b1, ...`. -/
  | memset (addr : Nat) (bytes : List Byte)
  /-- `MEMSTR [a], "text"`. -/
  | memstr (addr : Nat) (text : String)
  deriving DecidableEq, Repr

/-- A host write of a 32-bit register. -/
def writeReg (offset : Nat) (w : Word) : HostOp := .regWrite 32 offset w

/-- The writes of the operands a command reads, in the order ARG0 to ARG3 (30_encoding.md R92). -/
def argWrites (args : List (Nat × Word)) : List HostOp := args.map (fun a => writeReg a.1 a.2)

/-- ARG0 <- n. -/
def arg0 (n : Nat) : Nat × Word := (0x08, BitVec.ofNat 32 n)

/-- ARG1 <- n. -/
def arg1 (n : Nat) : Nat × Word := (0x0C, BitVec.ofNat 32 n)

/-- ARG2 <- n. -/
def arg2 (n : Nat) : Nat × Word := (0x10, BitVec.ofNat 32 n)

/-- ARG3 <- the two's-complement word of a bit count (30_encoding.md R91). -/
def arg3 (bits : Int) : Nat × Word := (0x14, BitVec.ofInt 32 bits)

/-- The expansion of a command line: the operand writes, the write of CMD, WAIT (30_encoding.md R92). -/
def commandMoves (i : Instr) (args : List (Nat × Word)) : List HostMove :=
  (argWrites args ++ [writeReg 0x00 (encode i)]).map .op ++ [.wait]

/-- MEMSET's byte writes (30_encoding.md R92). -/
def memsetMoves : Nat → List Byte → List HostMove
  | _, [] => []
  | a, b :: bs => .op (.memWrite a b) :: memsetMoves (a + 1) bs

/-- The ASCII codes of a text (30_encoding.md R92). -/
def asciiBytes (text : String) : List Byte := text.toList.map (fun c => BitVec.ofNat 8 c.toNat)

/-- The transactions of a line (30_encoding.md R92). -/
def HostLine.expand : HostLine → List HostMove
  | .nop => commandMoves .nop []
  | .lutLoad h src => commandMoves (.lutLoad h) [arg0 src]
  | .symLookup h index => commandMoves (.symLookup h) [arg0 index]
  | .dtLookup h byte => commandMoves (.dtLookup h) [arg0 byte]
  | .enc h src n dst => commandMoves (.enc h) [arg0 src, arg1 n, arg2 dst]
  | .encBits h src n dst bits => commandMoves (.encBits h) [arg0 src, arg1 n, arg2 dst, arg3 bits]
  | .encLen n => commandMoves .encLen [arg1 n]
  | .decLen n => commandMoves .decLen [arg1 n]
  | .dec h src len dst => commandMoves (.dec h) [arg0 src, arg1 len, arg2 dst]
  | .decBits h src len dst bits => commandMoves (.decBits h) [arg0 src, arg1 len, arg2 dst, arg3 bits]
  | .sencOpen h => commandMoves (.sencOpen h) []
  | .sencWrite src n => commandMoves .sencWrite [arg0 src, arg1 n]
  | .sencClose => commandMoves .sencClose []
  | .sdecOpen h => commandMoves (.sdecOpen h) []
  | .sdecRead dst req => commandMoves .sdecRead [arg1 req, arg2 dst]
  | .wait => [.wait]
  | .memset a bs => memsetMoves a bs
  | .memstr a text => memsetMoves a (asciiBytes text)

/-- The transactions of a host program, its lines in order (30_encoding.md R92). -/
def programMoves (lines : List HostLine) : List HostMove := lines.flatMap HostLine.expand

/-- `s` with a host program loaded (log entry 5): each `Input.program` makes its next transaction. -/
def State.withProgram (s : State) (lines : List HostLine) : State := { s with program := programMoves lines }

end Sys2Proof.Machine
end

