-- ==== Sys2Proof/Safety.lean ====
section
/-!
DEFINITION. The terms claims are stated in: the two shapes of a completion written out field by field,
what MEM holds, when ranges fit, the invariant of the block, and runs of the two streams.
-/

namespace Sys2Proof.Machine

/-- The state after `complete(r0, r1)` with STATUS.EOF <- eof, field by field (60_exceptions.md R251). -/
def afterOk (s : State) (r0 r1 : Word) (eof : Bool) : State :=
  { s with
    res0 := r0, res1 := r1, errOffset := 0, ioCode := 0
    status := { busy := false, done := true, eof := eof, ovr := s.status.ovr, err := .ok }
    cont := none }

/-- The state after `raise e(offset, code, count)`, field by field (60_exceptions.md R252). -/
def afterError (s : State) (e : ErrCode) (offset : Nat) (code : Word) (count : Nat) : State :=
  { s with
    res0 := BitVec.ofNat 32 count, res1 := 0, errOffset := BitVec.ofNat 32 offset, ioCode := code
    status := { busy := false, done := true, eof := false, ovr := s.status.ovr, err := e }
    cont := none }

/-- The state right after the acceptance of `w`, before the core's step (30_encoding.md R80), written
out field by field. -/
def afterAccept (s : State) (w : Word) : State :=
  { s with
    cmdReg := w
    latch := { cmd := w, a0 := s.arg0, a1 := s.arg1, a2 := s.arg2, a3 := s.arg3 }
    status := { busy := true, done := false, eof := false, ovr := s.status.ovr, err := s.status.err } }

/-- MEM holds the bytes `bs` from address `a` on (20_memory.md R62). -/
def Holds (m : Memory) (a : Nat) (bs : List Byte) : Prop :=
  ∀ k (h : k < bs.length), readByte m (a + k) = some bs[k]

/-- `m'` is `m` with the bytes `bs` from address `a` on, every other byte as in `m`. -/
def StoredAt (m m' : Memory) (a : Nat) (bs : List Byte) : Prop :=
  Holds m' a bs ∧ ∀ x, (x < a ∨ a + bs.length ≤ x) → readByte m' x = readByte m x

/-- A range of n bytes from `a` on lies in MEM, or is empty (20_memory.md R64). -/
def Fits (s : State) (a n : Nat) : Prop := n = 0 ∨ a + n ≤ s.params.memBytes

/-- Two nonempty ranges share a byte (20_memory.md R65). -/
def Meet (a n b m : Nat) : Prop := 0 < n ∧ 0 < m ∧ a < b + m ∧ b < a + n

/-- The source and destination ranges of a command pass its check (20_memory.md R64, R65). -/
def RangesOk (s : State) (src n dst m : Nat) : Prop := Fits s src n ∧ Fits s dst m ∧ ¬ Meet src n dst m

/-- The command waits for the sink's answer. -/
def Cont.waitsSink : Option Cont → Bool
  | some (.sencFringe _ _) => true
  | some (.sencGroup _ _ _) => true
  | some .sencClose => true
  | some .sdecPull => false
  | some (.start _) => false
  | none => false

/-- The command waits for the source's answer. -/
def Cont.waitsSource : Option Cont → Bool
  | some .sdecPull => true
  | some (.sencFringe _ _) => false
  | some (.sencGroup _ _ _) => false
  | some .sencClose => false
  | some (.start _) => false
  | none => false

/-- What the rest of a running command says about the state it waits in (43_stream_encoder.md R192, R198,
44_stream_decoder.md R222): the command it belongs to, the adapter's state, and the bytes accounted for. -/
def Cont.ok (s : State) : Cont → Prop
  | .start i => decodeWord s.latch.cmd = .ok i
  | .sencFringe p t =>
    decodeWord s.latch.cmd = .ok .sencWrite ∧ s.senc.state = .opened ∧ s.senc.buf.length = 5
      ∧ t + p.length = lengthArg s.latch
  | .sencGroup nn p acc =>
    decodeWord s.latch.cmd = .ok .sencWrite ∧ s.senc.state = .opened ∧ s.senc.buf = []
      ∧ 5 ≤ nn ∧ nn % 5 = 0 ∧ nn ≤ s.params.encStageBytes ∧ nn ≤ p.length
      ∧ acc + p.length = lengthArg s.latch
  | .sencClose =>
    decodeWord s.latch.cmd = .ok .sencClose ∧ s.senc.state = .opened ∧ 1 ≤ s.senc.buf.length
      ∧ s.senc.buf.length ≤ 4
  | .sdecPull =>
    decodeWord s.latch.cmd = .ok .sdecRead ∧ s.sdec.isOpen = true ∧ s.sdec.buf = [] ∧ s.sdec.eof = false
      ∧ 0 < lengthArg s.latch ∧ Fits s (dstAddr s.latch) (lengthArg s.latch)

/-- The invariant of the block: what every rule keeps true between steps, whatever the host and the
ports do. -/
structure State.Inv (s : State) : Prop where
  /-- The parameters are a legal choice (00_scope.md R7 to R11). -/
  params_legal : s.params.legal = true
  /-- MEM is in its canonical form. -/
  mem_wf : Memory.wf s.mem = true
  /-- No byte outside MEM is written (20_memory.md R60, R64). -/
  mem_inside : ∀ c ∈ s.mem, c.1 < s.params.memBytes
  /-- CMD reads the latched command (10_state.md R22, R27). -/
  cmd_latched : s.cmdReg = s.latch.cmd
  /-- BUSY is 1 exactly while a command runs (10_state.md R23, R45). -/
  busy_iff : s.status.busy = s.cont.isSome
  /-- While BUSY, DONE and EOF are 0 (10_state.md R23). -/
  busy_flags : s.status.busy = true → s.status.done = false ∧ s.status.eof = false
  /-- The table of a valid slot is the one built from its alphabet (10_state.md R41). -/
  slots_built : ∀ i, (slotAt s i).valid = true → (slotAt s i).dt = buildTable (slotAt s i).alpha
  /-- No slot at or above NUM_SLOTS is valid (10_state.md R31, R42). -/
  slots_absent : ∀ i, s.params.numSlots ≤ i → (slotAt s i).valid = false
  /-- A stream is bound to a usable slot (43_stream_encoder.md R191, R196). -/
  senc_bound : s.senc.state ≠ .idle → usable s s.senc.slot.toNat = true
  /-- nbuf is 0 in IDLE, CLOSED and FAILED (43_stream_encoder.md R195). -/
  senc_empty : s.senc.state ≠ .opened → s.senc.buf = []
  /-- Between commands nbuf is at most 4 (43_stream_encoder.md R195), and so while a command waits,
  unless it waits with the topped-up fringe. -/
  senc_fringe : (∀ p t, s.cont ≠ some (.sencFringe p t)) → s.senc.buf.length ≤ 4
  /-- An open decoder is bound to a usable slot (44_stream_decoder.md R221). -/
  sdec_bound : s.sdec.isOpen = true → usable s s.sdec.slot.toNat = true
  /-- A decoder that was never opened holds nothing (10_state.md R44). -/
  sdec_closed : s.sdec.isOpen = false → s.sdec.buf = [] ∧ s.sdec.eof = false
  /-- The buffer is within its capacity (10_state.md R44). -/
  sdec_capacity : s.sdec.buf.length ≤ decodedLen s.params.decChunk
  /-- A running command and the state it waits in agree. -/
  cont_ok : ∀ c, s.cont = some c → c.ok s
  /-- Exactly the transaction a command waits on has no answer, and it is the last of SINKLOG. -/
  sink_pending : ∀ (k : Nat) (e : SinkTx), s.sinkLog[k]? = some e →
    (e.reply = .pending ↔ Cont.waitsSink s.cont = true ∧ k + 1 = s.sinkLog.length)
  /-- A command that waits for the sink has made a transaction. -/
  sink_waits : Cont.waitsSink s.cont = true → s.sinkLog ≠ []
  /-- Exactly the pull a command waits on has no answer, and it is the last of SRCLOG. -/
  source_pending : ∀ (k : Nat) (e : SourceTx), s.srcLog[k]? = some e →
    (e.reply = .pending ↔ Cont.waitsSource s.cont = true ∧ k + 1 = s.srcLog.length)
  /-- A command that waits for the source has made a pull. -/
  source_waits : Cont.waitsSource s.cont = true → s.srcLog ≠ []
  /-- Every pull asked for DEC_CHUNK symbols (44_stream_decoder.md R223). -/
  source_max : ∀ e ∈ s.srcLog, e.max = s.params.decChunk

/-- The host makes the bus transaction `op`; `held` tells whether, if it is an acceptance, the core's step is
left for later. -/
def hostInput (held : Bool) (op : HostOp) : Input := if held then .hostHeld op else .host op

/-- The bus transaction that the next step of `s` makes, if the host moves: of the input itself, or of the
host's program, whose WAIT reads STATUS. -/
def State.nextOp (s : State) : Option HostOp :=
  match s.inputs with
  | .host op :: _ => some op
  | .hostHeld op :: _ => some op
  | .program _ :: _ =>
    match s.program with
    | .op op :: _ => some op
    | .wait :: _ => some (.regRead 32 0x04)
    | [] => none
  | .core :: _ | .sinkAnswer _ _ :: _ | .sourceAnswer _ _ :: _ | .powerOn :: _ | [] => none

/-- The next step of `s` is a power-on reset. -/
def State.powersOn (s : State) : Bool := s.inputs.head? = some .powerOn

/-- The next step of `s` is a reset: power-on, or a write of CTRL with SRST (70_reset_and_hazards.md R290,
R291). -/
def State.resets (s : State) : Bool :=
  s.powersOn || match s.nextOp with
    | some (.regWrite width offset w) => width = 32 && offset = 0x28 && w.getLsbD 0
    | some (.regRead _ _) | some (.memRead _) | some (.memWrite _ _) | none => false

/-- The next step of `s` is a turn of the core: its input says so, or there is none to come. -/
def State.coreTurn (s : State) : Bool := s.inputs.isEmpty || s.inputs.head? = some .core

/-- The next step of `s` makes the core run or accept the command `i`: the host writes its word to CMD, or
the core takes its turn while `s` holds the command (30_encoding.md R80). -/
def State.runs (s : State) (i : Instr) : Prop :=
  (∃ w, s.nextOp = some (.regWrite 32 0x00 w) ∧ decodeWord w = .ok i)
    ∨ (s.coreTurn = true ∧ s.cont = some (.start i))

/-- The next step of `s` is the answer to the transaction that `s` waits on. -/
def State.answersPending (s : State) : Bool :=
  match s.inputs with
  | .sinkAnswer tx _ :: _ => Cont.waitsSink s.cont && tx + 1 = s.sinkLog.length
  | .sourceAnswer tx _ :: _ => Cont.waitsSource s.cont && tx + 1 = s.srcLog.length
  | .host _ :: _ | .hostHeld _ :: _ | .program _ :: _ | .core :: _ | .powerOn :: _ | [] => false

/-- The text the sink accepted in a piece of SINKLOG: the symbols of the entries answered OK
(20_memory.md R77). -/
def okText (log : List SinkTx) : List Byte :=
  log.flatMap (fun e => if e.reply = .answered .ok then e.syms else [])

/-- `t` is reached from `s` when the sink answers OK to every transaction until the command has ended. -/
inductive SinkOk : State → State → Prop where
  | ended (s : State) : s.cont = none → SinkOk s s
  | answer (s s' t : State) : s.cont ≠ none → sinkStep s (s.sinkLog.length - 1) .ok = .next s' →
      SinkOk s' t → SinkOk s t

/-- `s0` is a state in which a later command may find the encoder that `s` left: the same stream with the
same bound slot, parameters and SINKLOG, and no command running. MEM, the registers and the other slots may
have changed. -/
def SameStream (s s0 : State) : Prop :=
  s0.senc = s.senc ∧ s0.sinkLog = s.sinkLog ∧ s0.params = s.params
    ∧ slotAt s0 s.senc.slot.toNat = slotAt s s.senc.slot.toNat ∧ s0.cont = none

/-- `t` is reached from `s` by SENC_WRITE commands of the byte sequences `cs` in order, every sink answer
OK (43_stream_encoder.md R201). -/
inductive WritesOk (s : State) : List (List Byte) → State → Prop where
  | none : WritesOk s [] s
  | write (cs : List (List Byte)) (c : List Byte) (t t0 t1 t' : State) :
      WritesOk s cs t → SameStream t t0 → lengthArg t0.latch = c.length →
      Fits t0 (srcAddr t0.latch) c.length → Holds t0.mem (srcAddr t0.latch) c →
      exec .sencWrite t0 = .next t1 → SinkOk t1 t' → WritesOk s (cs ++ [c]) t'

/-- `s0` is a state in which a later SDEC_READ may find the decoder that `s` left: the same decoder with the
same bound slot, parameters and SRCLOG, and no command running. -/
def SameDecoder (s s0 : State) : Prop :=
  s0.sdec = s.sdec ∧ s0.srcLog = s.srcLog ∧ s0.params = s.params
    ∧ slotAt s0 s.sdec.slot.toNat = slotAt s s.sdec.slot.toNat ∧ s0.cont = none

/-- `t` is reached from `s` by SDEC_READ commands of at least one byte each that complete OK, the source
giving the answers `as` in order, one to each pull; `out` are the delivered bytes in order
(44_stream_decoder.md R230). -/
inductive ReadsOk (s : State) : List SourceAnswer → List Byte → State → Prop where
  | none : ReadsOk s [] [] s
  | served (as : List SourceAnswer) (out d : List Byte) (t t0 t' : State) :
      ReadsOk s as out t → SameDecoder t t0 → 0 < lengthArg t0.latch →
      exec .sdecRead t0 = .next t' → t'.cont = none → t'.status.err = .ok →
      d.length = t'.res0.toNat → Holds t'.mem (dstAddr t0.latch) d → ReadsOk s as (out ++ d) t'
  | pulled (as : List SourceAnswer) (a : SourceAnswer) (out d : List Byte) (t t0 t1 t' : State) :
      ReadsOk s as out t → SameDecoder t t0 → 0 < lengthArg t0.latch →
      exec .sdecRead t0 = .next t1 → t1.cont = some .sdecPull →
      sourceStep t1 (t1.srcLog.length - 1) a = .next t' → t'.status.err = .ok →
      d.length = t'.res0.toNat → Holds t'.mem (dstAddr t0.latch) d → ReadsOk s (as ++ [a]) (out ++ d) t'

end Sys2Proof.Machine
end

