-- ==== Sys2Proof/Certificates/Slice0/Obligations.lean ====
section
/-!
DEFINITION. The statements for the provers. Each docstring names the rules of spec/ it formalises.
-/

open Sys2Proof Sys2Proof.Machine

/-! ## The command word -/

/-- 30_encoding.md R85, R92: no bit of a well-formed command is lost between the encoder and the decoder. -/
def Obligations.DecodeEncodeRoundTrip : Prop :=
  ∀ i : Instr, i.wellFormed = true → decodeWord (encode i) = .ok i

/-- 30_encoding.md R85: at most one row matches any word; so a word spells at most one command, and that command
spells the word. -/
def Obligations.EncodeDecodeRoundTrip : Prop :=
  (∀ w : Word, (opcodeMap.filter (OpRow.selects w)).length ≤ 1) ∧
  ∀ (w : Word) (i : Instr), decodeWord w = .ok i → i.wellFormed = true ∧ encode i = w

/-- 30_encoding.md R88, with the fifteen rows of R85 written out as mask and match: Decode is total, a matched
row gives its command with HSEL = w[10:8], and a word that no row matches is Illegal. -/
def Obligations.DecodeFollowsOpcodeTable : Prop :=
  ∀ w : Word,
    let h := (w >>> 8 &&& 7).toNat
    let full := w &&& 0xFFFFFFFF
    let op := w &&& 0xFFFFF8FF
    (full = 0x00 → decodeWord w = .ok .nop) ∧
    (op = 0x01 → decodeWord w = .ok (.lutLoad h)) ∧
    (op = 0x02 → decodeWord w = .ok (.symLookup h)) ∧
    (op = 0x03 → decodeWord w = .ok (.dtLookup h)) ∧
    (op = 0x10 → decodeWord w = .ok (.enc h)) ∧
    (op = 0x11 → decodeWord w = .ok (.encBits h)) ∧
    (full = 0x12 → decodeWord w = .ok .encLen) ∧
    (full = 0x13 → decodeWord w = .ok .decLen) ∧
    (op = 0x20 → decodeWord w = .ok (.dec h)) ∧
    (op = 0x21 → decodeWord w = .ok (.decBits h)) ∧
    (op = 0x30 → decodeWord w = .ok (.sencOpen h)) ∧
    (full = 0x31 → decodeWord w = .ok .sencWrite) ∧
    (full = 0x32 → decodeWord w = .ok .sencClose) ∧
    (op = 0x40 → decodeWord w = .ok (.sdecOpen h)) ∧
    (full = 0x41 → decodeWord w = .ok .sdecRead) ∧
    ((full ∉ ([0x00, 0x12, 0x13, 0x31, 0x32, 0x41] : List Word)
        ∧ op ∉ ([0x01, 0x02, 0x03, 0x10, 0x11, 0x20, 0x21, 0x30, 0x40] : List Word)) →
      ∃ why, decodeWord w = .error why)

/-- 30_encoding.md R84: when a word is an illegal command, and that writing it to CMD changes nothing but what
an acceptance and an ILLEGAL_CMD completion write; it completes with its acceptance also where the core's step
of a command is left for later. -/
def Obligations.IllegalWordsOnlyComplete : Prop :=
  (∀ w : Word, (∃ why, decodeWord w = .error why) ↔
    (w >>> 11 ≠ 0
      ∨ (w &&& 0xFF) ∉ ([0x00, 0x01, 0x02, 0x03, 0x10, 0x11, 0x12, 0x13, 0x20, 0x21, 0x30, 0x31, 0x32,
          0x40, 0x41] : List Word)
      ∨ ((w &&& 0xFF) ∈ ([0x00, 0x12, 0x13, 0x31, 0x32, 0x41] : List Word) ∧ w >>> 8 &&& 7 ≠ 0))) ∧
  ∀ (s : State) (held : Bool) (rest : List Input) (w : Word) (why : IllegalWord),
    s.status.busy = false → decodeWord w = .error why →
    step { s with inputs := hostInput held (.regWrite 32 0x00 w) :: rest }
      = .next (afterError (afterAccept { s with inputs := rest } w) .illegalCmd 0 0 0)

/-- 30_encoding.md R85, R92: words written out from the table's encoding column, with a handle bit or two. -/
def Obligations.SampleWordsDecode : Prop :=
  decodeWord 0x00000000 = .ok .nop ∧ decodeWord 0x00000201 = .ok (.lutLoad 2) ∧
  decodeWord 0x00000502 = .ok (.symLookup 5) ∧ decodeWord 0x00000111 = .ok (.encBits 1) ∧
  decodeWord 0x00000720 = .ok (.dec 7) ∧ decodeWord 0x00000130 = .ok (.sencOpen 1) ∧
  decodeWord 0x00000041 = .ok .sdecRead

/-! ## Acceptance and the step -/

/-- 30_encoding.md R80: the step that writes a command's word to CMD while BUSY = 0 latches CMD and ARG, sets
BUSY, clears DONE and EOF, and performs the command's rule. -/
def Obligations.StepRunsDecodedCommand : Prop :=
  ∀ (s : State) (rest : List Input) (w : Word) (i : Instr),
    s.status.busy = false → decodeWord w = .ok i →
    step { s with inputs := .host (.regWrite 32 0x00 w) :: rest }
      = exec i (afterAccept { s with inputs := rest } w)

/-- 30_encoding.md R80, 70_reset_and_hazards.md R303, and the model's choice of log entries 7 and 8 (R303 leaves
open which step of the core starts the command): when the core's step follows the acceptance as a step of its
own, the accepted command waits in cont, and the core's turn then performs the same rule on the same state; the
core takes that turn by itself when no input is to come. -/
def Obligations.HeldCommandRunsOnCoreTurn : Prop :=
  ∀ (s : State) (rest rest' : List Input) (w : Word) (i : Instr),
    s.status.busy = false → s.cont = none → decodeWord w = .ok i →
    step { s with inputs := .hostHeld (.regWrite 32 0x00 w) :: rest }
        = .next { afterAccept { s with inputs := rest } w with cont := some (.start i) } ∧
    step { afterAccept s w with cont := some (.start i), inputs := .core :: rest' }
        = exec i { afterAccept s w with inputs := rest' } ∧
    step { afterAccept s w with cont := some (.start i), inputs := [] }
        = exec i { afterAccept s w with inputs := [] }

/-- 70_reset_and_hazards.md R295: a CMD write while BUSY = 1 changes nothing but OVR, and OVR then stays 1
through every step but a CTRL write with CLR_OVR or SRST and a power-on reset. -/
def Obligations.DroppedCmdSetsOvr : Prop :=
  (∀ (s : State) (held : Bool) (rest : List Input) (w : Word), s.status.busy = true →
    step { s with inputs := hostInput held (.regWrite 32 0x00 w) :: rest }
      = .next { s with inputs := rest, status := { s.status with ovr := true } }) ∧
  ∀ s t : State, s.status.ovr = true → step s = .next t → s.resets = false →
    (∀ w : Word, s.nextOp = some (.regWrite 32 0x28 w) → w.getLsbD 1 = false) → t.status.ovr = true

/-- 43_stream_encoder.md R200, 44_stream_decoder.md R229, 70_reset_and_hazards.md R303: a command that waits on
a port stays where it is, BUSY and with the same latched operands, through every step but the answer to its
pending transaction, a soft reset and a power-on reset. 10_state.md R26, R28, R29, 70_reset_and_hazards.md R297:
RES0, RES1, ERR_OFFSET, IO_CODE and STATUS.ERR do not change between completions: by no step of that wait, by no
step that leaves a command running (an acceptance, a held command that comes to a port, an answer after which
the command still waits among them), and by no step of an idle block but a write of CMD and a reset. -/
def Obligations.PortWaitEndsOnlyByAnswerOrReset : Prop :=
  let kept := fun (s t : State) => t.res0 = s.res0 ∧ t.res1 = s.res1 ∧ t.errOffset = s.errOffset ∧
    t.ioCode = s.ioCode ∧ t.status.err = s.status.err
  (∀ s t : State, s.Inv → (Cont.waitsSink s.cont = true ∨ Cont.waitsSource s.cont = true) →
    step s = .next t → s.resets = false → s.answersPending = false →
    t.cont = s.cont ∧ t.status.busy = true ∧ t.latch = s.latch ∧ t.senc = s.senc ∧ t.sdec = s.sdec ∧
      t.sinkLog = s.sinkLog ∧ t.srcLog = s.srcLog ∧ kept s t) ∧
  (∀ s t : State, step s = .next t → t.status.busy = true → kept s t) ∧
  ∀ s t : State, s.Inv → s.status.busy = false → step s = .next t → s.resets = false →
    (∀ w : Word, s.nextOp ≠ some (.regWrite 32 0x00 w)) →
    t.status = { s.status with ovr := t.status.ovr } ∧ kept s t

/-! ## Reset -/

/-- 70_reset_and_hazards.md R290: the power-on values, for every legal choice of the parameters, and the values
of the registers that show the default ones (95_test_vectors.md P6). -/
def Obligations.PowerOnValues : Prop :=
  (regValue State.reset 0x3C = 0x00010000 ∧ regValue State.reset 0x40 = 0x02800400 ∧
    regValue State.reset 0x44 = 0x00000004) ∧
  ∀ (p : Params) (s : State) (rest : List Input), p.legal = true → s.params = p →
    ∃ t, step { s with inputs := .powerOn :: rest } = .next t ∧ t.params = p ∧
      t.cmdReg = 0 ∧ regValue t 0x04 = 0 ∧ t.arg0 = 0 ∧ t.arg1 = 0 ∧ t.arg2 = 0 ∧ t.arg3 = 0 ∧
      t.res0 = 0 ∧ t.res1 = 0 ∧ t.errOffset = 0 ∧ t.ioCode = 0 ∧
      regValue t 0x28 = 0 ∧ regValue t 0x2C = 0x5A523332 ∧ regValue t 0x30 = 3 ∧
      regValue t 0x34 = 0 ∧ regValue t 0x38 = 0 ∧
      (regValue t 0x3C).toNat = p.memBytes ∧ (regValue t 0x40 &&& 0xFFFF).toNat = p.decChunk ∧
      (regValue t 0x40 >>> 16).toNat = p.encStageBytes ∧ (regValue t 0x44).toNat = p.numSlots ∧
      (slotAt t 0).alpha = standardAlphabet p ∧ (slotAt t 1).alpha = lowerAlphabet p ∧
      (slotAt t 0).dt = buildTable (slotAt t 0).alpha ∧ (slotAt t 1).dt = buildTable (slotAt t 1).alpha ∧
      t.latch = { cmd := 0, a0 := 0, a1 := 0, a2 := 0, a3 := 0 } ∧ t.cont = none ∧
      (slotAt t 0).valid = true ∧ (slotAt t 1).valid = true ∧ (∀ i, 2 ≤ i → (slotAt t i).valid = false) ∧
      t.senc = { state := .idle, slot := 0, buf := [], err := 0 } ∧
      t.sdec = { isOpen := false, slot := 0, buf := [], eof := false } ∧
      (∀ a, readByte t.mem a = none) ∧ t.sinkLog = [] ∧ t.srcLog = []

/-- The invariant holds after power-on reset with any legal parameters, the defaults among them. -/
def Obligations.PowerOnHasInvariant : Prop :=
  (∀ p : Params, p.legal = true → (State.powerOn p).Inv) ∧ State.reset.Inv

/-- Every step keeps the invariant of Safety.lean, from every state that has it, whatever the host and the ports
do. -/
def Obligations.StepKeepsInvariant : Prop :=
  ∀ s t : State, s.Inv → step s = .next t → t.Inv

/-- 10_state.md R30, 70_reset_and_hazards.md R291, R292: a CTRL write, with or without BUSY. With SRST it gives
every piece of state its power-on value, but MEM, the logs and the constants stay, and a transaction without an
answer is ABANDONED. With CLR_OVR alone it clears OVR and nothing else; with neither it changes nothing. CTRL
reads 0. The model's choices in it: the power-on value of the tables of the loadable slots is zeros (log entry
2; the spec leaves it unspecified), and the model's own fields stay (log entry 4: draws; 5: inputs and program;
6: hostLog). -/
def Obligations.CtrlWriteEffect : Prop :=
  ∀ (s : State) (held : Bool) (rest : List Input) (w : Word),
    regValue s 0x28 = 0 ∧
    (w.getLsbD 0 = true → ∃ t, step { s with inputs := hostInput held (.regWrite 32 0x28 w) :: rest } = .next t ∧
      t = { State.powerOn s.params with
            mem := s.mem, inputs := rest, program := s.program, hostLog := s.hostLog, draws := s.draws
            sinkLog := t.sinkLog, srcLog := t.srcLog } ∧
      t.sinkLog.map SinkTx.syms = s.sinkLog.map SinkTx.syms ∧
      t.srcLog.map SourceTx.max = s.srcLog.map SourceTx.max ∧
      (∀ (k : Nat) (e e' : SinkTx), s.sinkLog[k]? = some e → t.sinkLog[k]? = some e' →
        e'.reply = if e.reply = .pending then .abandoned else e.reply) ∧
      (∀ (k : Nat) (e e' : SourceTx), s.srcLog[k]? = some e → t.srcLog[k]? = some e' →
        e'.reply = if e.reply = .pending then .abandoned else e.reply)) ∧
    (w.getLsbD 0 = false → w.getLsbD 1 = true →
      step { s with inputs := hostInput held (.regWrite 32 0x28 w) :: rest }
        = .next { s with inputs := rest, status := { s.status with ovr := false } }) ∧
    (w.getLsbD 0 = false → w.getLsbD 1 = false →
      step { s with inputs := hostInput held (.regWrite 32 0x28 w) :: rest } = .next { s with inputs := rest })

/-! ## The register block -/

/-- 10_state.md R23, R24: every bit of STATUS, with the code numbers 0 to 8. -/
def Obligations.StatusWordLayout : Prop :=
  ∀ s : State,
    let w := regValue s 0x04
    w.getLsbD 0 = s.status.busy ∧ w.getLsbD 1 = s.status.done ∧ w.getLsbD 2 = s.status.eof ∧
    w.getLsbD 3 = s.status.ovr ∧ (∀ k, 4 ≤ k → k < 8 → w.getLsbD k = false) ∧
    (∀ k, 12 ≤ k → w.getLsbD k = false) ∧
    (w >>> 8 &&& 15).toNat = (match s.status.err with
      | .ok => 0 | .corruptInput => 1 | .invalidArg => 2 | .ioError => 3 | .illegalCmd => 4
      | .badHandle => 5 | .addrRange => 6 | .bitRange => 7 | .streamState => 8)

/-- 10_state.md R31: SLOT_VALID. -/
def Obligations.SlotValidMirrorsValidBits : Prop :=
  (∀ (s : State) (k : Nat), s.params.numSlots ≤ 8 →
    (regValue s 0x30).getLsbD k = (decide (k < s.params.numSlots) && (slotAt s k).valid)) ∧
  ∀ p : Params, p.legal = true → regValue (State.powerOn p) 0x30 = 0x00000003

/-- 10_state.md R32, R36: the fields of SENC_STATE and SDEC_STATE, while their counts fit (every state with the
invariant). -/
def Obligations.StreamMirrorFields : Prop :=
  ∀ s : State, s.senc.buf.length < 8 → s.sdec.buf.length < 65536 →
    let e := regValue s 0x34
    let d := regValue s 0x38
    (e &&& 7).toNat = s.senc.buf.length ∧
    (e >>> 4 &&& 3).toNat = (match s.senc.state with | .idle => 0 | .opened => 1 | .closed => 2 | .failed => 3) ∧
    (e >>> 8 &&& 7).toNat = s.senc.slot.toNat ∧ e &&& 0xFFFFF8C8 = 0 ∧
    (d &&& 0xFFFF).toNat = s.sdec.buf.length ∧ d.getLsbD 16 = s.sdec.eof ∧ d.getLsbD 17 = s.sdec.isOpen ∧
    (d >>> 24 &&& 7).toNat = s.sdec.slot.toNat ∧ d &&& 0xF8FC0000 = 0

/-- 10_state.md R33, R34, R35: ID and the PARAM registers, for legal parameters; they are constant: no step
changes one. -/
def Obligations.ConstantRegisters : Prop :=
  (∀ s t : State, step s = .next t → ∀ offset ∈ ([0x2C, 0x3C, 0x40, 0x44] : List Nat),
    regValue t offset = regValue s offset) ∧
  ∀ s : State, s.params.legal = true →
    regValue s 0x2C = 0x5A523332 ∧ (regValue s 0x3C).toNat = s.params.memBytes ∧
    (regValue s 0x40 &&& 0xFFFF).toNat = s.params.decChunk ∧
    (regValue s 0x40 >>> 16).toNat = s.params.encStageBytes ∧
    (regValue s 0x44).toNat = s.params.numSlots

/-- 10_state.md R25, R37, 70_reset_and_hazards.md R298: reserved offsets read 0 and ignore writes, read-only
registers ignore writes, and the host writes ARG0 to ARG3 at any time, BUSY or not: such a write changes that
register only, the latched copies not. -/
def Obligations.RegisterWrites : Prop :=
  (∀ (s : State) (offset : Nat), 0x48 ≤ offset → offset ≤ 0xFC → regValue s offset = 0) ∧
  (∀ (s : State) (held : Bool) (rest : List Input) (offset : Nat) (w : Word),
    (offset ∈ ([0x04, 0x18, 0x1C, 0x20, 0x24, 0x2C, 0x30, 0x34, 0x38, 0x3C, 0x40, 0x44] : List Nat)
      ∨ (0x48 ≤ offset ∧ offset ≤ 0xFC ∧ offset % 4 = 0)) →
    step { s with inputs := hostInput held (.regWrite 32 offset w) :: rest } = .next { s with inputs := rest }) ∧
  ∀ (s : State) (held : Bool) (rest : List Input) (w : Word),
    let write := fun (offset : Nat) => step { s with inputs := hostInput held (.regWrite 32 offset w) :: rest }
    write 0x08 = .next { s with inputs := rest, arg0 := w } ∧
    write 0x0C = .next { s with inputs := rest, arg1 := w } ∧
    write 0x10 = .next { s with inputs := rest, arg2 := w } ∧
    write 0x14 = .next { s with inputs := rest, arg3 := w }

/-- 10_state.md R20, R22, R25, R26, R28, R29: CMD, ARG0 to ARG3, RES0, RES1, ERR_OFFSET and IO_CODE read at
their offsets what they hold (the other offsets have statements of their own). R38: only 32-bit accesses at
4-byte-aligned offsets of the block; others are refused; a legal read gives the register's value to the host and
has no side effect. The value of SENC_STATE and SDEC_STATE while BUSY is the free value (70_reset_and_hazards.md
R297): whatever it is, the read changes nothing of the block. The model's choices in it: an offset of 256 or
more is refused as R38's illegal accesses are (log entry 13), and the host's log and the count of draws are the
model's own (log entries 6 and 4). -/
def Obligations.RegisterAccesses : Prop :=
  (∀ s : State, regValue s 0x00 = s.cmdReg ∧ regValue s 0x08 = s.arg0 ∧ regValue s 0x0C = s.arg1 ∧
    regValue s 0x10 = s.arg2 ∧ regValue s 0x14 = s.arg3 ∧ regValue s 0x18 = s.res0 ∧ regValue s 0x1C = s.res1 ∧
    regValue s 0x20 = s.errOffset ∧ regValue s 0x24 = s.ioCode) ∧
  (∀ (s : State) (held : Bool) (rest : List Input) (width offset : Nat) (w : Word),
    (width ≠ 32 ∨ offset % 4 ≠ 0 ∨ 256 ≤ offset) →
    step { s with inputs := hostInput held (.regRead width offset) :: rest } = .refused .illegalRegAccess ∧
    step { s with inputs := hostInput held (.regWrite width offset w) :: rest } = .refused .illegalRegAccess) ∧
  ∀ (s : State) (held : Bool) (rest : List Input) (offset : Nat), offset % 4 = 0 → offset < 256 →
    ∃ v d, step { s with inputs := hostInput held (.regRead 32 offset) :: rest }
        = .next { s with inputs := rest, hostLog := s.hostLog ++ [.reg offset v], draws := d } ∧
      ((s.status.busy = false ∨ (offset ≠ 0x34 ∧ offset ≠ 0x38)) → v = regValue s offset)

/-! ## MEM -/

/-- 20_memory.md R61, R68: with no command running, a host byte write to MEM changes that byte and nothing else,
a read returns the byte last written, and an access outside MEM is refused. -/
def Obligations.HostMemAccesses : Prop :=
  ∀ (s : State) (held : Bool) (rest : List Input) (a : Nat) (b : Byte), s.status.busy = false →
    (a < s.params.memBytes →
      ∃ m, step { s with inputs := hostInput held (.memWrite a b) :: rest } = .next { s with inputs := rest, mem := m } ∧
        readByte m a = some b ∧ (∀ x, x ≠ a → readByte m x = readByte s.mem x) ∧
        step { s with mem := m, inputs := hostInput held (.memRead a) :: rest }
          = .next { s with mem := m, inputs := rest, hostLog := s.hostLog ++ [.mem a b] }) ∧
    (s.params.memBytes ≤ a →
      step { s with inputs := hostInput held (.memWrite a b) :: rest } = .refused .outsideMem ∧
      step { s with inputs := hostInput held (.memRead a) :: rest } = .refused .outsideMem)

/-- 70_reset_and_hazards.md R293: a host read of an unwritten byte is a fault, with a command running or not (in
the running command's ranges it is the fault HostRace, HostRaceFaults); a written byte stays written through
every step but power-on reset, after which every byte is unwritten; soft reset does not change MEM. -/
def Obligations.WrittenBytesStayWritten : Prop :=
  (∀ (s : State) (held : Bool) (rest : List Input) (a : Nat), races s a = false → a < s.params.memBytes →
    readByte s.mem a = none →
    step { s with inputs := hostInput held (.memRead a) :: rest } = .fault (.unwrittenMem a)) ∧
  (∀ (s t : State) (a : Nat), step s = .next t →
    (s.powersOn = false → (readByte s.mem a).isSome = true → (readByte t.mem a).isSome = true) ∧
    (s.powersOn = true → readByte t.mem a = none)) ∧
  (∀ (s : State) (a : Nat), s.status.busy = false → races s a = false) ∧
  ∀ (s t : State) (held : Bool) (rest : List Input) (w : Word), w.getLsbD 0 = true →
    step { s with inputs := hostInput held (.regWrite 32 0x28 w) :: rest } = .next t → t.mem = s.mem

/-- 20_memory.md R63, 70_reset_and_hazards.md R293: a command that reads a byte nothing has written faults, and
a command faults on nothing else. LUT_LOAD reads its 32 bytes, ENC and SENC_WRITE all n, ENC_BITS the first
ceil(bc/8), DEC and DEC_BITS their symbols up to the first that is not in the alphabet. -/
def Obligations.UnwrittenSourceFaults : Prop :=
  (∀ (s : State) (i : Instr) (f : Fault), exec i s = .fault f →
    let src := s.latch.a0.toNat
    let n := s.latch.a1.toNat
    ∃ x, f = .unwrittenMem x ∧ readByte s.mem x = none ∧ src ≤ x ∧
      match i with
      | .lutLoad _ => x < src + 32
      | .enc _ | .sencWrite => x < src + n
      | .encBits _ => x < src + (s.latch.a3.toInt.toNat + 7) / 8
      | .dec h | .decBits h => x < src + n ∧
        ∀ k, src ≤ k → k < x → ∃ b : Byte, readByte s.mem k = some b ∧ entryAt (slotAt s h).dt b ≠ 0xFF
      | .nop | .symLookup _ | .dtLookup _ | .encLen | .decLen | .sencOpen _ | .sencClose | .sdecOpen _
      | .sdecRead => False) ∧
  ∀ (s : State) (h x : Nat), readByte s.mem x = none → s.latch.a0.toNat ≤ x →
    let src := s.latch.a0.toNat
    let n := s.latch.a1.toNat
    let bc := s.latch.a3.toInt
    let dst := s.latch.a2.toNat
    (h < s.params.numSlots → 2 ≤ h → (slotAt s h).valid = false → Fits s src 32 → x < src + 32 →
      ∃ f, exec (.lutLoad h) s = .fault f) ∧
    (usable s h = true → RangesOk s src n dst ((8 * n + 4) / 5) → x < src + n →
      ∃ f, exec (.enc h) s = .fault f) ∧
    (usable s h = true → 0 ≤ bc → bc ≤ 8 * (n : Int) → RangesOk s src n dst ((bc.toNat + 4) / 5) →
      x < src + (bc.toNat + 7) / 8 → ∃ f, exec (.encBits h) s = .fault f) ∧
    (s.senc.state = .opened → Fits s src n → x < src + n → ∃ f, exec .sencWrite s = .fault f) ∧
    ((∀ k, src ≤ k → k < x → ∃ b : Byte, readByte s.mem k = some b ∧ entryAt (slotAt s h).dt b ≠ 0xFF) →
      usable s h = true → x < src + n →
      (RangesOk s src n dst (outCount n .aligned) → exec (.dec h) s = .fault (.unwrittenMem x)) ∧
      (0 ≤ bc → RangesOk s src n dst (outCount n (.bits bc.toNat)) →
        exec (.decBits h) s = .fault (.unwrittenMem x)))

/-- 70_reset_and_hazards.md R296, with the lengths of 60_exceptions.md R260: while BUSY, a host access to a byte
of the running command's ranges is the fault HostRace, and an access anywhere else in MEM takes effect at once
(a read of an unwritten byte there is the fault UnwrittenMem, R293). The model's choices in it: the ranges are
those of the latched operands whether or not the command's checks would pass, and a negative bit count names no
destination byte (log entry 12); a read of a racing byte that is also unwritten is HostRace (log entry 22). -/
def Obligations.HostRaceFaults : Prop :=
  ∀ (s : State) (held : Bool) (rest : List Input) (i : Instr) (a : Nat) (b : Byte),
    s.status.busy = true → decodeWord s.latch.cmd = .ok i → a < s.params.memBytes →
    let l := s.latch
    let inside := fun (lo n : Nat) => lo ≤ a ∧ a < lo + n
    let racing := match i with
      | .lutLoad _ => inside l.a0.toNat 32
      | .enc _ => inside l.a0.toNat l.a1.toNat ∨ inside l.a2.toNat ((8 * l.a1.toNat + 4) / 5)
      | .encBits _ => inside l.a0.toNat l.a1.toNat ∨ inside l.a2.toNat ((l.a3.toInt.toNat + 4) / 5)
      | .dec _ => inside l.a0.toNat l.a1.toNat ∨ inside l.a2.toNat (outCount l.a1.toNat .aligned)
      | .decBits _ =>
        inside l.a0.toNat l.a1.toNat ∨ inside l.a2.toNat (outCount l.a1.toNat (.bits l.a3.toInt.toNat))
      | .sencWrite => inside l.a0.toNat l.a1.toNat
      | .sdecRead => inside l.a2.toNat l.a1.toNat
      | .nop | .symLookup _ | .dtLookup _ | .encLen | .decLen | .sencOpen _ | .sencClose | .sdecOpen _ => False
    (racing → step { s with inputs := hostInput held (.memRead a) :: rest } = .fault (.hostRace a) ∧
      step { s with inputs := hostInput held (.memWrite a b) :: rest } = .fault (.hostRace a)) ∧
    (¬ racing → ∃ m, step { s with inputs := hostInput held (.memWrite a b) :: rest }
        = .next { s with inputs := rest, mem := m } ∧
      readByte m a = some b ∧ (∀ x, x ≠ a → readByte m x = readByte s.mem x) ∧
      (readByte s.mem a = none →
        step { s with inputs := hostInput held (.memRead a) :: rest } = .fault (.unwrittenMem a)) ∧
      ∀ v, readByte s.mem a = some v → step { s with inputs := hostInput held (.memRead a) :: rest }
        = .next { s with inputs := rest, hostLog := s.hostLog ++ [.mem a v] })

/-! ## The tables -/

/-- 40_alphabet_lut.md R102: the entry of a byte that no symbol equals is the sentinel 0xFF, and the entry of a
symbol is the last index at which it stands. -/
def Obligations.BuildTableEntries : Prop :=
  ∀ (sym : Vector Byte 32) (b : Byte),
    ((∀ i (h : i < 32), sym[i] ≠ b) → entryAt (buildTable sym) b = 0xFF) ∧
    ∀ i (h : i < 32), sym[i] = b → (∀ j (hj : j < 32), i < j → sym[j] ≠ b) →
      entryAt (buildTable sym) b = BitVec.ofNat 8 i

/-- Rests on 40_alphabet_lut.md R102 (R106 states the inverses and the count, the spec's own derivation): the
table of 32 distinct symbols and the alphabet invert each other, and it has exactly 32 valid entries. -/
def Obligations.DistinctAlphabetTable : Prop :=
  ∀ sym : Vector Byte 32, sym.toList.Nodup →
    (∀ i (h : i < 32), entryAt (buildTable sym) sym[i] = BitVec.ofNat 8 i) ∧
    (∀ b : Byte, entryAt (buildTable sym) b ≠ 0xFF →
      ∃ i, ∃ h : i < 32, entryAt (buildTable sym) b = BitVec.ofNat 8 i ∧ sym[i] = b) ∧
    ((buildTable sym).toList.filter (fun v => v ≠ 0xFF)).length = 32

/-- 40_alphabet_lut.md R103 to R105: in every state slots 0 and 1 are the two ROM handles, always valid, with
the tables built from their alphabets; the second alphabet is the first with uppercase letters folded. -/
def Obligations.RomHandles : Prop :=
  ∀ s : State,
    (slotAt s 0).alpha.toList =
      [0x59, 0x42, 0x4E, 0x44, 0x52, 0x46, 0x47, 0x38, 0x45, 0x4A, 0x4B, s.params.alpha11, s.params.alpha12,
       0x50, 0x51, 0x58, 0x30, 0x54, 0x31, 0x56, s.params.alpha20, 0x32, 0x53, 0x5A, 0x41, 0x33,
       s.params.alpha26, 0x35, 0x48, 0x37, 0x36, 0x39] ∧
    (∀ v : BitVec 5,
      let upper := symbolAt (slotAt s 0).alpha v
      symbolAt (slotAt s 1).alpha v = if 0x41 ≤ upper.toNat ∧ upper.toNat ≤ 0x5A then upper + 0x20 else upper) ∧
    (slotAt s 0).dt = buildTable (slotAt s 0).alpha ∧ (slotAt s 1).dt = buildTable (slotAt s 1).alpha ∧
    (slotAt s 0).valid = true ∧ (slotAt s 1).valid = true

/-- 40_alphabet_lut.md R108, whose last sentence is the spec's own derivation: each ROM handle accepts exactly
its own 32 bytes; a letter valid in one handle is invalid in the other, a digit has the same value in both; and
the two encode the same bits to texts that are case-foldings of each other. For every legal choice of the four
open symbols. -/
def Obligations.CaseSensitiveHandles : Prop :=
  ∀ s : State, s.params.legal = true →
    (∀ b : Byte, entryAt (slotAt s 0).dt b ≠ 0xFF ↔ b ∈ (slotAt s 0).alpha.toList) ∧
    (∀ b : Byte, entryAt (slotAt s 1).dt b ≠ 0xFF ↔ b ∈ (slotAt s 1).alpha.toList) ∧
    (∀ b ∈ (slotAt s 0).alpha.toList,
      (isDigit b = true ∧ entryAt (slotAt s 0).dt b = entryAt (slotAt s 1).dt b) ∨
      (isUpper b = true ∧ entryAt (slotAt s 1).dt b = 0xFF ∧
        entryAt (slotAt s 0).dt (b + 0x20) = 0xFF)) ∧
    ∀ (src : List Byte) (L : Nat),
      encodeCore (slotAt s 1).alpha src L = (encodeCore (slotAt s 0).alpha src L).map foldCase

/-! ## Commands on the tables -/

/-- 40_alphabet_lut.md R109: LUT_LOAD, with its two errors, and its effect on a loadable slot: the 32 bytes
become the alphabet, the table is built, VALID is set, and no other slot changes. -/
def Obligations.LutLoadEffect : Prop :=
  ∀ (s : State) (h : Nat) (syms : List Byte), h < 8 →
    decodeWord (BitVec.ofNat 32 h <<< 8 ||| 0x01) = .ok (.lutLoad h) ∧
    let bad := s.params.numSlots ≤ h ∨ h < 2 ∨ (slotAt s h).valid = true
    (bad → exec (.lutLoad h) s = .next (afterError s .badHandle 0 0 0)) ∧
    (¬ bad → ¬ Fits s s.latch.a0.toNat 32 → exec (.lutLoad h) s = .next (afterError s .addrRange 0 0 0)) ∧
    (¬ bad → Fits s s.latch.a0.toNat 32 → syms.length = 32 → Holds s.mem s.latch.a0.toNat syms →
      ∃ slots, exec (.lutLoad h) s = .next { afterOk s 0 0 false with loadable := slots } ∧
        let t := { s with loadable := slots }
        (slotAt t h).alpha.toList = syms ∧ (slotAt t h).dt = buildTable (slotAt t h).alpha ∧
        (slotAt t h).valid = true ∧ (regValue t 0x30).getLsbD h = true ∧ ∀ k, k ≠ h → slotAt t k = slotAt s k)

/-- 40_alphabet_lut.md R110, R111: SYM_LOOKUP and DT_LOOKUP, in every state, for every index and byte. -/
def Obligations.TableLookupResults : Prop :=
  ∀ (s : State) (h : Nat),
    (h < 8 → decodeWord (BitVec.ofNat 32 h <<< 8 ||| 0x02) = .ok (.symLookup h) ∧
      decodeWord (BitVec.ofNat 32 h <<< 8 ||| 0x03) = .ok (.dtLookup h)) ∧
    (usable s h = false → exec (.symLookup h) s = .next (afterError s .badHandle 0 0 0) ∧
      exec (.dtLookup h) s = .next (afterError s .badHandle 0 0 0)) ∧
    (usable s h = true →
      exec (.symLookup h) s = .next (afterOk s
        ((symbolAt (slotAt s h).alpha (BitVec.ofNat 5 s.latch.a0.toNat)).setWidth 32) 0 false) ∧
      exec (.dtLookup h) s = .next (afterOk s
        ((entryAt (slotAt s h).dt (BitVec.ofNat 8 s.latch.a0.toNat)).setWidth 32) 0 false))

/-! ## Whole-buffer encode -/

/-- 41_encoder.md R135: ENC. An unusable slot is BAD_HANDLE, failing ranges are ADDR_RANGE, and otherwise the
ceil(8n/5) symbols of the n source bytes stand at the destination, RES0 counts them, and no other byte of MEM
and no other state than the completion's changes. -/
def Obligations.EncResult : Prop :=
  ∀ (s : State) (h : Nat) (src : List Byte), src.length = s.latch.a1.toNat →
    let m := (8 * src.length + 4) / 5
    let ranges := RangesOk s s.latch.a0.toNat src.length s.latch.a2.toNat m
    (h < 8 → decodeWord (BitVec.ofNat 32 h <<< 8 ||| 0x10) = .ok (.enc h)) ∧
    (usable s h = false → exec (.enc h) s = .next (afterError s .badHandle 0 0 0)) ∧
    (usable s h = true → ¬ ranges → exec (.enc h) s = .next (afterError s .addrRange 0 0 0)) ∧
    (usable s h = true → ranges → Holds s.mem s.latch.a0.toNat src →
      ∃ mem', exec (.enc h) s = .next { afterOk s (BitVec.ofNat 32 m) 0 false with mem := mem' } ∧
        (encodeCore (slotAt s h).alpha src (8 * src.length)).length = m ∧
        StoredAt s.mem mem' s.latch.a2.toNat (encodeCore (slotAt s h).alpha src (8 * src.length)))

/-- 41_encoder.md R136: ENC_BITS, its errors in their order, and its effect, for which only the first ceil(bc/8)
source bytes need be written. -/
def Obligations.EncBitsResult : Prop :=
  ∀ (s : State) (h : Nat) (src : List Byte),
    let bc := s.latch.a3.toInt
    let n := s.latch.a1.toNat
    let m := (bc.toNat + 4) / 5
    let ranges := RangesOk s s.latch.a0.toNat n s.latch.a2.toNat m
    (h < 8 → decodeWord (BitVec.ofNat 32 h <<< 8 ||| 0x11) = .ok (.encBits h)) ∧
    (usable s h = false → exec (.encBits h) s = .next (afterError s .badHandle 0 0 0)) ∧
    (usable s h = true → bc < 0 → exec (.encBits h) s = .next (afterError s .invalidArg 0 0 0)) ∧
    (usable s h = true → bc > 8 * (n : Int) → exec (.encBits h) s = .next (afterError s .bitRange 0 0 0)) ∧
    (usable s h = true → 0 ≤ bc → bc ≤ 8 * (n : Int) → ¬ ranges →
      exec (.encBits h) s = .next (afterError s .addrRange 0 0 0)) ∧
    (usable s h = true → 0 ≤ bc → bc ≤ 8 * (n : Int) → ranges → src.length = (bc.toNat + 7) / 8 →
      Holds s.mem s.latch.a0.toNat src →
      ∃ mem', exec (.encBits h) s = .next { afterOk s (BitVec.ofNat 32 m) 0 false with mem := mem' } ∧
        (encodeCore (slotAt s h).alpha src bc.toNat).length = m ∧
        StoredAt s.mem mem' s.latch.a2.toNat (encodeCore (slotAt s h).alpha src bc.toNat))

/-- 40_alphabet_lut.md R112, 41_encoder.md R138, R139: NOP, ENC_LEN and DEC_LEN complete in every state: NOP
with every result register 0, the others with ceil(n/5)*8 and ceil(n/8)*5 in RES1:RES0. A word of these opcodes
with a nonzero HSEL or RSV is illegal. -/
def Obligations.NopAndLengthResults : Prop :=
  (decodeWord 0x00000000 = .ok .nop ∧ decodeWord 0x00000012 = .ok .encLen ∧ decodeWord 0x00000013 = .ok .decLen ∧
    ∀ w : Word, (w &&& 0xFF) ∈ ([0x00, 0x12, 0x13] : List Word) → w ∉ ([0x00, 0x12, 0x13] : List Word) →
      ∃ why, decodeWord w = .error why) ∧
  ∀ s : State,
    let n := s.latch.a1.toNat
    let r := (n + 4) / 5 * 8
    exec .nop s = .next (afterOk s 0 0 false) ∧
    exec .encLen s = .next (afterOk s (BitVec.ofNat 32 (r % 2 ^ 32)) (BitVec.ofNat 32 (r / 2 ^ 32)) false) ∧
    exec .decLen s = .next (afterOk s (BitVec.ofNat 32 ((n + 7) / 8 * 5)) 0 false)

/-- 41_encoder.md R131: the two forms of SymVal agree. -/
def Obligations.SymValFormsAgree : Prop :=
  ∀ (src : List Byte) (L k : Nat), L ≤ 8 * src.length → k < (L + 4) / 5 →
    (symVal src L k).toNat = symValCursor src L k

/-- Rests on 41_encoder.md R130 to R132; R140 states it, the spec's own derivation: group concatenation. -/
def Obligations.EncodeConcatenates : Prop :=
  ∀ (alpha : Vector Byte 32) (a b : List Byte), a.length % 5 = 0 →
    encodeCore alpha (a ++ b) (8 * (a ++ b).length)
      = encodeCore alpha a (8 * a.length) ++ encodeCore alpha b (8 * b.length)

/-- 41_encoder.md R134, and R141, the spec's own derivation: an encode of L bits depends only on its first L
stream bits, and every symbol entirely below two counts is the same for both. -/
def Obligations.EncodeDependsOnDeclaredBits : Prop :=
  (∀ (alpha : Vector Byte 32) (a b : List Byte) (L : Nat),
    (∀ j, j < L → streamBit a L j = streamBit b L j) → encodeCore alpha a L = encodeCore alpha b L) ∧
  ∀ (alpha : Vector Byte 32) (src : List Byte) (L L' k : Nat), 5 * k + 5 ≤ min L L' →
    (encodeCore alpha src L)[k]? = (encodeCore alpha src L')[k]?

/-! ## Whole-buffer decode -/

/-- 42_decoder.md R163: Combine of eight 5-bit values is their 40-bit number cut into bytes. -/
def Obligations.CombineIsFortyBitNumber : Prop :=
  ∀ d : Vector Byte 8, (∀ j (h : j < 8), (d[j]).toNat < 32) →
    let v := d[0].toNat * 2 ^ 35 + d[1].toNat * 2 ^ 30 + d[2].toNat * 2 ^ 25 + d[3].toNat * 2 ^ 20
      + d[4].toNat * 2 ^ 15 + d[5].toNat * 2 ^ 10 + d[6].toNat * 2 ^ 5 + d[7].toNat
    (combine d).map BitVec.toNat
      = [v / 2 ^ 32 % 256, v / 2 ^ 24 % 256, v / 2 ^ 16 % 256, v / 2 ^ 8 % 256, v % 256]

/-- 42_decoder.md R161, R166: at the first symbol that is not in the alphabet the decode stops with its offset,
whatever comes after it, and the output is that of the groups before its group. -/
def Obligations.DecodeStopsAtFirstCorrupt : Prop :=
  ∀ (dt : Vector Byte 256) (sym : Nat → Option Byte) (L i : Nat) (c : Byte) (mode : DecMode), i < L →
    (∀ k, k < i → ∃ b : Byte, sym k = some b ∧ entryAt dt b ≠ 0xFF) →
    sym i = some c → entryAt dt c = 0xFF →
    decodeCore dt sym L mode = ((decodeCore dt sym (8 * (i / 8)) mode).1, .corrupt i) ∧
    (decodeCore dt sym (8 * (i / 8)) mode).2 = .ok

/-- Rests on 42_decoder.md R164 to R166; R167 states it, the spec's own derivation: with no invalid symbol the
output has exactly OutCount bytes, and OutCount is at most DecodedLen; with one the output is no longer.
OutCount is written out: 5·(L div 8) + T[L mod 8] in byte-aligned mode, and in bit-count mode the sum of B(bc -
40g), which is ceil(bc/8), or 5 bytes for every group of the input where that is less. -/
def Obligations.OutCountIsExact : Prop :=
  ∀ (dt : Vector Byte 256) (sym : Nat → Option Byte) (L : Nat) (mode : DecMode),
    ((∀ k, k < L → ∃ b : Byte, sym k = some b ∧ entryAt dt b ≠ 0xFF) →
      (decodeCore dt sym L mode).2 = .ok ∧ (decodeCore dt sym L mode).1.length = outCount L mode) ∧
    (decodeCore dt sym L mode).1.length ≤ outCount L mode ∧ outCount L mode ≤ (L + 7) / 8 * 5 ∧
    outCount L mode = (match mode with
      | .aligned => 5 * (L / 8) + [0, 1, 1, 2, 2, 3, 4, 4].getD (L % 8) 0
      | .bits bc => min ((bc + 7) / 8) (5 * ((L + 7) / 8)))

/-- 42_decoder.md R168, 60_exceptions.md R255: DEC. Its errors in their order; the decoded bytes stand at the
destination, RES0 counts them; at a corrupt symbol the completed groups' bytes do, RES0 counts them and
ERR_OFFSET is the symbol's offset; no other byte of MEM changes. Only the symbols up to the first that is not in
the alphabet need be written (R161). -/
def Obligations.DecResult : Prop :=
  ∀ (s : State) (h : Nat) (syms : List Byte),
    let L := s.latch.a1.toNat
    let W := 5 * (L / 8) + [0, 1, 1, 2, 2, 3, 4, 4].getD (L % 8) 0
    let ranges := RangesOk s s.latch.a0.toNat L s.latch.a2.toNat W
    let r := decodeCore (slotAt s h).dt (fun i => syms[i]?) L .aligned
    let enough := syms.length = L ∨ (syms.length < L ∧ ∃ c ∈ syms, entryAt (slotAt s h).dt c = 0xFF)
    (h < 8 → decodeWord (BitVec.ofNat 32 h <<< 8 ||| 0x20) = .ok (.dec h)) ∧
    (usable s h = false → exec (.dec h) s = .next (afterError s .badHandle 0 0 0)) ∧
    (usable s h = true → ¬ ranges → exec (.dec h) s = .next (afterError s .addrRange 0 0 0)) ∧
    (usable s h = true → ranges → enough → Holds s.mem s.latch.a0.toNat syms →
      ∃ mem', StoredAt s.mem mem' s.latch.a2.toNat r.1 ∧
        (r.2 = .ok ∨ ∃ i, i < syms.length ∧ r.2 = .corrupt i) ∧
        (r.2 = .ok → exec (.dec h) s
          = .next { afterOk s (BitVec.ofNat 32 r.1.length) 0 false with mem := mem' }) ∧
        ∀ i, r.2 = .corrupt i → exec (.dec h) s
          = .next { afterError s .corruptInput i 0 r.1.length with mem := mem' })

/-- 42_decoder.md R169, 60_exceptions.md R255, R256: DEC_BITS, as DEC with the bit count, INVALID_ARG before the
range check. -/
def Obligations.DecBitsResult : Prop :=
  ∀ (s : State) (h : Nat) (syms : List Byte),
    let bc := s.latch.a3.toInt
    let L := s.latch.a1.toNat
    let mode := DecMode.bits bc.toNat
    let ranges := RangesOk s s.latch.a0.toNat L s.latch.a2.toNat (outCount L mode)
    let r := decodeCore (slotAt s h).dt (fun i => syms[i]?) L mode
    let enough := syms.length = L ∨ (syms.length < L ∧ ∃ c ∈ syms, entryAt (slotAt s h).dt c = 0xFF)
    (h < 8 → decodeWord (BitVec.ofNat 32 h <<< 8 ||| 0x21) = .ok (.decBits h)) ∧
    (usable s h = false → exec (.decBits h) s = .next (afterError s .badHandle 0 0 0)) ∧
    (usable s h = true → bc < 0 → exec (.decBits h) s = .next (afterError s .invalidArg 0 0 0)) ∧
    (usable s h = true → 0 ≤ bc → ¬ ranges → exec (.decBits h) s = .next (afterError s .addrRange 0 0 0)) ∧
    (usable s h = true → 0 ≤ bc → ranges → enough → Holds s.mem s.latch.a0.toNat syms →
      ∃ mem', StoredAt s.mem mem' s.latch.a2.toNat r.1 ∧
        (r.2 = .ok ∨ ∃ i, i < syms.length ∧ r.2 = .corrupt i) ∧
        (r.2 = .ok → exec (.decBits h) s
          = .next { afterOk s (BitVec.ofNat 32 r.1.length) 0 false with mem := mem' }) ∧
        ∀ i, r.2 = .corrupt i → exec (.decBits h) s
          = .next { afterError s .corruptInput i 0 r.1.length with mem := mem' })

/-- Rests on 41_encoder.md R132 and 42_decoder.md R163 to R166; R171 states it, its bit-count half the spec's
own derivation: for an alphabet of 32 distinct symbols, decoding what it encoded gives the bytes back in
byte-aligned mode; in bit-count mode it gives ceil(bc/8) bytes with the declared bits, and 0 at every stream bit
from bc on. -/
def Obligations.DecodeInvertsEncode : Prop :=
  ∀ (alpha : Vector Byte 32) (b : List Byte), alpha.toList.Nodup →
    decodeSeq (buildTable alpha) (encodeCore alpha b (8 * b.length)) = (b, .ok) ∧
    ∀ bc : Nat, bc ≤ 8 * b.length →
      let syms := encodeCore alpha b bc
      let r := decodeCore (buildTable alpha) (fun i => syms[i]?) syms.length (.bits bc)
      r.2 = .ok ∧ r.1.length = (bc + 7) / 8 ∧
        ∀ j, j < 8 * r.1.length → streamBit r.1 (8 * r.1.length) j = streamBit b bc j

/-! ## The Streaming Encoder -/

/-- 43_stream_encoder.md R191, 44_stream_decoder.md R221: SENC_OPEN and SDEC_OPEN, in every state of the encoder
and the decoder. -/
def Obligations.StreamOpenResults : Prop :=
  ∀ (s : State) (h : Nat), h < 8 →
    (decodeWord (BitVec.ofNat 32 h <<< 8 ||| 0x30) = .ok (.sencOpen h) ∧
      decodeWord (BitVec.ofNat 32 h <<< 8 ||| 0x40) = .ok (.sdecOpen h)) ∧
    (usable s h = false → exec (.sencOpen h) s = .next (afterError s .badHandle 0 0 0) ∧
      exec (.sdecOpen h) s = .next (afterError s .badHandle 0 0 0)) ∧
    (usable s h = true →
      (∃ e : Senc, e.state = .opened ∧ e.slot.toNat = h ∧ e.buf = [] ∧ e.err = 0 ∧
        regValue { s with senc := e } 0x34 = 0x10 ||| BitVec.ofNat 32 h <<< 8 ∧
        exec (.sencOpen h) s = .next { afterOk s 0 0 false with senc := e }) ∧
      (∃ d : Sdec, d.isOpen = true ∧ d.slot.toNat = h ∧ d.buf = [] ∧ d.eof = false ∧
        regValue { s with sdec := d } 0x38 = 0x20000 ||| BitVec.ofNat 32 h <<< 24 ∧
        exec (.sdecOpen h) s = .next { afterOk s 0 0 false with sdec := d }))

/-- 43_stream_encoder.md R192, 60_exceptions.md R254: the first step of SENC_WRITE: its errors in their order; a
write that leaves the fringe below 5 bytes completes with all n bytes accepted and makes no transaction; any
other sends one transaction and waits: the topped-up fringe if there was one, else the largest group of whole
5-byte groups that fits the staging buffer. -/
def Obligations.SencWriteFirstStep : Prop :=
  ∀ (s : State) (p : List Byte), p.length = s.latch.a1.toNat → s.senc.buf.length ≤ 4 →
    let alpha := (slotAt s s.senc.slot.toNat).alpha
    let f := s.senc.buf
    let fits := Fits s s.latch.a0.toNat p.length
    ((s.senc.state = .idle ∨ s.senc.state = .closed) →
      exec .sencWrite s = .next (afterError s .streamState 0 0 0)) ∧
    (s.senc.state = .failed → exec .sencWrite s = .next (afterError s .ioError 0 s.senc.err 0)) ∧
    (s.senc.state = .opened → ¬ fits → exec .sencWrite s = .next (afterError s .addrRange 0 0 0)) ∧
    (s.senc.state = .opened → fits → Holds s.mem s.latch.a0.toNat p →
      (f.length + p.length < 5 → exec .sencWrite s
        = .next { afterOk s s.latch.a1 0 false with senc := { s.senc with buf := f ++ p } }) ∧
      (5 ≤ f.length + p.length → f ≠ [] → ∃ c, exec .sencWrite s
        = .next { s with
            senc := { s.senc with buf := f ++ p.take (5 - f.length) }
            sinkLog := s.sinkLog ++ [⟨encodeCore alpha (f ++ p.take (5 - f.length)) 40, .pending⟩]
            cont := some c } ∧ Cont.waitsSink (some c) = true) ∧
      (5 ≤ p.length → f = [] → ∃ c, exec .sencWrite s
        = .next { s with
            sinkLog := s.sinkLog ++
              [⟨encodeCore alpha (p.take (min s.params.encStageBytes (p.length - p.length % 5)))
                (8 * min s.params.encStageBytes (p.length - p.length % 5)), .pending⟩]
            cont := some c } ∧ Cont.waitsSink (some c) = true))

/-- 43_stream_encoder.md R192, R193, R197: what an ERR answer to a transaction of SENC_WRITE or SENC_CLOSE does:
the stream is FAILED with the code stored, its fringe empty, and the command ends with IO_ERROR, IO_CODE the
code and RES0 the bytes accepted before. Nothing else changes but SINKLOG's answer. -/
def Obligations.SinkErrorFailsStream : Prop :=
  ∀ (s : State) (c : Word), s.Inv → Cont.waitsSink s.cont = true →
    ∃ count log, sinkStep s (s.sinkLog.length - 1) (.err c)
        = .next { afterError s .ioError 0 c count with
            senc := { s.senc with state := .failed, err := c, buf := [] }, sinkLog := log } ∧
      log.map SinkTx.syms = s.sinkLog.map SinkTx.syms ∧
      log.getLast?.map SinkTx.reply = some (.answered (.err c)) ∧ log.dropLast = s.sinkLog.dropLast ∧
      (∀ (p : List Byte) (t : Nat), s.cont = some (.sencFringe p t) → count = 0) ∧
      (s.cont = some .sencClose → count = 0) ∧
      ∀ (nn : Nat) (p : List Byte) (acc : Nat), s.cont = some (.sencGroup nn p acc) →
        count + p.length = s.latch.a1.toNat

/-- 43_stream_encoder.md R197: the error is sticky. In FAILED, SENC_WRITE and SENC_CLOSE complete with IO_ERROR
and the stored code, RES0 = 0, no transaction and no change of the stream, whatever the operands; and no step
but SENC_OPEN and a reset changes the stream. -/
def Obligations.EncoderErrorIsSticky : Prop :=
  (∀ s : State, s.senc.state = .failed →
    exec .sencWrite s = .next (afterError s .ioError 0 s.senc.err 0) ∧
    exec .sencClose s = .next (afterError s .ioError 0 s.senc.err 0)) ∧
  ∀ s t : State, s.Inv → s.senc.state = .failed → step s = .next t → s.resets = false →
    (∀ h, ¬ s.runs (.sencOpen h)) → t.senc = s.senc

/-- 43_stream_encoder.md R198: SENC_CLOSE in every state of the encoder, and the rest of it after each answer of
the sink to the final fringe. -/
def Obligations.SencCloseResult : Prop :=
  (decodeWord 0x00000032 = .ok .sencClose ∧
    ∀ w : Word, (w &&& 0xFF) = 0x32 → w ≠ 0x32 → ∃ why, decodeWord w = .error why) ∧
  ∀ (s : State) (c : Word),
    (s.senc.state = .idle → exec .sencClose s = .next (afterError s .streamState 0 0 0)) ∧
    (s.senc.state = .closed → exec .sencClose s = .next (afterOk s 0 0 false)) ∧
    (s.senc.state = .failed → exec .sencClose s = .next (afterError s .ioError 0 s.senc.err 0)) ∧
    (s.senc.state = .opened → s.senc.buf = [] →
      exec .sencClose s = .next { afterOk s 0 0 false with senc := { s.senc with state := .closed } }) ∧
    (s.senc.state = .opened → s.senc.buf ≠ [] →
      let syms := encodeCore (slotAt s s.senc.slot.toNat).alpha s.senc.buf (8 * s.senc.buf.length)
      ∃ t, exec .sencClose s = .next t ∧
        t = { s with sinkLog := s.sinkLog ++ [⟨syms, .pending⟩], cont := some .sencClose } ∧
        sinkStep t s.sinkLog.length .ok = .next { afterOk s 0 0 false with
          senc := { s.senc with state := .closed, buf := [] }
          sinkLog := s.sinkLog ++ [⟨syms, .answered .ok⟩] } ∧
        sinkStep t s.sinkLog.length (.err c) = .next { afterError s .ioError 0 c 0 with
          senc := { s.senc with state := .failed, err := c, buf := [] }
          sinkLog := s.sinkLog ++ [⟨syms, .answered (.err c)⟩] })

/-- Rests on 43_stream_encoder.md R192, R198; R194 states it, in part the spec's own derivation: the sizes of
the transactions any step makes: 8 symbols, 8*nn/5 symbols with nn a multiple of 5 from 5 to ENC_STAGE_BYTES, or
at SENC_CLOSE 2, 4, 5 or 7; a step makes at most one. -/
def Obligations.SinkTransactionSizes : Prop :=
  ∀ s t : State, s.Inv → step s = .next t → t.sinkLog.length ≤ s.sinkLog.length + 1 ∧
    ∀ e : SinkTx, t.sinkLog[s.sinkLog.length]? = some e →
      e.syms.length = 8 ∨
      (∃ nn, nn % 5 = 0 ∧ 5 ≤ nn ∧ nn ≤ s.params.encStageBytes ∧ e.syms.length = 8 * nn / 5) ∨
      (t.cont = some .sencClose ∧ e.syms.length ∈ ([2, 4, 5, 7] : List Nat))

/-- 43_stream_encoder.md R192: every SENC_WRITE to an OPEN stream comes to an end when the sink answers OK each
time: all n bytes accepted, the whole 5-byte groups of fringe and bytes sent in order, and the rest the new
fringe, in at most 1 + ceil(n/ENC_STAGE_BYTES) transactions (70_reset_and_hazards.md R303). -/
def Obligations.SencWriteStreamsAllBytes : Prop :=
  ∀ (s : State) (p : List Byte), s.senc.state = .opened → s.senc.buf.length ≤ 4 → s.cont = none →
    5 ≤ s.params.encStageBytes → s.params.encStageBytes % 5 = 0 →
    p.length = s.latch.a1.toNat → Fits s s.latch.a0.toNat p.length → Holds s.mem s.latch.a0.toNat p →
    let all := s.senc.buf ++ p
    let whole := 5 * (all.length / 5)
    ∃ t u new, exec .sencWrite s = .next t ∧ SinkOk t u ∧
      u = { afterOk s s.latch.a1 0 false with
            senc := { s.senc with buf := all.drop whole }, sinkLog := s.sinkLog ++ new } ∧
      (∀ e ∈ new, e.reply = .answered .ok) ∧
      new.length ≤ 1 + (p.length + s.params.encStageBytes - 1) / s.params.encStageBytes ∧
      okText new = encodeCore (slotAt s s.senc.slot.toNat).alpha (all.take whole) (8 * whole)

/-- Rests on 43_stream_encoder.md R192, R198; R201 states it, the spec's own derivation: streaming equivalence.
From a fresh OPEN stream, any sequence of SENC_WRITE commands of any sizes and then SENC_CLOSE, every sink
answer OK, sends exactly the text that ENC makes of the concatenated bytes, for every legal ENC_STAGE_BYTES. -/
def Obligations.StreamingEncodeEqualsEnc : Prop :=
  ∀ (s t t0 t1 u : State) (cs : List (List Byte)),
    s.senc.state = .opened → s.senc.buf = [] → s.cont = none →
    5 ≤ s.params.encStageBytes → s.params.encStageBytes % 5 = 0 →
    WritesOk s cs t → SameStream t t0 → exec .sencClose t0 = .next t1 → SinkOk t1 u →
    u.senc.state = .closed ∧ ∃ new, u.sinkLog = s.sinkLog ++ new ∧
      (∀ e ∈ new, e.reply = .answered .ok) ∧
      okText new = encodeCore (slotAt s s.senc.slot.toNat).alpha cs.flatten (8 * cs.flatten.length)

/-! ## The Streaming Decoder -/

/-- 44_stream_decoder.md R223: SDEC_READ pulls exactly when req > 0, the buffer is empty and eof is 0, once, for
DEC_CHUNK symbols, and then waits. Its two checks come first. -/
def Obligations.SdecReadPulls : Prop :=
  ∀ s : State,
    let fits := Fits s s.latch.a2.toNat s.latch.a1.toNat
    (s.sdec.isOpen = false → exec .sdecRead s = .next (afterError s .streamState 0 0 0)) ∧
    (s.sdec.isOpen = true → ¬ fits → exec .sdecRead s = .next (afterError s .addrRange 0 0 0)) ∧
    (s.sdec.isOpen = true → fits → 0 < s.latch.a1.toNat → s.sdec.buf = [] → s.sdec.eof = false →
      exec .sdecRead s = .next { s with
        srcLog := s.srcLog ++ [⟨s.params.decChunk, .pending⟩], cont := some .sdecPull }) ∧
    (s.sdec.isOpen = true → fits → (s.latch.a1.toNat = 0 ∨ s.sdec.buf ≠ [] ∨ s.sdec.eof = true) →
      ∃ t, exec .sdecRead s = .next t ∧ t.cont = none ∧ t.srcLog = s.srcLog)

/-- 44_stream_decoder.md R225, R226: a read that needs no pull delivers the first min(req, count) bytes of the
buffer to MEM, the rest move to the front, RES0 counts them, and EOF is 1 exactly when the source has ended and
the buffer is then empty. No other byte of MEM changes. -/
def Obligations.SdecReadServesBuffer : Prop :=
  ∀ s : State, s.sdec.isOpen = true → Fits s s.latch.a2.toNat s.latch.a1.toNat →
    (s.latch.a1.toNat = 0 ∨ s.sdec.buf ≠ [] ∨ s.sdec.eof = true) →
    let d := min s.latch.a1.toNat s.sdec.buf.length
    ∃ mem', StoredAt s.mem mem' s.latch.a2.toNat (s.sdec.buf.take d) ∧
      exec .sdecRead s = .next { afterOk s (BitVec.ofNat 32 d) 0
          (s.sdec.eof && decide (s.sdec.buf.length ≤ s.latch.a1.toNat)) with
        mem := mem', sdec := { s.sdec with buf := s.sdec.buf.drop d } }

/-- 44_stream_decoder.md R222, R224, R228: the rest of SDEC_READ after the source's answer: an ERR discards the
answer's symbols; a corrupt chunk is discarded whole, with eof set if it came with EOF; a good chunk is decoded
in full and served from. -/
def Obligations.SourceAnswerEffect : Prop :=
  ∀ (s : State) (a : SourceAnswer), s.Inv → s.cont = some .sdecPull → a.syms.length ≤ s.params.decChunk →
    let r := decodeSeq (slotAt s s.sdec.slot.toNat).dt a.syms
    let eof := decide (a.st = .eof)
    ∃ t log, sourceStep s (s.srcLog.length - 1) a = .next t ∧ t.srcLog = log ∧
      log.map SourceTx.max = s.srcLog.map SourceTx.max ∧
      log.getLast?.map SourceTx.reply = some (.answered a) ∧ log.dropLast = s.srcLog.dropLast ∧
      (∀ c, a.st = .err c → t = { afterError s .ioError 0 c 0 with srcLog := log }) ∧
      ((a.st = .ok ∨ a.st = .eof) → ∀ i, r.2 = .corrupt i →
        t = { afterError s .corruptInput i 0 0 with srcLog := log, sdec := { s.sdec with eof := eof } }) ∧
      ((a.st = .ok ∨ a.st = .eof) → r.2 = .ok →
        let d := min s.latch.a1.toNat r.1.length
        StoredAt s.mem t.mem s.latch.a2.toNat (r.1.take d) ∧
        t = { afterOk s (BitVec.ofNat 32 d) 0 (eof && decide (r.1.length ≤ s.latch.a1.toNat)) with
              srcLog := log, mem := t.mem, sdec := { s.sdec with eof := eof, buf := r.1.drop d } })

/-- Rests on 44_stream_decoder.md R222, R223; R220 states it, the spec's own derivation: an exhausted decoder
stays exhausted through every step but SDEC_OPEN and a reset. -/
def Obligations.ExhaustedStaysExhausted : Prop :=
  ∀ s t : State, s.Inv → s.sdec.eof = true → s.sdec.buf = [] → step s = .next t → s.resets = false →
    (∀ h, ¬ s.runs (.sdecOpen h)) → t.sdec = s.sdec

/-- Rests on 44_stream_decoder.md R222 to R226 and the round trip; R230 states it, the spec's own derivation:
streaming decode equivalence. Reads of at least one byte from a fresh decoder on a slot of 32 distinct symbols,
whose source delivers the text of b in answers of which each that is followed by further symbols holds a
multiple of 8 symbols, deliver exactly b once EOF is reported. -/
def Obligations.StreamingDecodeDelivers : Prop :=
  ∀ (s t : State) (b out : List Byte) (as : List SourceAnswer),
    let slot := slotAt s s.sdec.slot.toNat
    s.sdec.isOpen = true → s.sdec.buf = [] → s.sdec.eof = false → s.status.eof = false →
    slot.alpha.toList.Nodup → slot.dt = buildTable slot.alpha →
    (∀ a ∈ as, a.st = .ok ∨ a.st = .eof) →
    as.flatMap SourceAnswer.syms = encodeCore slot.alpha b (8 * b.length) →
    (∀ (k : Nat) (a a' : SourceAnswer) (j : Nat), as[k]? = some a → k < j → as[j]? = some a' → a'.syms ≠ [] →
      a.syms.length % 8 = 0) →
    ReadsOk s as out t → t.status.eof = true → out = b

/-! ## Whole-machine rules -/

/-- 60_exceptions.md R254: a command that fails one of the checks 1 to 7 changes only the completion state: the
checks of the command's rule, the sticky IO_ERROR (check 4), and Decode (check 1), which a word fails at its
acceptance. -/
def Obligations.FailedChecksChangeOnlyCompletion : Prop :=
  (∀ (s t : State) (i : Instr), exec i s = .next t →
    t.status.err ∈ ([.illegalCmd, .badHandle, .streamState, .invalidArg, .bitRange, .addrRange] : List ErrCode) →
    t.cont = none → t = afterError s t.status.err 0 0 0) ∧
  (∀ (s t : State) (i : Instr), exec i s = .next t → t.status.err = .ioError → t.cont = none →
    s.senc.state = .failed ∧ (i = .sencWrite ∨ i = .sencClose) ∧ t = afterError s .ioError 0 s.senc.err 0) ∧
  ∀ (s : State) (held : Bool) (rest : List Input) (w : Word) (why : IllegalWord),
    s.status.busy = false → decodeWord w = .error why →
    step { s with inputs := hostInput held (.regWrite 32 0x00 w) :: rest }
      = .next (afterError (afterAccept { s with inputs := rest } w) .illegalCmd 0 0 0)

/-- 10_state.md R25, R27, 20_memory.md R77: what no command's step changes: the parameters, CMD, the operand
registers, the latched copies, OVR, the inputs and the host's log; and the logs only grow. -/
def Obligations.CommandFrame : Prop :=
  ∀ (s t : State) (i : Instr), exec i s = .next t →
    t.params = s.params ∧ t.cmdReg = s.cmdReg ∧ t.arg0 = s.arg0 ∧ t.arg1 = s.arg1 ∧ t.arg2 = s.arg2 ∧
    t.arg3 = s.arg3 ∧ t.latch = s.latch ∧ t.status.ovr = s.status.ovr ∧ t.inputs = s.inputs ∧ t.program = s.program ∧
    t.hostLog = s.hostLog ∧ t.draws = s.draws ∧ s.sinkLog <+: t.sinkLog ∧ s.srcLog <+: t.srcLog

/-- 10_state.md R27, 70_reset_and_hazards.md R298: a command reads only the latched copies: with other values in
CMD's readback and in ARG0 to ARG3, its step does the same. -/
def Obligations.CommandReadsOnlyLatched : Prop :=
  ∀ (s : State) (i : Instr) (w x0 x1 x2 x3 : Word),
    exec i { s with cmdReg := w, arg0 := x0, arg1 := x1, arg2 := x2, arg3 := x3 }
      = match exec i s with
        | .next t => .next { t with cmdReg := w, arg0 := x0, arg1 := x1, arg2 := x2, arg3 := x3 }
        | .fault f => .fault f
        | .refused r => .refused r

/-- 10_state.md R42, 20_memory.md R72: the tables of a valid slot never change and VALID is never cleared,
through every step but a soft reset and a power-on reset. -/
def Obligations.ValidSlotsAreImmutable : Prop :=
  ∀ (s t : State) (i : Nat), step s = .next t → (slotAt s i).valid = true → s.resets = false →
    slotAt t i = slotAt s i

/-- 60_exceptions.md R262, R263, 70_reset_and_hazards.md R292: the step on a port's answer is sinkStep or
sourceStep of it, which the statements on the streams speak of; an answer to an abandoned transaction is
discarded; a source answer longer than the pull asked for is refused. -/
def Obligations.LateAndOverlongAnswers : Prop :=
  ∀ (s : State) (rest : List Input) (k : Nat) (a : SinkAnswer) (b : SourceAnswer),
    step { s with inputs := .sinkAnswer k a :: rest } = sinkStep { s with inputs := rest } k a ∧
    step { s with inputs := .sourceAnswer k b :: rest } = sourceStep { s with inputs := rest } k b ∧
    ((s.sinkLog[k]?.map SinkTx.reply = some .abandoned) →
      step { s with inputs := .sinkAnswer k a :: rest } = .next { s with inputs := rest }) ∧
    (∀ e : SourceTx, s.srcLog[k]? = some e → e.max < b.syms.length →
      step { s with inputs := .sourceAnswer k b :: rest } = .refused .sourceOverrun) ∧
    (∀ e : SourceTx, s.srcLog[k]? = some e → b.syms.length ≤ e.max → e.reply = .abandoned →
      step { s with inputs := .sourceAnswer k b :: rest } = .next { s with inputs := rest })

/-- 30_encoding.md R91, R92: what each command line expands to: the writes of the ARG registers the command
reads in the order ARG0 to ARG3, the write of CMD, and WAIT; MEMSET and MEMSTR write MEM byte by byte. A
program's lines run in order, each move of the host's program the bus transaction it names. WAIT reads STATUS
again for as long as BUSY = 1, and goes on when BUSY = 0. The model's choice in it (log entry 17): the host then
reads RES0, RES1, ERR_OFFSET and IO_CODE in this order, and STATUS is the last poll's. -/
def Obligations.HostLinesExpand : Prop :=
  (∀ (h src n dst : Nat) (bits : Int) (bs : List Byte) (text : String),
    let w := fun (offset v : Nat) => HostMove.op (.regWrite 32 offset (BitVec.ofNat 32 v))
    let a3 := HostMove.op (.regWrite 32 0x14 (BitVec.ofInt 32 bits))
    let cmd := fun (opc h : Nat) =>
      HostMove.op (.regWrite 32 0x00 (BitVec.ofNat 32 h <<< 8 ||| BitVec.ofNat 32 opc))
    HostLine.nop.expand = [cmd 0x00 0, .wait] ∧
    (HostLine.lutLoad h src).expand = [w 0x08 src, cmd 0x01 h, .wait] ∧
    (HostLine.symLookup h n).expand = [w 0x08 n, cmd 0x02 h, .wait] ∧
    (HostLine.dtLookup h n).expand = [w 0x08 n, cmd 0x03 h, .wait] ∧
    (HostLine.enc h src n dst).expand = [w 0x08 src, w 0x0C n, w 0x10 dst, cmd 0x10 h, .wait] ∧
    (HostLine.encBits h src n dst bits).expand
      = [w 0x08 src, w 0x0C n, w 0x10 dst, a3, cmd 0x11 h, .wait] ∧
    (HostLine.encLen n).expand = [w 0x0C n, cmd 0x12 0, .wait] ∧
    (HostLine.decLen n).expand = [w 0x0C n, cmd 0x13 0, .wait] ∧
    (HostLine.dec h src n dst).expand = [w 0x08 src, w 0x0C n, w 0x10 dst, cmd 0x20 h, .wait] ∧
    (HostLine.decBits h src n dst bits).expand
      = [w 0x08 src, w 0x0C n, w 0x10 dst, a3, cmd 0x21 h, .wait] ∧
    (HostLine.sencOpen h).expand = [cmd 0x30 h, .wait] ∧
    (HostLine.sencWrite src n).expand = [w 0x08 src, w 0x0C n, cmd 0x31 0, .wait] ∧
    HostLine.sencClose.expand = [cmd 0x32 0, .wait] ∧
    (HostLine.sdecOpen h).expand = [cmd 0x40 h, .wait] ∧
    (HostLine.sdecRead dst n).expand = [w 0x0C n, w 0x10 dst, cmd 0x41 0, .wait] ∧
    HostLine.wait.expand = [.wait] ∧
    (∀ j, (HostLine.memset dst bs).expand[j]? = bs[j]?.map (fun b => HostMove.op (.memWrite (dst + j) b))) ∧
    (HostLine.memstr dst text).expand
      = (HostLine.memset dst (text.toList.map (fun c => BitVec.ofNat 8 c.toNat))).expand) ∧
  (∀ lines : List HostLine, ∀ l : HostLine, programMoves (l :: lines) = l.expand ++ programMoves lines) ∧
  ∀ (s : State) (held : Bool) (rest : List Input) (moves : List HostMove),
    let poll := s.hostLog ++ [.reg 0x04 (regValue s 0x04)]
    let go := fun (p : List HostMove) => step { s with program := p, inputs := .program held :: rest }
    (∀ op, go (.op op :: moves) = step { s with program := moves, inputs := hostInput held op :: rest }) ∧
    (s.status.busy = true →
      go (.wait :: moves) = .next { s with inputs := rest, hostLog := poll, program := .wait :: moves }) ∧
    (s.status.busy = false →
      go (.wait :: moves) = .next { s with
        inputs := rest, hostLog := poll
        program := .op (.regRead 32 0x18) :: .op (.regRead 32 0x1C) :: .op (.regRead 32 0x20)
          :: .op (.regRead 32 0x24) :: moves })
end

