-- ==== Sys2Proof/Laws/Codec.lean ====
section
/-!
SUPPORT. The small lemmas of the codec's algorithms: lengths, entries, and how a group is read.
-/

namespace Sys2Proof.Laws

open Sys2Proof.Machine

/-! ## Encoding -/

@[simp] theorem encodeCore_length (alpha : Vector Byte 32) (src : List Byte) (L : Nat) :
    (encodeCore alpha src L).length = ceilDiv L 5 := by simp [encodeCore]

/-- The symbol at place k. -/
theorem encodeCore_getElem? (alpha : Vector Byte 32) (src : List Byte) (L k : Nat) (h : k < ceilDiv L 5) :
    (encodeCore alpha src L)[k]? = some (symbolAt alpha (symVal src L k)) := by
  simp [encodeCore, h]

@[simp] theorem encodeCore_zero (alpha : Vector Byte 32) (src : List Byte) : encodeCore alpha src 0 = [] := rfl

/-- A stream bit from the declared length on is 0 (41_encoder.md R130). -/
theorem streamBit_of_le (src : List Byte) (L j : Nat) (h : L ≤ j) : streamBit src L j = false := by
  simp [streamBit, Nat.not_lt.2 h]

/-- A stream bit of a whole-byte stream does not depend on the declared length. -/
theorem streamBit_of_lt (src : List Byte) {L j : Nat} (h : j < L) :
    streamBit src L j = (src.getD (j / 8) 0).getLsbD (7 - j % 8) := by simp [streamBit, h]

/-! ## Decoding -/

@[simp] theorem tableT_le (n : Nat) : tableT n ≤ 5 := by
  unfold tableT
  by_cases h : n < 9
  · interval_cases n <;> decide
  · rw [List.getD_eq_default _ _ (by simpa using h)]; omega

@[simp] theorem bitsB_le (r : Nat) : bitsB r ≤ 5 := by unfold bitsB ceilDiv; omega

@[simp] theorem emitCount_le (mode : DecMode) (g dlen : Nat) : emitCount mode g dlen ≤ 5 := by
  cases mode <;> simp [emitCount]

@[simp] theorem combine_length (d : Vector Byte 8) : (combine d).length = 5 := rfl

/-- A group is read when each of its symbols is there and in the alphabet. -/
theorem readGroup_ok_iff (dt : Vector Byte 256) (sym : Nat → Option Byte) (n i : Nat) (vs : List Byte) :
    readGroup dt sym n i = .ok vs ↔
      vs.length = n ∧ ∀ k (h : k < vs.length), ∃ c, sym (i + k) = some c ∧
        entryAt dt c ≠ sentinel ∧ entryAt dt c = vs[k] := by
  induction n generalizing i vs with
  | zero =>
    simp only [readGroup, Except.ok.injEq, eq_comm (a := []), List.length_eq_zero_iff]
    exact ⟨fun h => ⟨h, by subst h; intro k hk; simp at hk⟩, fun h => h.1⟩
  | succ n ih =>
    rw [readGroup]
    split
    · rename_i hs
      simp only [reduceCtorEq, false_iff, not_and, not_forall]
      intro hl
      exact ⟨0, by omega, by simp [hs]⟩
    · rename_i c hc
      split
      · rename_i hv
        simp only [reduceCtorEq, false_iff, not_and, not_forall]
        intro hl
        exact ⟨0, by omega, by simp [hc, hv]⟩
      · rename_i hv
        have key : ∀ w ws, (readGroup dt sym n (i + 1) = .ok ws ∧ entryAt dt c = w) ↔
            ((w :: ws).length = n + 1 ∧ ∀ k (h : k < (w :: ws).length), ∃ c, sym (i + k) = some c ∧
              entryAt dt c ≠ sentinel ∧ entryAt dt c = (w :: ws)[k]) := by
          intro w ws
          rw [ih]
          constructor
          · rintro ⟨⟨h1, h2⟩, h3⟩
            refine ⟨by simp [h1], fun k hk => ?_⟩
            cases k with
            | zero => exact ⟨c, by simpa using hc, hv, h3⟩
            | succ k =>
              have := h2 k (by simpa using hk)
              rwa [show i + 1 + k = i + (k + 1) by omega] at this
          · rintro ⟨h1, h2⟩
            refine ⟨⟨by simpa using h1, fun k hk => ?_⟩, ?_⟩
            · have := h2 (k + 1) (by simpa using hk)
              rwa [show i + (k + 1) = i + 1 + k by omega] at this
            · obtain ⟨c', hc', -, h3⟩ := h2 0 (by simp)
              simp only [Nat.add_zero, hc, Option.some.injEq] at hc'
              subst hc'
              exact h3
        split
        · rename_i e he
          simp only [reduceCtorEq, false_iff]
          cases vs with
          | nil => simp
          | cons w ws =>
            intro h
            have := (key w ws).2 h
            simp [he] at this
        · rename_i ws hws
          simp only [Except.ok.injEq]
          constructor
          · rintro rfl
            exact (key _ ws).1 ⟨hws, rfl⟩
          · intro h
            cases vs with
            | nil => simp at h
            | cons w us =>
              obtain ⟨h1, h2⟩ := (key w us).2 h
              rw [hws] at h1
              cases h1
              rw [h2]

/-- A group stops at the first of its symbols that is not in the alphabet, or that is not there. -/
theorem readGroup_error (dt : Vector Byte 256) (sym : Nat → Option Byte) (n i : Nat) (e : DecEnd)
    (h : readGroup dt sym n i = .error e) :
    ∃ k, k < n ∧ (∀ j, j < k → ∃ c, sym (i + j) = some c ∧ entryAt dt c ≠ sentinel) ∧
      ((e = .unread (i + k) ∧ sym (i + k) = none) ∨
       (e = .corrupt (i + k) ∧ ∃ c, sym (i + k) = some c ∧ entryAt dt c = sentinel)) := by
  induction n generalizing i with
  | zero => simp [readGroup] at h
  | succ n ih =>
    rw [readGroup] at h
    split at h
    · rename_i hs
      cases h
      exact ⟨0, by omega, by omega, .inl ⟨rfl, hs⟩⟩
    · rename_i c hc
      split at h
      · rename_i hv
        cases h
        exact ⟨0, by omega, by omega, .inr ⟨rfl, c, hc, hv⟩⟩
      · rename_i hv
        split at h
        · rename_i he
          cases h
          obtain ⟨k, h1, h2, h3⟩ := ih (i + 1) he
          refine ⟨k + 1, by omega, fun j hj => ?_, ?_⟩
          · cases j with
            | zero => exact ⟨c, hc, hv⟩
            | succ j => rw [show i + (j + 1) = i + 1 + j by omega]; exact h2 j (by omega)
          · rw [show i + (k + 1) = i + 1 + k by omega]; exact h3
        · cases h

/-- The symbols of a group are read from the group's place in the input and nowhere else. -/
theorem readGroup_congr (dt : Vector Byte 256) (sym sym' : Nat → Option Byte) (n i j : Nat)
    (h : ∀ k, k < n → sym (i + k) = sym' (j + k)) (vs : List Byte) :
    readGroup dt sym n i = .ok vs ↔ readGroup dt sym' n j = .ok vs := by
  simp only [readGroup_ok_iff]
  constructor
  · rintro ⟨h1, h2⟩
    exact ⟨h1, fun k hk => by rw [← h k (by omega)]; exact h2 k hk⟩
  · rintro ⟨h1, h2⟩
    exact ⟨h1, fun k hk => by rw [h k (by omega)]; exact h2 k hk⟩

/-- A decode that does not end well ends at the first symbol of its input that is not there or not in the
alphabet. -/
theorem decodeGroups_end (dt : Vector Byte 256) (sym : Nat → Option Byte) (L : Nat) (mode : DecMode) (n g : Nat)
    (out : List Byte) (e : DecEnd) (h : decodeGroups dt sym L mode n g = (out, e)) :
    e = .ok ∨ ∃ i, i < L ∧ 8 * g ≤ i ∧
      (∀ j, 8 * g ≤ j → j < i → ∃ c, sym j = some c ∧ entryAt dt c ≠ sentinel) ∧
      ((e = .unread i ∧ sym i = none) ∨ (e = .corrupt i ∧ ∃ c, sym i = some c ∧ entryAt dt c = sentinel)) := by
  induction n generalizing g out with
  | zero => simp only [decodeGroups, Prod.mk.injEq] at h; exact .inl h.2.symm
  | succ n ih =>
    rw [decodeGroups] at h
    split at h
    · rename_i hr
      cases h
      obtain ⟨k, h1, h2, h3⟩ := readGroup_error _ _ _ _ _ hr
      refine .inr ⟨8 * g + k, by omega, by omega, fun j hj hk => ?_, h3⟩
      have := h2 (j - 8 * g) (by omega)
      rwa [show 8 * g + (j - 8 * g) = j by omega] at this
    · rename_i vs hvs
      simp only [Prod.mk.injEq] at h
      rcases ih (g + 1) _ (by rw [← h.2]) with h' | ⟨i, h1, h2, h3, h4⟩
      · exact .inl h'
      · refine .inr ⟨i, h1, by omega, fun j hj hi => ?_, h4⟩
        by_cases hg : 8 * (g + 1) ≤ j
        · exact h3 j hg hi
        · obtain ⟨hl, hv⟩ := (readGroup_ok_iff _ _ _ _ _).1 hvs
          obtain ⟨c, hc, hn, -⟩ := hv (j - 8 * g) (by omega)
          exact ⟨c, by rwa [show 8 * g + (j - 8 * g) = j by omega] at hc, hn⟩

/-- A group reads its symbols in order up to the first that fails (42_decoder.md R161). -/
theorem readGroup_congr_until (dt : Vector Byte 256) (sym sym' : Nat → Option Byte) (n i : Nat)
    (h : ∀ k, k < n → (∀ j, j < k → ∃ c, sym (i + j) = some c ∧ entryAt dt c ≠ sentinel) →
      sym (i + k) = sym' (i + k)) : readGroup dt sym n i = readGroup dt sym' n i := by
  induction n generalizing i with
  | zero => rfl
  | succ n ih =>
    have h0 : sym i = sym' i := h 0 (by omega) (by omega)
    rw [readGroup, readGroup, ← h0]
    split
    · rfl
    · rename_i c hc
      split
      · rfl
      · rename_i hv
        rw [ih (i + 1) fun k hk hj => ?_]
        rw [show i + 1 + k = i + (k + 1) by omega]
        refine h (k + 1) (by omega) fun j hj' => ?_
        cases j with
        | zero => exact ⟨c, hc, hv⟩
        | succ j => rw [show i + (j + 1) = i + 1 + j by omega]; exact hj j (by omega)

/-- A decode depends on its symbols up to the first that is not there or not in the alphabet, and on no later
one (42_decoder.md R161). -/
theorem decodeGroups_congr_until (dt : Vector Byte 256) (sym sym' : Nat → Option Byte) (L : Nat) (mode : DecMode)
    (n g : Nat)
    (h : ∀ k, k < L → 8 * g ≤ k → (∀ j, 8 * g ≤ j → j < k → ∃ c, sym j = some c ∧ entryAt dt c ≠ sentinel) →
      sym k = sym' k) : decodeGroups dt sym L mode n g = decodeGroups dt sym' L mode n g := by
  induction n generalizing g with
  | zero => rfl
  | succ n ih =>
    have hg : readGroup dt sym (min 8 (L - 8 * g)) (8 * g) = readGroup dt sym' (min 8 (L - 8 * g)) (8 * g) := by
      refine readGroup_congr_until _ _ _ _ _ fun k hk hj => h (8 * g + k) (by omega) (by omega) fun j h1 h2 => ?_
      have := hj (j - 8 * g) (by omega)
      rwa [show 8 * g + (j - 8 * g) = j by omega] at this
    rw [decodeGroups, decodeGroups, ← hg]
    split
    · rfl
    · rename_i vs hvs
      rw [ih (g + 1) fun k hk h1 hj => ?_]
      refine h k hk (by omega) fun j h2 h3 => ?_
      by_cases h8 : 8 * (g + 1) ≤ j
      · exact hj j h8 h3
      · obtain ⟨hl, hv⟩ := (readGroup_ok_iff _ _ _ _ _).1 hvs
        obtain ⟨c, hc, hn, -⟩ := hv (j - 8 * g) (by omega)
        exact ⟨c, by rwa [show 8 * g + (j - 8 * g) = j by omega] at hc, hn⟩

theorem decodeCore_congr_until (dt : Vector Byte 256) (sym sym' : Nat → Option Byte) (L : Nat) (mode : DecMode)
    (h : ∀ k, k < L → (∀ j, j < k → ∃ c, sym j = some c ∧ entryAt dt c ≠ sentinel) → sym k = sym' k) :
    decodeCore dt sym L mode = decodeCore dt sym' L mode :=
  decodeGroups_congr_until _ _ _ _ _ _ _ fun k hk _ hj => h k hk fun j hjk => hj j (by omega) hjk

/-- The chunk's decode meets no unread symbol: a chunk is a byte sequence. -/
theorem decodeSeq_ne_unread (dt : Vector Byte 256) (syms : List Byte) (i : Nat) :
    (decodeSeq dt syms).2 ≠ .unread i := by
  intro h
  rcases decodeGroups_end dt _ _ _ _ _ _ _ (show decodeSeq dt syms = (_, _) from rfl) with h' | ⟨j, hj, -, -, h' | h'⟩
  · cases h'.symm.trans h
  · have := h'.2; rw [List.getElem?_eq_none_iff] at this; omega
  · cases h'.1.symm.trans h

end Sys2Proof.Laws
end

