-- ==== Sys2Proof/Laws/Memory.lean ====
section
/-!
SUPPORT. MEM: reads after writes, the canonical form, and what a read of a range finds. A proof about MEM
cites these and unfolds no memory operation.
-/

namespace Sys2Proof.Laws

open Sys2Proof.Machine

/-- A read after a write of one byte. -/
theorem readByte_writeByte (m : Memory) (a x : Nat) (b : Byte) :
    readByte (writeByte m a b) x = if x = a then some b else readByte m x := by
  induction m with
  | nil => simp only [writeByte, readByte, eq_comm (a := a)]
  | cons c m ih =>
    obtain ⟨k, v⟩ := c
    simp only [writeByte]
    split
    · simp only [readByte, eq_comm (a := a)]
    · split
      · subst_vars; simp only [readByte, eq_comm (b := x)]; split <;> rfl
      · by_cases hk : k = x
        · subst hk; have : k ≠ a := by omega
          simp [readByte, this]
        · simp [readByte, hk, ih]

/-- The addresses of MEM after a write of one byte. -/
theorem mem_writeByte {m : Memory} {a : Nat} {b : Byte} {c : Host.Cell} (h : c ∈ writeByte m a b) :
    c = (a, b) ∨ c ∈ m := by
  induction m with
  | nil => simpa [writeByte] using h
  | cons d m ih =>
    obtain ⟨k, v⟩ := d
    simp only [writeByte] at h
    split at h
    · simpa using h
    · split at h
      · rcases List.mem_cons.1 h with h | h
        · exact .inl h
        · exact .inr (List.mem_cons_of_mem _ h)
      · rcases List.mem_cons.1 h with h | h
        · exact .inr (by simp [h])
        · rcases ih h with h | h
          · exact .inl h
          · exact .inr (List.mem_cons_of_mem _ h)

/-- A write of one byte keeps the canonical form. -/
theorem writeByte_wf {m : Memory} (a : Nat) (b : Byte) (h : Memory.wf m = true) :
    Memory.wf (writeByte m a b) = true := by
  simp only [Memory.wf, decide_eq_true_eq] at h ⊢
  induction m with
  | nil => simp [writeByte]
  | cons d m ih =>
    obtain ⟨k, v⟩ := d
    obtain ⟨hk, hm⟩ := List.pairwise_cons.1 h
    simp only [writeByte]
    split
    · refine List.pairwise_cons.2 ⟨fun c hc => ?_, h⟩
      rcases List.mem_cons.1 hc with rfl | hc
      · assumption
      · have := hk c hc; simp only at this ⊢; omega
    · split
      · subst_vars; exact List.pairwise_cons.2 ⟨hk, hm⟩
      · refine List.pairwise_cons.2 ⟨fun c hc => ?_, ih hm⟩
        rcases mem_writeByte hc with rfl | hc
        · simp only; omega
        · exact hk c hc

/-- A byte outside the written range reads as before. -/
theorem readByte_writeBytes_of_outside (bs : List Byte) (m : Memory) (a x : Nat)
    (h : x < a ∨ a + bs.length ≤ x) : readByte (writeBytes m a bs) x = readByte m x := by
  induction bs generalizing m a with
  | nil => rfl
  | cons b bs ih =>
    simp only [List.length_cons] at h
    rw [writeBytes, ih _ _ (by omega), readByte_writeByte, if_neg (by omega)]

/-- A byte of the written range reads as written. -/
theorem readByte_writeBytes_of_inside (bs : List Byte) (m : Memory) (a k : Nat) (h : k < bs.length) :
    readByte (writeBytes m a bs) (a + k) = some bs[k] := by
  induction bs generalizing m a k with
  | nil => simp at h
  | cons b bs ih =>
    rw [writeBytes]
    cases k with
    | zero => rw [readByte_writeBytes_of_outside _ _ _ _ (by omega), readByte_writeByte, if_pos (by omega)]; rfl
    | succ k =>
      rw [show a + (k + 1) = a + 1 + k by omega, ih _ _ _ (by simpa using h)]
      rfl

/-- MemWrite puts the bytes where it says and leaves every other byte alone. -/
theorem writeBytes_storedAt (m : Memory) (a : Nat) (bs : List Byte) : StoredAt m (writeBytes m a bs) a bs :=
  ⟨fun k h => readByte_writeBytes_of_inside bs m a k h, fun x h => readByte_writeBytes_of_outside bs m a x h⟩

/-- MemWrite of nothing changes nothing. -/
@[simp] theorem writeBytes_nil (m : Memory) (a : Nat) : writeBytes m a [] = m := rfl

/-- MemWrite keeps the canonical form. -/
theorem writeBytes_wf (bs : List Byte) {m : Memory} (a : Nat) (h : Memory.wf m = true) :
    Memory.wf (writeBytes m a bs) = true := by
  induction bs generalizing m a with
  | nil => exact h
  | cons b bs ih => exact ih (a + 1) (writeByte_wf a b h)

/-- The addresses of MEM after MemWrite. -/
theorem mem_writeBytes (bs : List Byte) {m : Memory} {a : Nat} {c : Host.Cell} (h : c ∈ writeBytes m a bs) :
    c ∈ m ∨ a ≤ c.1 ∧ c.1 < a + bs.length := by
  induction bs generalizing m a with
  | nil => exact .inl h
  | cons b bs ih =>
    simp only [List.length_cons]
    rcases ih h with h | h
    · rcases mem_writeByte h with rfl | h
      · exact .inr ⟨by simp, by simp⟩
      · exact .inl h
    · exact .inr (by omega)

/-- A written byte stays written. -/
theorem isSome_readByte_writeBytes (bs : List Byte) {m : Memory} (a : Nat) {x : Nat}
    (h : (readByte m x).isSome = true) : (readByte (writeBytes m a bs) x).isSome = true := by
  by_cases hx : x < a ∨ a + bs.length ≤ x
  · rwa [readByte_writeBytes_of_outside bs m a x hx]
  · have := readByte_writeBytes_of_inside bs m a (x - a) (by omega)
    rw [show a + (x - a) = x by omega] at this
    simp [this]

/-- MemRead finds exactly the bytes that MEM holds. -/
theorem readBytes_eq_ok_iff (m : Memory) (a n : Nat) (bs : List Byte) :
    readBytes m a n = .ok bs ↔ bs.length = n ∧ Holds m a bs := by
  induction n generalizing a bs with
  | zero =>
    simp only [readBytes, Except.ok.injEq, eq_comm (a := []), List.length_eq_zero_iff]
    exact ⟨fun h => ⟨h, by subst h; intro k hk; simp at hk⟩, fun h => h.1⟩
  | succ n ih =>
    rw [readBytes]
    split
    · rename_i hb
      simp only [reduceCtorEq, false_iff, not_and]
      intro hl hh
      have := hh 0 (by omega)
      simp [hb] at this
    · rename_i b hb
      split
      · rename_i f hf
        simp only [reduceCtorEq, false_iff, not_and]
        intro hl hh
        cases bs with
        | nil => simp at hl
        | cons c cs =>
          have := (ih (a + 1) cs).2 ⟨by simpa using hl, fun k hk => by
            have := hh (k + 1) (by simpa using hk)
            rwa [show a + (k + 1) = a + 1 + k by omega] at this⟩
          simp [hf] at this
      · rename_i cs hcs
        have hcs' := (ih (a + 1) cs).1 hcs
        simp only [Except.ok.injEq]
        constructor
        · rintro rfl
          refine ⟨by simp [hcs'.1], fun k hk => ?_⟩
          cases k with
          | zero => simpa using hb
          | succ k =>
            have := hcs'.2 k (by simpa using hk)
            rwa [show a + (k + 1) = a + 1 + k by omega]
        · rintro ⟨hl, hh⟩
          cases bs with
          | nil => simp at hl
          | cons d ds =>
            have h0 := hh 0 (by simp)
            simp only [Nat.add_zero, hb, Option.some.injEq, List.getElem_cons_zero] at h0
            have := (ih (a + 1) ds).2 ⟨by simpa using hl, fun k hk => by
              have := hh (k + 1) (by simpa using hk)
              rwa [show a + (k + 1) = a + 1 + k by omega] at this⟩
            rw [hcs] at this
            cases this
            rw [h0]

/-- MemRead of a range that MEM holds. -/
theorem readBytes_of_holds {m : Memory} {a n : Nat} {bs : List Byte} (hn : bs.length = n) (h : Holds m a bs) :
    readBytes m a n = .ok bs := (readBytes_eq_ok_iff m a n bs).2 ⟨hn, h⟩

/-- MemRead fails only at an unwritten byte of its range. -/
theorem readBytes_error (m : Memory) (a n : Nat) (f : Fault) (h : readBytes m a n = .error f) :
    ∃ x, a ≤ x ∧ x < a + n ∧ readByte m x = none ∧ f = .unwrittenMem x := by
  induction n generalizing a with
  | zero => simp [readBytes] at h
  | succ n ih =>
    rw [readBytes] at h
    split at h
    · rename_i hb
      cases h
      exact ⟨a, by omega, by omega, hb, rfl⟩
    · split at h
      · rename_i hf
        cases h
        obtain ⟨x, h1, h2, h3, h4⟩ := ih (a + 1) hf
        exact ⟨x, by omega, by omega, h3, h4⟩
      · cases h

/-- After power-on MEM has the canonical form. -/
theorem reset_mem_wf : Memory.wf State.reset.mem = true := by decide

@[simp] theorem readByte_nil (a : Nat) : readByte [] a = none := rfl

end Sys2Proof.Laws
end

