-- ==== Sys2Proof/Laws/State.lean ====
section
/-!
SUPPORT. One lemma per field of State per named update, so that no later proof unfolds a record update;
and the flags at acceptance and completion.
-/

namespace Sys2Proof.Laws

open Sys2Proof.Machine

section

variable (s : State) (r0 r1 : Word) (e : Bool)

@[simp] theorem completeWith_params : (completeWith s r0 r1 e).params = s.params := rfl
@[simp] theorem completeWith_cmdReg : (completeWith s r0 r1 e).cmdReg = s.cmdReg := rfl
@[simp] theorem completeWith_status : (completeWith s r0 r1 e).status = s.status.completed e .ok := rfl
@[simp] theorem completeWith_arg0 : (completeWith s r0 r1 e).arg0 = s.arg0 := rfl
@[simp] theorem completeWith_arg1 : (completeWith s r0 r1 e).arg1 = s.arg1 := rfl
@[simp] theorem completeWith_arg2 : (completeWith s r0 r1 e).arg2 = s.arg2 := rfl
@[simp] theorem completeWith_arg3 : (completeWith s r0 r1 e).arg3 = s.arg3 := rfl
@[simp] theorem completeWith_res0 : (completeWith s r0 r1 e).res0 = r0 := rfl
@[simp] theorem completeWith_res1 : (completeWith s r0 r1 e).res1 = r1 := rfl
@[simp] theorem completeWith_errOffset : (completeWith s r0 r1 e).errOffset = 0 := rfl
@[simp] theorem completeWith_ioCode : (completeWith s r0 r1 e).ioCode = 0 := rfl
@[simp] theorem completeWith_latch : (completeWith s r0 r1 e).latch = s.latch := rfl
@[simp] theorem completeWith_cont : (completeWith s r0 r1 e).cont = none := rfl
@[simp] theorem completeWith_loadable : (completeWith s r0 r1 e).loadable = s.loadable := rfl
@[simp] theorem completeWith_senc : (completeWith s r0 r1 e).senc = s.senc := rfl
@[simp] theorem completeWith_sdec : (completeWith s r0 r1 e).sdec = s.sdec := rfl
@[simp] theorem completeWith_mem : (completeWith s r0 r1 e).mem = s.mem := rfl
@[simp] theorem completeWith_sinkLog : (completeWith s r0 r1 e).sinkLog = s.sinkLog := rfl
@[simp] theorem completeWith_srcLog : (completeWith s r0 r1 e).srcLog = s.srcLog := rfl
@[simp] theorem completeWith_inputs : (completeWith s r0 r1 e).inputs = s.inputs := rfl
@[simp] theorem completeWith_program : (completeWith s r0 r1 e).program = s.program := rfl
@[simp] theorem completeWith_hostLog : (completeWith s r0 r1 e).hostLog = s.hostLog := rfl
@[simp] theorem completeWith_draws : (completeWith s r0 r1 e).draws = s.draws := rfl

end

section

variable (s : State) (e : ErrCode) (info : ErrInfo)

@[simp] theorem raiseError_params : (raiseError s e info).params = s.params := rfl
@[simp] theorem raiseError_cmdReg : (raiseError s e info).cmdReg = s.cmdReg := rfl
@[simp] theorem raiseError_status : (raiseError s e info).status = s.status.completed false e := rfl
@[simp] theorem raiseError_arg0 : (raiseError s e info).arg0 = s.arg0 := rfl
@[simp] theorem raiseError_arg1 : (raiseError s e info).arg1 = s.arg1 := rfl
@[simp] theorem raiseError_arg2 : (raiseError s e info).arg2 = s.arg2 := rfl
@[simp] theorem raiseError_arg3 : (raiseError s e info).arg3 = s.arg3 := rfl
@[simp] theorem raiseError_res0 : (raiseError s e info).res0 = BitVec.ofNat 32 info.count := rfl
@[simp] theorem raiseError_res1 : (raiseError s e info).res1 = 0 := rfl
@[simp] theorem raiseError_errOffset : (raiseError s e info).errOffset = BitVec.ofNat 32 info.offset := rfl
@[simp] theorem raiseError_ioCode : (raiseError s e info).ioCode = info.code := rfl
@[simp] theorem raiseError_latch : (raiseError s e info).latch = s.latch := rfl
@[simp] theorem raiseError_cont : (raiseError s e info).cont = none := rfl
@[simp] theorem raiseError_loadable : (raiseError s e info).loadable = s.loadable := rfl
@[simp] theorem raiseError_senc : (raiseError s e info).senc = s.senc := rfl
@[simp] theorem raiseError_sdec : (raiseError s e info).sdec = s.sdec := rfl
@[simp] theorem raiseError_mem : (raiseError s e info).mem = s.mem := rfl
@[simp] theorem raiseError_sinkLog : (raiseError s e info).sinkLog = s.sinkLog := rfl
@[simp] theorem raiseError_srcLog : (raiseError s e info).srcLog = s.srcLog := rfl
@[simp] theorem raiseError_inputs : (raiseError s e info).inputs = s.inputs := rfl
@[simp] theorem raiseError_program : (raiseError s e info).program = s.program := rfl
@[simp] theorem raiseError_hostLog : (raiseError s e info).hostLog = s.hostLog := rfl
@[simp] theorem raiseError_draws : (raiseError s e info).draws = s.draws := rfl

end

section

variable (s : State) (a : Nat) (bs : List Byte)

@[simp] theorem storeBytes_params : (storeBytes s a bs).params = s.params := rfl
@[simp] theorem storeBytes_cmdReg : (storeBytes s a bs).cmdReg = s.cmdReg := rfl
@[simp] theorem storeBytes_status : (storeBytes s a bs).status = s.status := rfl
@[simp] theorem storeBytes_arg0 : (storeBytes s a bs).arg0 = s.arg0 := rfl
@[simp] theorem storeBytes_arg1 : (storeBytes s a bs).arg1 = s.arg1 := rfl
@[simp] theorem storeBytes_arg2 : (storeBytes s a bs).arg2 = s.arg2 := rfl
@[simp] theorem storeBytes_arg3 : (storeBytes s a bs).arg3 = s.arg3 := rfl
@[simp] theorem storeBytes_res0 : (storeBytes s a bs).res0 = s.res0 := rfl
@[simp] theorem storeBytes_res1 : (storeBytes s a bs).res1 = s.res1 := rfl
@[simp] theorem storeBytes_errOffset : (storeBytes s a bs).errOffset = s.errOffset := rfl
@[simp] theorem storeBytes_ioCode : (storeBytes s a bs).ioCode = s.ioCode := rfl
@[simp] theorem storeBytes_latch : (storeBytes s a bs).latch = s.latch := rfl
@[simp] theorem storeBytes_cont : (storeBytes s a bs).cont = s.cont := rfl
@[simp] theorem storeBytes_loadable : (storeBytes s a bs).loadable = s.loadable := rfl
@[simp] theorem storeBytes_senc : (storeBytes s a bs).senc = s.senc := rfl
@[simp] theorem storeBytes_sdec : (storeBytes s a bs).sdec = s.sdec := rfl
@[simp] theorem storeBytes_mem : (storeBytes s a bs).mem = writeBytes s.mem a bs := rfl
@[simp] theorem storeBytes_sinkLog : (storeBytes s a bs).sinkLog = s.sinkLog := rfl
@[simp] theorem storeBytes_srcLog : (storeBytes s a bs).srcLog = s.srcLog := rfl
@[simp] theorem storeBytes_inputs : (storeBytes s a bs).inputs = s.inputs := rfl
@[simp] theorem storeBytes_program : (storeBytes s a bs).program = s.program := rfl
@[simp] theorem storeBytes_hostLog : (storeBytes s a bs).hostLog = s.hostLog := rfl
@[simp] theorem storeBytes_draws : (storeBytes s a bs).draws = s.draws := rfl

end

section

variable (s : State) (i : Nat) (sym : Vector Byte 32)

@[simp] theorem loadSlot_params : (loadSlot s i sym).params = s.params := rfl
@[simp] theorem loadSlot_cmdReg : (loadSlot s i sym).cmdReg = s.cmdReg := rfl
@[simp] theorem loadSlot_status : (loadSlot s i sym).status = s.status := rfl
@[simp] theorem loadSlot_arg0 : (loadSlot s i sym).arg0 = s.arg0 := rfl
@[simp] theorem loadSlot_arg1 : (loadSlot s i sym).arg1 = s.arg1 := rfl
@[simp] theorem loadSlot_arg2 : (loadSlot s i sym).arg2 = s.arg2 := rfl
@[simp] theorem loadSlot_arg3 : (loadSlot s i sym).arg3 = s.arg3 := rfl
@[simp] theorem loadSlot_res0 : (loadSlot s i sym).res0 = s.res0 := rfl
@[simp] theorem loadSlot_res1 : (loadSlot s i sym).res1 = s.res1 := rfl
@[simp] theorem loadSlot_errOffset : (loadSlot s i sym).errOffset = s.errOffset := rfl
@[simp] theorem loadSlot_ioCode : (loadSlot s i sym).ioCode = s.ioCode := rfl
@[simp] theorem loadSlot_latch : (loadSlot s i sym).latch = s.latch := rfl
@[simp] theorem loadSlot_cont : (loadSlot s i sym).cont = s.cont := rfl
@[simp] theorem loadSlot_loadable :
    (loadSlot s i sym).loadable = s.loadable.setIfInBounds (i - 2) { alpha := sym, dt := buildTable sym, valid := true } := rfl
@[simp] theorem loadSlot_senc : (loadSlot s i sym).senc = s.senc := rfl
@[simp] theorem loadSlot_sdec : (loadSlot s i sym).sdec = s.sdec := rfl
@[simp] theorem loadSlot_mem : (loadSlot s i sym).mem = s.mem := rfl
@[simp] theorem loadSlot_sinkLog : (loadSlot s i sym).sinkLog = s.sinkLog := rfl
@[simp] theorem loadSlot_srcLog : (loadSlot s i sym).srcLog = s.srcLog := rfl
@[simp] theorem loadSlot_inputs : (loadSlot s i sym).inputs = s.inputs := rfl
@[simp] theorem loadSlot_program : (loadSlot s i sym).program = s.program := rfl
@[simp] theorem loadSlot_hostLog : (loadSlot s i sym).hostLog = s.hostLog := rfl
@[simp] theorem loadSlot_draws : (loadSlot s i sym).draws = s.draws := rfl

end

section

variable (s : State) (bs : List Byte)

@[simp] theorem setFringe_params : (setFringe s bs).params = s.params := rfl
@[simp] theorem setFringe_cmdReg : (setFringe s bs).cmdReg = s.cmdReg := rfl
@[simp] theorem setFringe_status : (setFringe s bs).status = s.status := rfl
@[simp] theorem setFringe_arg0 : (setFringe s bs).arg0 = s.arg0 := rfl
@[simp] theorem setFringe_arg1 : (setFringe s bs).arg1 = s.arg1 := rfl
@[simp] theorem setFringe_arg2 : (setFringe s bs).arg2 = s.arg2 := rfl
@[simp] theorem setFringe_arg3 : (setFringe s bs).arg3 = s.arg3 := rfl
@[simp] theorem setFringe_res0 : (setFringe s bs).res0 = s.res0 := rfl
@[simp] theorem setFringe_res1 : (setFringe s bs).res1 = s.res1 := rfl
@[simp] theorem setFringe_errOffset : (setFringe s bs).errOffset = s.errOffset := rfl
@[simp] theorem setFringe_ioCode : (setFringe s bs).ioCode = s.ioCode := rfl
@[simp] theorem setFringe_latch : (setFringe s bs).latch = s.latch := rfl
@[simp] theorem setFringe_cont : (setFringe s bs).cont = s.cont := rfl
@[simp] theorem setFringe_loadable : (setFringe s bs).loadable = s.loadable := rfl
@[simp] theorem setFringe_senc : (setFringe s bs).senc = { s.senc with buf := bs } := rfl
@[simp] theorem setFringe_sdec : (setFringe s bs).sdec = s.sdec := rfl
@[simp] theorem setFringe_mem : (setFringe s bs).mem = s.mem := rfl
@[simp] theorem setFringe_sinkLog : (setFringe s bs).sinkLog = s.sinkLog := rfl
@[simp] theorem setFringe_srcLog : (setFringe s bs).srcLog = s.srcLog := rfl
@[simp] theorem setFringe_inputs : (setFringe s bs).inputs = s.inputs := rfl
@[simp] theorem setFringe_program : (setFringe s bs).program = s.program := rfl
@[simp] theorem setFringe_hostLog : (setFringe s bs).hostLog = s.hostLog := rfl
@[simp] theorem setFringe_draws : (setFringe s bs).draws = s.draws := rfl

end

section

variable (s : State) (syms : List Byte) (c : Cont)

@[simp] theorem sinkWrite_params : (sinkWrite s syms c).params = s.params := rfl
@[simp] theorem sinkWrite_cmdReg : (sinkWrite s syms c).cmdReg = s.cmdReg := rfl
@[simp] theorem sinkWrite_status : (sinkWrite s syms c).status = s.status := rfl
@[simp] theorem sinkWrite_arg0 : (sinkWrite s syms c).arg0 = s.arg0 := rfl
@[simp] theorem sinkWrite_arg1 : (sinkWrite s syms c).arg1 = s.arg1 := rfl
@[simp] theorem sinkWrite_arg2 : (sinkWrite s syms c).arg2 = s.arg2 := rfl
@[simp] theorem sinkWrite_arg3 : (sinkWrite s syms c).arg3 = s.arg3 := rfl
@[simp] theorem sinkWrite_res0 : (sinkWrite s syms c).res0 = s.res0 := rfl
@[simp] theorem sinkWrite_res1 : (sinkWrite s syms c).res1 = s.res1 := rfl
@[simp] theorem sinkWrite_errOffset : (sinkWrite s syms c).errOffset = s.errOffset := rfl
@[simp] theorem sinkWrite_ioCode : (sinkWrite s syms c).ioCode = s.ioCode := rfl
@[simp] theorem sinkWrite_latch : (sinkWrite s syms c).latch = s.latch := rfl
@[simp] theorem sinkWrite_cont : (sinkWrite s syms c).cont = some c := rfl
@[simp] theorem sinkWrite_loadable : (sinkWrite s syms c).loadable = s.loadable := rfl
@[simp] theorem sinkWrite_senc : (sinkWrite s syms c).senc = s.senc := rfl
@[simp] theorem sinkWrite_sdec : (sinkWrite s syms c).sdec = s.sdec := rfl
@[simp] theorem sinkWrite_mem : (sinkWrite s syms c).mem = s.mem := rfl
@[simp] theorem sinkWrite_sinkLog :
    (sinkWrite s syms c).sinkLog = s.sinkLog ++ [{ syms := syms, reply := .pending }] := rfl
@[simp] theorem sinkWrite_srcLog : (sinkWrite s syms c).srcLog = s.srcLog := rfl
@[simp] theorem sinkWrite_inputs : (sinkWrite s syms c).inputs = s.inputs := rfl
@[simp] theorem sinkWrite_program : (sinkWrite s syms c).program = s.program := rfl
@[simp] theorem sinkWrite_hostLog : (sinkWrite s syms c).hostLog = s.hostLog := rfl
@[simp] theorem sinkWrite_draws : (sinkWrite s syms c).draws = s.draws := rfl

end

section

variable (s : State) (n : Nat) (c : Cont)

@[simp] theorem sourcePull_params : (sourcePull s n c).params = s.params := rfl
@[simp] theorem sourcePull_cmdReg : (sourcePull s n c).cmdReg = s.cmdReg := rfl
@[simp] theorem sourcePull_status : (sourcePull s n c).status = s.status := rfl
@[simp] theorem sourcePull_arg0 : (sourcePull s n c).arg0 = s.arg0 := rfl
@[simp] theorem sourcePull_arg1 : (sourcePull s n c).arg1 = s.arg1 := rfl
@[simp] theorem sourcePull_arg2 : (sourcePull s n c).arg2 = s.arg2 := rfl
@[simp] theorem sourcePull_arg3 : (sourcePull s n c).arg3 = s.arg3 := rfl
@[simp] theorem sourcePull_res0 : (sourcePull s n c).res0 = s.res0 := rfl
@[simp] theorem sourcePull_res1 : (sourcePull s n c).res1 = s.res1 := rfl
@[simp] theorem sourcePull_errOffset : (sourcePull s n c).errOffset = s.errOffset := rfl
@[simp] theorem sourcePull_ioCode : (sourcePull s n c).ioCode = s.ioCode := rfl
@[simp] theorem sourcePull_latch : (sourcePull s n c).latch = s.latch := rfl
@[simp] theorem sourcePull_cont : (sourcePull s n c).cont = some c := rfl
@[simp] theorem sourcePull_loadable : (sourcePull s n c).loadable = s.loadable := rfl
@[simp] theorem sourcePull_senc : (sourcePull s n c).senc = s.senc := rfl
@[simp] theorem sourcePull_sdec : (sourcePull s n c).sdec = s.sdec := rfl
@[simp] theorem sourcePull_mem : (sourcePull s n c).mem = s.mem := rfl
@[simp] theorem sourcePull_sinkLog : (sourcePull s n c).sinkLog = s.sinkLog := rfl
@[simp] theorem sourcePull_srcLog : (sourcePull s n c).srcLog = s.srcLog ++ [{ max := n, reply := .pending }] := rfl
@[simp] theorem sourcePull_inputs : (sourcePull s n c).inputs = s.inputs := rfl
@[simp] theorem sourcePull_program : (sourcePull s n c).program = s.program := rfl
@[simp] theorem sourcePull_hostLog : (sourcePull s n c).hostLog = s.hostLog := rfl
@[simp] theorem sourcePull_draws : (sourcePull s n c).draws = s.draws := rfl

end

section

variable (s : State) (k : Nat) (a : SinkAnswer)

@[simp] theorem logSinkAnswer_params : (logSinkAnswer s k a).params = s.params := rfl
@[simp] theorem logSinkAnswer_cmdReg : (logSinkAnswer s k a).cmdReg = s.cmdReg := rfl
@[simp] theorem logSinkAnswer_status : (logSinkAnswer s k a).status = s.status := rfl
@[simp] theorem logSinkAnswer_arg0 : (logSinkAnswer s k a).arg0 = s.arg0 := rfl
@[simp] theorem logSinkAnswer_arg1 : (logSinkAnswer s k a).arg1 = s.arg1 := rfl
@[simp] theorem logSinkAnswer_arg2 : (logSinkAnswer s k a).arg2 = s.arg2 := rfl
@[simp] theorem logSinkAnswer_arg3 : (logSinkAnswer s k a).arg3 = s.arg3 := rfl
@[simp] theorem logSinkAnswer_res0 : (logSinkAnswer s k a).res0 = s.res0 := rfl
@[simp] theorem logSinkAnswer_res1 : (logSinkAnswer s k a).res1 = s.res1 := rfl
@[simp] theorem logSinkAnswer_errOffset : (logSinkAnswer s k a).errOffset = s.errOffset := rfl
@[simp] theorem logSinkAnswer_ioCode : (logSinkAnswer s k a).ioCode = s.ioCode := rfl
@[simp] theorem logSinkAnswer_latch : (logSinkAnswer s k a).latch = s.latch := rfl
@[simp] theorem logSinkAnswer_cont : (logSinkAnswer s k a).cont = s.cont := rfl
@[simp] theorem logSinkAnswer_loadable : (logSinkAnswer s k a).loadable = s.loadable := rfl
@[simp] theorem logSinkAnswer_senc : (logSinkAnswer s k a).senc = s.senc := rfl
@[simp] theorem logSinkAnswer_sdec : (logSinkAnswer s k a).sdec = s.sdec := rfl
@[simp] theorem logSinkAnswer_mem : (logSinkAnswer s k a).mem = s.mem := rfl
@[simp] theorem logSinkAnswer_sinkLog :
    (logSinkAnswer s k a).sinkLog = s.sinkLog.modify k (fun e => { e with reply := .answered a }) := rfl
@[simp] theorem logSinkAnswer_srcLog : (logSinkAnswer s k a).srcLog = s.srcLog := rfl
@[simp] theorem logSinkAnswer_inputs : (logSinkAnswer s k a).inputs = s.inputs := rfl
@[simp] theorem logSinkAnswer_program : (logSinkAnswer s k a).program = s.program := rfl
@[simp] theorem logSinkAnswer_hostLog : (logSinkAnswer s k a).hostLog = s.hostLog := rfl
@[simp] theorem logSinkAnswer_draws : (logSinkAnswer s k a).draws = s.draws := rfl

end

section

variable (s : State) (k : Nat) (a : SourceAnswer)

@[simp] theorem logSourceAnswer_params : (logSourceAnswer s k a).params = s.params := rfl
@[simp] theorem logSourceAnswer_cmdReg : (logSourceAnswer s k a).cmdReg = s.cmdReg := rfl
@[simp] theorem logSourceAnswer_status : (logSourceAnswer s k a).status = s.status := rfl
@[simp] theorem logSourceAnswer_arg0 : (logSourceAnswer s k a).arg0 = s.arg0 := rfl
@[simp] theorem logSourceAnswer_arg1 : (logSourceAnswer s k a).arg1 = s.arg1 := rfl
@[simp] theorem logSourceAnswer_arg2 : (logSourceAnswer s k a).arg2 = s.arg2 := rfl
@[simp] theorem logSourceAnswer_arg3 : (logSourceAnswer s k a).arg3 = s.arg3 := rfl
@[simp] theorem logSourceAnswer_res0 : (logSourceAnswer s k a).res0 = s.res0 := rfl
@[simp] theorem logSourceAnswer_res1 : (logSourceAnswer s k a).res1 = s.res1 := rfl
@[simp] theorem logSourceAnswer_errOffset : (logSourceAnswer s k a).errOffset = s.errOffset := rfl
@[simp] theorem logSourceAnswer_ioCode : (logSourceAnswer s k a).ioCode = s.ioCode := rfl
@[simp] theorem logSourceAnswer_latch : (logSourceAnswer s k a).latch = s.latch := rfl
@[simp] theorem logSourceAnswer_cont : (logSourceAnswer s k a).cont = s.cont := rfl
@[simp] theorem logSourceAnswer_loadable : (logSourceAnswer s k a).loadable = s.loadable := rfl
@[simp] theorem logSourceAnswer_senc : (logSourceAnswer s k a).senc = s.senc := rfl
@[simp] theorem logSourceAnswer_sdec : (logSourceAnswer s k a).sdec = s.sdec := rfl
@[simp] theorem logSourceAnswer_mem : (logSourceAnswer s k a).mem = s.mem := rfl
@[simp] theorem logSourceAnswer_sinkLog : (logSourceAnswer s k a).sinkLog = s.sinkLog := rfl
@[simp] theorem logSourceAnswer_srcLog :
    (logSourceAnswer s k a).srcLog = s.srcLog.modify k (fun e => { e with reply := .answered a }) := rfl
@[simp] theorem logSourceAnswer_inputs : (logSourceAnswer s k a).inputs = s.inputs := rfl
@[simp] theorem logSourceAnswer_program : (logSourceAnswer s k a).program = s.program := rfl
@[simp] theorem logSourceAnswer_hostLog : (logSourceAnswer s k a).hostLog = s.hostLog := rfl
@[simp] theorem logSourceAnswer_draws : (logSourceAnswer s k a).draws = s.draws := rfl

end

section

variable (s : State) (w : Word)

@[simp] theorem accept_params : (accept s w).params = s.params := rfl
@[simp] theorem accept_cmdReg : (accept s w).cmdReg = w := rfl
@[simp] theorem accept_status : (accept s w).status = s.status.accepted := rfl
@[simp] theorem accept_arg0 : (accept s w).arg0 = s.arg0 := rfl
@[simp] theorem accept_arg1 : (accept s w).arg1 = s.arg1 := rfl
@[simp] theorem accept_arg2 : (accept s w).arg2 = s.arg2 := rfl
@[simp] theorem accept_arg3 : (accept s w).arg3 = s.arg3 := rfl
@[simp] theorem accept_res0 : (accept s w).res0 = s.res0 := rfl
@[simp] theorem accept_res1 : (accept s w).res1 = s.res1 := rfl
@[simp] theorem accept_errOffset : (accept s w).errOffset = s.errOffset := rfl
@[simp] theorem accept_ioCode : (accept s w).ioCode = s.ioCode := rfl
@[simp] theorem accept_latch :
    (accept s w).latch = { cmd := w, a0 := s.arg0, a1 := s.arg1, a2 := s.arg2, a3 := s.arg3 } := rfl
@[simp] theorem accept_cont : (accept s w).cont = s.cont := rfl
@[simp] theorem accept_loadable : (accept s w).loadable = s.loadable := rfl
@[simp] theorem accept_senc : (accept s w).senc = s.senc := rfl
@[simp] theorem accept_sdec : (accept s w).sdec = s.sdec := rfl
@[simp] theorem accept_mem : (accept s w).mem = s.mem := rfl
@[simp] theorem accept_sinkLog : (accept s w).sinkLog = s.sinkLog := rfl
@[simp] theorem accept_srcLog : (accept s w).srcLog = s.srcLog := rfl
@[simp] theorem accept_inputs : (accept s w).inputs = s.inputs := rfl
@[simp] theorem accept_program : (accept s w).program = s.program := rfl
@[simp] theorem accept_hostLog : (accept s w).hostLog = s.hostLog := rfl
@[simp] theorem accept_draws : (accept s w).draws = s.draws := rfl

end

section

variable (p : Params)

@[simp] theorem powerOn_params : (State.powerOn p).params = p := rfl
@[simp] theorem powerOn_cmdReg : (State.powerOn p).cmdReg = 0 := rfl
@[simp] theorem powerOn_status :
    (State.powerOn p).status = { busy := false, done := false, eof := false, ovr := false, err := .ok } := rfl
@[simp] theorem powerOn_arg0 : (State.powerOn p).arg0 = 0 := rfl
@[simp] theorem powerOn_arg1 : (State.powerOn p).arg1 = 0 := rfl
@[simp] theorem powerOn_arg2 : (State.powerOn p).arg2 = 0 := rfl
@[simp] theorem powerOn_arg3 : (State.powerOn p).arg3 = 0 := rfl
@[simp] theorem powerOn_res0 : (State.powerOn p).res0 = 0 := rfl
@[simp] theorem powerOn_res1 : (State.powerOn p).res1 = 0 := rfl
@[simp] theorem powerOn_errOffset : (State.powerOn p).errOffset = 0 := rfl
@[simp] theorem powerOn_ioCode : (State.powerOn p).ioCode = 0 := rfl
@[simp] theorem powerOn_latch : (State.powerOn p).latch = { cmd := 0, a0 := 0, a1 := 0, a2 := 0, a3 := 0 } := rfl
@[simp] theorem powerOn_cont : (State.powerOn p).cont = none := rfl
@[simp] theorem powerOn_loadable : (State.powerOn p).loadable = Vector.replicate 6 Slot.unloaded := rfl
@[simp] theorem powerOn_senc : (State.powerOn p).senc = { state := .idle, slot := 0, buf := [], err := 0 } := rfl
@[simp] theorem powerOn_sdec : (State.powerOn p).sdec = { isOpen := false, slot := 0, buf := [], eof := false } := rfl
@[simp] theorem powerOn_mem : (State.powerOn p).mem = [] := rfl
@[simp] theorem powerOn_sinkLog : (State.powerOn p).sinkLog = [] := rfl
@[simp] theorem powerOn_srcLog : (State.powerOn p).srcLog = [] := rfl
@[simp] theorem powerOn_inputs : (State.powerOn p).inputs = [] := rfl
@[simp] theorem powerOn_program : (State.powerOn p).program = [] := rfl
@[simp] theorem powerOn_hostLog : (State.powerOn p).hostLog = [] := rfl
@[simp] theorem powerOn_draws : (State.powerOn p).draws = 0 := rfl

end

section

variable (s : State)

@[simp] theorem softReset_params : (softReset s).params = s.params := rfl
@[simp] theorem softReset_cmdReg : (softReset s).cmdReg = 0 := rfl
@[simp] theorem softReset_status :
    (softReset s).status = { busy := false, done := false, eof := false, ovr := false, err := .ok } := rfl
@[simp] theorem softReset_arg0 : (softReset s).arg0 = 0 := rfl
@[simp] theorem softReset_arg1 : (softReset s).arg1 = 0 := rfl
@[simp] theorem softReset_arg2 : (softReset s).arg2 = 0 := rfl
@[simp] theorem softReset_arg3 : (softReset s).arg3 = 0 := rfl
@[simp] theorem softReset_res0 : (softReset s).res0 = 0 := rfl
@[simp] theorem softReset_res1 : (softReset s).res1 = 0 := rfl
@[simp] theorem softReset_errOffset : (softReset s).errOffset = 0 := rfl
@[simp] theorem softReset_ioCode : (softReset s).ioCode = 0 := rfl
@[simp] theorem softReset_latch : (softReset s).latch = { cmd := 0, a0 := 0, a1 := 0, a2 := 0, a3 := 0 } := rfl
@[simp] theorem softReset_cont : (softReset s).cont = none := rfl
@[simp] theorem softReset_loadable : (softReset s).loadable = Vector.replicate 6 Slot.unloaded := rfl
@[simp] theorem softReset_senc : (softReset s).senc = { state := .idle, slot := 0, buf := [], err := 0 } := rfl
@[simp] theorem softReset_sdec : (softReset s).sdec = { isOpen := false, slot := 0, buf := [], eof := false } := rfl
@[simp] theorem softReset_mem : (softReset s).mem = s.mem := rfl
@[simp] theorem softReset_sinkLog :
    (softReset s).sinkLog = s.sinkLog.map (fun e => { e with reply := e.reply.abandon }) := rfl
@[simp] theorem softReset_srcLog :
    (softReset s).srcLog = s.srcLog.map (fun e => { e with reply := e.reply.abandon }) := rfl
@[simp] theorem softReset_inputs : (softReset s).inputs = s.inputs := rfl
@[simp] theorem softReset_program : (softReset s).program = s.program := rfl
@[simp] theorem softReset_hostLog : (softReset s).hostLog = s.hostLog := rfl
@[simp] theorem softReset_draws : (softReset s).draws = s.draws := rfl

end

section

variable (s : State)

@[simp] theorem powerOnReset_params : (powerOnReset s).params = s.params := rfl
@[simp] theorem powerOnReset_cmdReg : (powerOnReset s).cmdReg = 0 := rfl
@[simp] theorem powerOnReset_status :
    (powerOnReset s).status = { busy := false, done := false, eof := false, ovr := false, err := .ok } := rfl
@[simp] theorem powerOnReset_arg0 : (powerOnReset s).arg0 = 0 := rfl
@[simp] theorem powerOnReset_arg1 : (powerOnReset s).arg1 = 0 := rfl
@[simp] theorem powerOnReset_arg2 : (powerOnReset s).arg2 = 0 := rfl
@[simp] theorem powerOnReset_arg3 : (powerOnReset s).arg3 = 0 := rfl
@[simp] theorem powerOnReset_res0 : (powerOnReset s).res0 = 0 := rfl
@[simp] theorem powerOnReset_res1 : (powerOnReset s).res1 = 0 := rfl
@[simp] theorem powerOnReset_errOffset : (powerOnReset s).errOffset = 0 := rfl
@[simp] theorem powerOnReset_ioCode : (powerOnReset s).ioCode = 0 := rfl
@[simp] theorem powerOnReset_latch : (powerOnReset s).latch = { cmd := 0, a0 := 0, a1 := 0, a2 := 0, a3 := 0 } := rfl
@[simp] theorem powerOnReset_cont : (powerOnReset s).cont = none := rfl
@[simp] theorem powerOnReset_loadable : (powerOnReset s).loadable = Vector.replicate 6 Slot.unloaded := rfl
@[simp] theorem powerOnReset_senc : (powerOnReset s).senc = { state := .idle, slot := 0, buf := [], err := 0 } := rfl
@[simp] theorem powerOnReset_sdec :
    (powerOnReset s).sdec = { isOpen := false, slot := 0, buf := [], eof := false } := rfl
@[simp] theorem powerOnReset_mem : (powerOnReset s).mem = [] := rfl
@[simp] theorem powerOnReset_sinkLog : (powerOnReset s).sinkLog = [] := rfl
@[simp] theorem powerOnReset_srcLog : (powerOnReset s).srcLog = [] := rfl
@[simp] theorem powerOnReset_inputs : (powerOnReset s).inputs = s.inputs := rfl
@[simp] theorem powerOnReset_program : (powerOnReset s).program = s.program := rfl
@[simp] theorem powerOnReset_hostLog : (powerOnReset s).hostLog = [] := rfl
@[simp] theorem powerOnReset_draws : (powerOnReset s).draws = s.draws := rfl

end

@[simp] theorem completed_busy (st : Status) (e : Bool) (c : ErrCode) : (st.completed e c).busy = false := rfl
@[simp] theorem completed_done (st : Status) (e : Bool) (c : ErrCode) : (st.completed e c).done = true := rfl
@[simp] theorem completed_eof (st : Status) (e : Bool) (c : ErrCode) : (st.completed e c).eof = e := rfl
@[simp] theorem completed_ovr (st : Status) (e : Bool) (c : ErrCode) : (st.completed e c).ovr = st.ovr := rfl
@[simp] theorem completed_err (st : Status) (e : Bool) (c : ErrCode) : (st.completed e c).err = c := rfl
@[simp] theorem accepted_busy (st : Status) : (st.accepted).busy = true := rfl
@[simp] theorem accepted_done (st : Status) : (st.accepted).done = false := rfl
@[simp] theorem accepted_eof (st : Status) : (st.accepted).eof = false := rfl
@[simp] theorem accepted_ovr (st : Status) : (st.accepted).ovr = st.ovr := rfl
@[simp] theorem accepted_err (st : Status) : (st.accepted).err = st.err := rfl

/-- A completed count writes it to RES0 (60_exceptions.md R251). -/
theorem completeCount_eq (s : State) (n : Nat) :
    completeCount s n = completeWith s (BitVec.ofNat 32 n) 0 false := rfl

end Sys2Proof.Laws
end

