-- ==== Sys2Proof/Laws/Ops.lean ====
section
/-!
SUPPORT. The checks as propositions, the completions in the terms of Safety.lean, and, for each shared
operation of the commands, one lemma that says everything it can answer.
-/

namespace Sys2Proof.Laws

open Sys2Proof.Machine

/-! ## The checks -/

theorem inRange_iff (s : State) (a n : Nat) : inRange s.params a n = true ↔ Fits s a n := by
  simp [inRange, Fits]

theorem inRange_eq_false_iff (s : State) (a n : Nat) : inRange s.params a n = false ↔ ¬ Fits s a n := by
  rw [← inRange_iff, Bool.not_eq_true]

theorem overlap_iff (a n b m : Nat) : overlap a n b m = true ↔ Meet a n b m := by
  simp [overlap, Meet, and_assoc]

theorem buffersOk_iff (s : State) (src n dst m : Nat) :
    buffersOk s.params src n dst m = true ↔ RangesOk s src n dst m := by
  simp only [buffersOk, RangesOk, Bool.and_eq_true, Bool.not_eq_true', inRange_iff, ← overlap_iff,
    Bool.not_eq_true, and_assoc]

theorem buffersOk_eq_false_iff (s : State) (src n dst m : Nat) :
    buffersOk s.params src n dst m = false ↔ ¬ RangesOk s src n dst m := by
  rw [← buffersOk_iff, Bool.not_eq_true]

theorem ceilDiv_five (n : Nat) : ceilDiv n 5 = (n + 4) / 5 := rfl

theorem ceilDiv_eight (n : Nat) : ceilDiv n 8 = (n + 7) / 8 := rfl

/-! ## The completions -/

/-- `complete` in the terms of Safety.lean. -/
theorem completeWith_eq_afterOk (s : State) (r0 r1 : Word) (e : Bool) :
    completeWith s r0 r1 e = afterOk s r0 r1 e := rfl

/-- `raise` in the terms of Safety.lean. -/
theorem raiseError_eq_afterError (s : State) (e : ErrCode) (info : ErrInfo) :
    raiseError s e info = afterError s e info.offset info.code info.count := rfl

/-- An acceptance in the terms of Safety.lean. -/
theorem accept_eq_afterAccept (s : State) (w : Word) : accept s w = afterAccept s w := rfl

/-! ## The logs -/

/-- Answering the newest transaction changes the last entry of its log. -/
@[simp] theorem modify_last {α : Type} (l : List α) (x : α) (f : α → α) :
    (l ++ [x]).modify l.length f = l ++ [f x] := by
  induction l with
  | nil => rfl
  | cons y l ih => simpa using ih

/-! ## The slots -/

/-- The slots depend on the parameters and the loadable slots alone. -/
theorem slotAt_congr {s t : State} (hp : t.params = s.params) (hl : t.loadable = s.loadable) (i : Nat) :
    slotAt t i = slotAt s i := by
  unfold slotAt; rw [hp, hl]

theorem usable_congr {s t : State} (hp : t.params = s.params) (hl : t.loadable = s.loadable) (i : Nat) :
    usable t i = usable s i := by
  unfold usable; rw [slotAt_congr hp hl, hp]

/-- A slot number that `canLoad` passes names a cell of `loadable`, when NUM_SLOTS is at most 8. -/
theorem canLoad_iff (s : State) (h : Nat) :
    canLoad s h = true ↔ h < s.params.numSlots ∧ 2 ≤ h ∧ (slotAt s h).valid = false := by
  simp [canLoad, and_assoc]

/-- LUT_LOAD leaves every other slot alone. -/
theorem slotAt_loadSlot_of_ne (s : State) (h k : Nat) (sym : Vector Byte 32) (h2 : 2 ≤ h) (hk : k ≠ h) :
    slotAt (loadSlot s h sym) k = slotAt s k := by
  match k with
  | 0 => rfl
  | 1 => rfl
  | j + 2 =>
    simp only [slotAt, loadSlot]
    rw [Vector.getElem?_setIfInBounds_ne (by omega)]

/-- LUT_LOAD's slot. -/
theorem slotAt_loadSlot_self (s : State) (h : Nat) (sym : Vector Byte 32) (h2 : 2 ≤ h) (h8 : h < 8) :
    slotAt (loadSlot s h sym) h = { alpha := sym, dt := buildTable sym, valid := true } := by
  match h with
  | j + 2 =>
    simp only [slotAt, loadSlot]
    rw [show j + 2 - 2 = j by omega, Vector.getElem?_setIfInBounds_self_of_lt (by omega)]
    rfl

/-- There is no slot from 8 on. -/
theorem slotAt_of_le (s : State) (h : Nat) (h8 : 8 ≤ h) : slotAt s h = Slot.unloaded := by
  match h with
  | j + 2 => simp only [slotAt]; rw [Vector.getElem?_eq_none (by omega)]; rfl

/-! ## The shared operations of the commands -/

/-- Everything `encodeTo` can answer. -/
theorem encodeTo_cases (s : State) (h n nread L : Nat) :
    (¬ RangesOk s (srcAddr s.latch) n (dstAddr s.latch) (ceilDiv L 5) ∧
      encodeTo s h n nread L = .next (raiseError s .addrRange)) ∨
    (RangesOk s (srcAddr s.latch) n (dstAddr s.latch) (ceilDiv L 5) ∧
      ((∃ x, srcAddr s.latch ≤ x ∧ x < srcAddr s.latch + nread ∧ readByte s.mem x = none ∧
          encodeTo s h n nread L = .fault (.unwrittenMem x)) ∨
       ∃ src, src.length = nread ∧ Holds s.mem (srcAddr s.latch) src ∧
        encodeTo s h n nread L = .next (completeCount
          (storeBytes s (dstAddr s.latch) (encodeCore (slotAt s h).alpha src L)) (ceilDiv L 5)))) := by
  by_cases hr : RangesOk s (srcAddr s.latch) n (dstAddr s.latch) (ceilDiv L 5)
  · refine .inr ⟨hr, ?_⟩
    have hb := (buffersOk_iff s _ _ _ _).2 hr
    simp only [encodeTo, hb]
    split
    · simp at *
    · split
      · rename_i f hf
        obtain ⟨x, h1, h2, hx, rfl⟩ := readBytes_error _ _ _ _ hf
        exact .inl ⟨x, h1, h2, hx, rfl⟩
      · rename_i src hs
        obtain ⟨h1, h2⟩ := (readBytes_eq_ok_iff _ _ _ _).1 hs
        exact .inr ⟨src, h1, h2, rfl⟩
  · refine .inl ⟨hr, ?_⟩
    have hb := (buffersOk_eq_false_iff s _ _ _ _).2 hr
    simp [encodeTo, hb]

/-- Everything `decodeTo` can answer. -/
theorem decodeTo_cases (s : State) (h : Nat) (mode : DecMode) :
    let L := lengthArg s.latch
    let ranges := RangesOk s (srcAddr s.latch) L (dstAddr s.latch) (outCount L mode)
    let r := decodeCore (slotAt s h).dt (fun i => readByte s.mem (srcAddr s.latch + i)) L mode
    (¬ ranges ∧ decodeTo s h mode = .next (raiseError s .addrRange)) ∨
    (ranges ∧
      ((∃ i, r.2 = .unread i ∧ decodeTo s h mode = .fault (.unwrittenMem (srcAddr s.latch + i))) ∨
       (∃ i, r.2 = .corrupt i ∧ decodeTo s h mode = .next (raiseError (storeBytes s (dstAddr s.latch) r.1)
          .corruptInput { offset := i, count := r.1.length })) ∨
       (r.2 = .ok ∧ decodeTo s h mode = .next (completeCount
          (storeBytes s (dstAddr s.latch) r.1) r.1.length)))) := by
  intro L ranges r
  by_cases hr : ranges
  · refine .inr ⟨hr, ?_⟩
    have hb := (buffersOk_iff s _ _ _ _).2 hr
    have he : decodeTo s h mode = (match r.2 with
        | .unread i => .fault (.unwrittenMem (srcAddr s.latch + i))
        | .corrupt i => .next (raiseError (storeBytes s (dstAddr s.latch) r.1) .corruptInput
            { offset := i, count := r.1.length })
        | .ok => .next (completeCount (storeBytes s (dstAddr s.latch) r.1) r.1.length)) := by
      simp only [decodeTo]
      exact if_neg (by simp only [Bool.not_eq_true', Bool.not_eq_false]; exact hb)
    rw [he]
    cases h2 : r.2 with
    | ok => exact .inr (.inr ⟨rfl, rfl⟩)
    | corrupt i => exact .inr (.inl ⟨i, rfl, rfl⟩)
    | unread i => exact .inl ⟨i, rfl, rfl⟩
  · refine .inl ⟨hr, ?_⟩
    have hb := (buffersOk_eq_false_iff s _ _ _ _).2 hr
    simp only [decodeTo]
    rw [if_pos (by simp only [Bool.not_eq_true']; exact hb)]

/-- Everything regions (b) and (c) of SENC_WRITE can do. -/
theorem sencInterior_cases (s : State) (p : List Byte) (acc : Nat) :
    (5 ≤ p.length ∧ ∃ nn, nn = min s.params.encStageBytes (p.length - p.length % 5) ∧
      sencInterior s p acc
        = sinkWrite s (encodeCore (streamAlphabet s) (p.take nn) (8 * nn)) (.sencGroup nn p acc)) ∨
    (p.length < 5 ∧ sencInterior s p acc = completeCount (setFringe s p) (lengthArg s.latch)) := by
  by_cases h : 5 ≤ p.length
  · exact .inl ⟨h, _, rfl, by simp [sencInterior, h]⟩
  · exact .inr ⟨by omega, by simp [sencInterior, h]⟩

/-- Everything region (a) of SENC_WRITE can do. -/
theorem sencTopUp_cases (s : State) (p : List Byte) :
    (s.senc.buf = [] ∧ sencTopUp s p = sencInterior s p 0) ∨
    (s.senc.buf ≠ [] ∧ ∃ t buf, t = min p.length (5 - s.senc.buf.length) ∧ buf = s.senc.buf ++ p.take t ∧
      ((buf.length < 5 ∧ sencTopUp s p = completeCount (setFringe s buf) (lengthArg s.latch)) ∨
       (5 ≤ buf.length ∧ sencTopUp s p = sinkWrite (setFringe s buf)
          (encodeCore (streamAlphabet s) (buf.take 5) 40) (.sencFringe (p.drop t) t)))) := by
  by_cases h : s.senc.buf = []
  · exact .inl ⟨h, by simp [sencTopUp, h]⟩
  · refine .inr ⟨h, _, _, rfl, rfl, ?_⟩
    have h' : s.senc.buf.isEmpty = false := by simpa using h
    by_cases h5 : (s.senc.buf ++ p.take (min p.length (5 - s.senc.buf.length))).length < 5
    · exact .inl ⟨h5, by simp only [sencTopUp, h']; rw [if_neg (by simp), if_pos h5]⟩
    · exact .inr ⟨by omega, by simp only [sencTopUp, h']; rw [if_neg (by simp), if_neg h5]⟩

/-- Everything a sink answer can do. -/
theorem sinkStep_cases (s : State) (tx : Nat) (a : SinkAnswer) :
    sinkStep s tx a = .refused .noSuchTransaction ∨
    (s.sinkLog[tx]?.map SinkTx.reply = some .abandoned ∧ sinkStep s tx a = .next s) ∨
    (s.sinkLog[tx]?.map SinkTx.reply = some .pending ∧
      ((∃ p t, s.cont = some (.sencFringe p t) ∧
          sinkStep s tx a = .next (afterFringe (logSinkAnswer s tx a) p t a)) ∨
       (∃ nn p acc, s.cont = some (.sencGroup nn p acc) ∧
          sinkStep s tx a = .next (afterGroup (logSinkAnswer s tx a) nn p acc a)) ∨
       (s.cont = some .sencClose ∧ sinkStep s tx a = .next (afterClose (logSinkAnswer s tx a) a)))) := by
  unfold sinkStep
  split
  · exact .inr (.inl ⟨by assumption, rfl⟩)
  · rename_i hp
    split
    · exact .inr (.inr ⟨hp, .inl ⟨_, _, by assumption, rfl⟩⟩)
    · exact .inr (.inr ⟨hp, .inr (.inl ⟨_, _, _, by assumption, rfl⟩)⟩)
    · exact .inr (.inr ⟨hp, .inr (.inr ⟨by assumption, rfl⟩)⟩)
    all_goals exact .inl rfl
  all_goals exact .inl rfl

/-- Everything a source answer can do. -/
theorem sourceStep_cases (s : State) (tx : Nat) (a : SourceAnswer) :
    sourceStep s tx a = .refused .noSuchTransaction ∨ sourceStep s tx a = .refused .sourceOverrun ∨
    (s.srcLog[tx]?.map SourceTx.reply = some .abandoned ∧ sourceStep s tx a = .next s) ∨
    (∃ e, s.srcLog[tx]? = some e ∧ e.reply = .pending ∧ a.syms.length ≤ e.max ∧ s.cont = some .sdecPull ∧
      sourceStep s tx a = .next (afterPull (logSourceAnswer s tx a) a)) := by
  unfold sourceStep
  split
  · exact .inl rfl
  · rename_i e he
    split
    · exact .inr (.inl rfl)
    · split
      · rename_i hr
        exact .inr (.inr (.inl ⟨by simp [he, hr], rfl⟩))
      · rename_i hr
        split
        · exact .inr (.inr (.inr ⟨e, he, hr, by omega, by assumption, rfl⟩))
        all_goals exact .inl rfl
      · exact .inl rfl

end Sys2Proof.Laws
end

