-- ==== Sys2Proof/Laws/Exec.lean ====
section
/-!
SUPPORT. Everything a command's step can do when it answers a next state, said once for all commands: the
proofs of whole-machine rules take `exec_next` apart by cases and unfold no meaning.
-/

namespace Sys2Proof.Laws

open Sys2Proof.Machine

/-- The next states of command `i` from `s`. -/
inductive ExecNext (s : State) : Instr → State → Prop where
  /-- A check failed (60_exceptions.md R254). -/
  | failed (i : Instr) (e : ErrCode)
      (he : e ∈ ([.badHandle, .streamState, .invalidArg, .bitRange, .addrRange] : List ErrCode)) :
      ExecNext s i (raiseError s e)
  /-- The sticky error of the Streaming Encoder (43_stream_encoder.md R197). -/
  | sticky (i : Instr) (hi : i = .sencWrite ∨ i = .sencClose) (hf : s.senc.state = .failed) :
      ExecNext s i (raiseError s .ioError { code := s.senc.err })
  /-- The command only completes: NOP, the lookups, the lengths, a second close. -/
  | done (i : Instr) (r0 r1 : Word) : ExecNext s i (completeWith s r0 r1 false)
  /-- LUT_LOAD loaded its slot. -/
  | loaded (h : Nat) (sym : Vector Byte 32) (hc : canLoad s h = true) :
      ExecNext s (.lutLoad h) (completeWith (loadSlot s h sym) 0 0 false)
  /-- ENC and ENC_BITS stored their symbols. -/
  | encoded (i : Instr) (h n L : Nat) (src : List Byte) (hi : i = .enc h ∨ i = .encBits h)
      (hu : usable s h = true) (hr : RangesOk s (srcAddr s.latch) n (dstAddr s.latch) (ceilDiv L 5)) :
      ExecNext s i (completeCount
        (storeBytes s (dstAddr s.latch) (encodeCore (slotAt s h).alpha src L)) (ceilDiv L 5))
  /-- DEC and DEC_BITS stored their bytes, with or without a corrupt symbol. -/
  | decoded (i : Instr) (h : Nat) (mode : DecMode) (out : List Byte) (en : DecEnd)
      (hi : i = .dec h ∨ i = .decBits h) (hu : usable s h = true)
      (hr : RangesOk s (srcAddr s.latch) (lengthArg s.latch) (dstAddr s.latch)
        (outCount (lengthArg s.latch) mode))
      (hd : decodeCore (slotAt s h).dt (fun k => readByte s.mem (srcAddr s.latch + k)) (lengthArg s.latch) mode
        = (out, en)) (t : State)
      (ht : (en = .ok ∧ t = completeCount (storeBytes s (dstAddr s.latch) out) out.length) ∨
        ∃ k, en = .corrupt k ∧ t = raiseError (storeBytes s (dstAddr s.latch) out) .corruptInput
          { offset := k, count := out.length }) :
      ExecNext s i t
  /-- SENC_OPEN made a stream. -/
  | sencOpened (h : Nat) (hu : usable s h = true) :
      ExecNext s (.sencOpen h) (completeWith
        { s with senc := { state := .opened, slot := BitVec.ofNat 3 h, buf := [], err := 0 } } 0 0 false)
  /-- SENC_WRITE read its bytes and began. -/
  | sencWrote (p : List Byte) (ho : s.senc.state = .opened) (hp : p.length = lengthArg s.latch)
      (hf : Fits s (srcAddr s.latch) (lengthArg s.latch)) (hh : Holds s.mem (srcAddr s.latch) p) :
      ExecNext s .sencWrite (sencTopUp s p)
  /-- SENC_CLOSE had no fringe to send. -/
  | sencClosed (ho : s.senc.state = .opened) (hb : s.senc.buf = []) :
      ExecNext s .sencClose (completeWith { s with senc := { s.senc with state := .closed } } 0 0 false)
  /-- SENC_CLOSE sent the final fringe and waits. -/
  | sencClosing (ho : s.senc.state = .opened) (hb : s.senc.buf ≠ []) :
      ExecNext s .sencClose (sinkWrite s
        (encodeCore (streamAlphabet s) s.senc.buf (8 * s.senc.buf.length)) .sencClose)
  /-- SDEC_OPEN made a decoder. -/
  | sdecOpened (h : Nat) (hu : usable s h = true) :
      ExecNext s (.sdecOpen h) (completeWith
        { s with sdec := { isOpen := true, slot := BitVec.ofNat 3 h, buf := [], eof := false } } 0 0 false)
  /-- SDEC_READ pulled and waits. -/
  | sdecPulled (ho : s.sdec.isOpen = true) (hf : Fits s (dstAddr s.latch) (lengthArg s.latch))
      (hn : 0 < lengthArg s.latch) (hb : s.sdec.buf = []) (he : s.sdec.eof = false) :
      ExecNext s .sdecRead (sourcePull s s.params.decChunk .sdecPull)
  /-- SDEC_READ served from the buffer. -/
  | sdecServed (ho : s.sdec.isOpen = true) (hf : Fits s (dstAddr s.latch) (lengthArg s.latch))
      (hn : lengthArg s.latch = 0 ∨ s.sdec.buf ≠ [] ∨ s.sdec.eof = true) :
      ExecNext s .sdecRead (sdecDeliver s)

/-- A guard of a meaning: it fails with its error or lets the rest run. -/
theorem guard_next {c : Bool} {e : ErrCode} {s t : State} {x : Host.Outcome State Fault Refusal}
    (h : (if c then .next (raiseError s e) else x) = .next t) :
    (c = true ∧ t = raiseError s e) ∨ (c = false ∧ x = .next t) := by
  cases c with
  | true => exact .inl ⟨rfl, by simpa using h.symm⟩
  | false => exact .inr ⟨rfl, by simpa using h⟩

theorem needsPull_iff (s : State) :
    needsPull s = true ↔ 0 < lengthArg s.latch ∧ s.sdec.buf = [] ∧ s.sdec.eof = false := by
  simp [needsPull, and_assoc]

/-- Every next state of a command is one of those of `ExecNext`. -/
theorem exec_next {i : Instr} {s t : State} (h : exec i s = .next t) : ExecNext s i t := by
  cases i with
  | nop => cases h; exact .done _ 0 0
  | encLen => cases h; exact .done _ _ _
  | decLen => cases h; exact .done _ _ _
  | symLookup k =>
    rcases guard_next h with ⟨-, rfl⟩ | ⟨-, h⟩
    · exact .failed _ _ (by simp)
    · cases h; exact .done _ _ _
  | dtLookup k =>
    rcases guard_next h with ⟨-, rfl⟩ | ⟨-, h⟩
    · exact .failed _ _ (by simp)
    · cases h; exact .done _ _ _
  | lutLoad k =>
    rcases guard_next h with ⟨-, rfl⟩ | ⟨hc, h⟩
    · exact .failed _ _ (by simp)
    rcases guard_next h with ⟨-, rfl⟩ | ⟨-, h⟩
    · exact .failed _ _ (by simp)
    split at h
    · cases h
    · cases h; exact .loaded _ _ (by simpa using hc)
  | enc k =>
    rcases guard_next h with ⟨-, rfl⟩ | ⟨hu, h⟩
    · exact .failed _ _ (by simp)
    rcases encodeTo_cases s k (lengthArg s.latch) (lengthArg s.latch) (8 * lengthArg s.latch)
      with ⟨-, he⟩ | ⟨hr, ⟨x, -, -, -, he⟩ | ⟨src, -, -, he⟩⟩ <;> rw [he] at h <;> cases h
    · exact .failed _ _ (by simp)
    · exact .encoded _ k _ _ src (.inl rfl) (by simpa using hu) hr
  | encBits k =>
    rcases guard_next h with ⟨-, rfl⟩ | ⟨hu, h⟩
    · exact .failed _ _ (by simp)
    split at h
    · cases h; exact .failed _ _ (by simp)
    split at h
    · cases h; exact .failed _ _ (by simp)
    rcases encodeTo_cases s k (lengthArg s.latch) (ceilDiv (bitCount s.latch).toNat 8) (bitCount s.latch).toNat
      with ⟨-, he⟩ | ⟨hr, ⟨x, -, -, -, he⟩ | ⟨src, -, -, he⟩⟩ <;> rw [he] at h <;> cases h
    · exact .failed _ _ (by simp)
    · exact .encoded _ k _ _ src (.inr rfl) (by simpa using hu) hr
  | dec k =>
    rcases guard_next h with ⟨-, rfl⟩ | ⟨hu, h⟩
    · exact .failed _ _ (by simp)
    rcases decodeTo_cases s k .aligned with ⟨-, he⟩ | ⟨hr, ⟨x, -, he⟩ | ⟨x, hx, he⟩ | ⟨hx, he⟩⟩ <;>
      rw [he] at h <;> cases h
    · exact .failed _ _ (by simp)
    · exact .decoded _ k .aligned _ _ (.inl rfl) (by simpa using hu) hr rfl _ (.inr ⟨x, hx, rfl⟩)
    · exact .decoded _ k .aligned _ _ (.inl rfl) (by simpa using hu) hr rfl _ (.inl ⟨hx, rfl⟩)
  | decBits k =>
    rcases guard_next h with ⟨-, rfl⟩ | ⟨hu, h⟩
    · exact .failed _ _ (by simp)
    split at h
    · cases h; exact .failed _ _ (by simp)
    rcases decodeTo_cases s k (.bits (bitCount s.latch).toNat)
      with ⟨-, he⟩ | ⟨hr, ⟨x, -, he⟩ | ⟨x, hx, he⟩ | ⟨hx, he⟩⟩ <;> rw [he] at h <;> cases h
    · exact .failed _ _ (by simp)
    · exact .decoded _ k _ _ _ (.inr rfl) (by simpa using hu) hr rfl _ (.inr ⟨x, hx, rfl⟩)
    · exact .decoded _ k _ _ _ (.inr rfl) (by simpa using hu) hr rfl _ (.inl ⟨hx, rfl⟩)
  | sencOpen k =>
    rcases guard_next h with ⟨-, rfl⟩ | ⟨hu, h⟩
    · exact .failed _ _ (by simp)
    · cases h; exact .sencOpened k (by simpa using hu)
  | sencWrite =>
    simp only [exec, execSencWrite] at h
    split at h
    · cases h; exact .failed _ _ (by simp)
    · cases h; exact .failed _ _ (by simp)
    · cases h; exact .sticky _ (.inl rfl) (by assumption)
    · rename_i ho
      rcases guard_next h with ⟨-, rfl⟩ | ⟨hr, h⟩
      · exact .failed _ _ (by simp)
      split at h
      · cases h
      · rename_i p hp
        cases h
        obtain ⟨h1, h2⟩ := (readBytes_eq_ok_iff _ _ _ _).1 hp
        exact .sencWrote p ho h1 ((inRange_iff _ _ _).1 (by simpa using hr)) h2
  | sencClose =>
    simp only [exec, execSencClose] at h
    split at h
    · cases h; exact .failed _ _ (by simp)
    · cases h; exact .done _ _ _
    · cases h; exact .sticky _ (.inr rfl) (by assumption)
    · rename_i ho
      split at h
      · rename_i hb
        cases h; exact .sencClosed ho (by simpa using hb)
      · rename_i hb
        cases h; exact .sencClosing ho (by simpa using hb)
  | sdecOpen k =>
    rcases guard_next h with ⟨-, rfl⟩ | ⟨hu, h⟩
    · exact .failed _ _ (by simp)
    · cases h; exact .sdecOpened k (by simpa using hu)
  | sdecRead =>
    rcases guard_next h with ⟨-, rfl⟩ | ⟨ho, h⟩
    · exact .failed _ _ (by simp)
    rcases guard_next h with ⟨-, rfl⟩ | ⟨hf, h⟩
    · exact .failed _ _ (by simp)
    have ho' : s.sdec.isOpen = true := by simpa using ho
    have hf' := (inRange_iff _ _ _).1 (show inRange s.params _ _ = true by simpa using hf)
    split at h
    · rename_i hn
      obtain ⟨h1, h2, h3⟩ := (needsPull_iff s).1 hn
      cases h; exact .sdecPulled ho' hf' h1 h2 h3
    · rename_i hn
      cases h
      refine .sdecServed ho' hf' ?_
      rw [needsPull_iff] at hn
      by_cases h1 : lengthArg s.latch = 0
      · exact .inl h1
      · by_cases h2 : s.sdec.buf = []
        · exact .inr (.inr (by simpa [Nat.pos_of_ne_zero h1, h2] using hn))
        · exact .inr (.inl h2)

end Sys2Proof.Laws
end

