-- ==== Sys2Proof/Laws/PerInstr.lean ====
section
/-!
SUPPORT. What holds of every instruction as syntax, one lemma per constructor.
-/

namespace Sys2Proof.Laws.EncodedFields

open Sys2Proof

/-- The three fields of a command's word (30_encoding.md R81): RSV is 0, HSEL is the slot number and OPC is
the operation code. -/
abbrev Fields (i : Instr) : Prop :=
  rsvField (encode i) = 0 ∧ hselField (encode i) = i.hsel ∧ (opcField (encode i)).setWidth 32 = i.opc

/-- A well-formed command's word has its fields. -/
def Statement (i : Instr) : Prop := i.wellFormed = true → Fields i

theorem nop : Statement .nop := fun _ => by decide

theorem lutLoad (h : Nat) : Statement (.lutLoad h) :=
  fun w => (by decide : ∀ k < 8, Fields (.lutLoad k)) h (of_decide_eq_true w)

theorem symLookup (h : Nat) : Statement (.symLookup h) :=
  fun w => (by decide : ∀ k < 8, Fields (.symLookup k)) h (of_decide_eq_true w)

theorem dtLookup (h : Nat) : Statement (.dtLookup h) :=
  fun w => (by decide : ∀ k < 8, Fields (.dtLookup k)) h (of_decide_eq_true w)

theorem enc (h : Nat) : Statement (.enc h) :=
  fun w => (by decide : ∀ k < 8, Fields (.enc k)) h (of_decide_eq_true w)

theorem encBits (h : Nat) : Statement (.encBits h) :=
  fun w => (by decide : ∀ k < 8, Fields (.encBits k)) h (of_decide_eq_true w)

theorem encLen : Statement .encLen := fun _ => by decide

theorem decLen : Statement .decLen := fun _ => by decide

theorem dec (h : Nat) : Statement (.dec h) :=
  fun w => (by decide : ∀ k < 8, Fields (.dec k)) h (of_decide_eq_true w)

theorem decBits (h : Nat) : Statement (.decBits h) :=
  fun w => (by decide : ∀ k < 8, Fields (.decBits k)) h (of_decide_eq_true w)

theorem sencOpen (h : Nat) : Statement (.sencOpen h) :=
  fun w => (by decide : ∀ k < 8, Fields (.sencOpen k)) h (of_decide_eq_true w)

theorem sencWrite : Statement .sencWrite := fun _ => by decide

theorem sencClose : Statement .sencClose := fun _ => by decide

theorem sdecOpen (h : Nat) : Statement (.sdecOpen h) :=
  fun w => (by decide : ∀ k < 8, Fields (.sdecOpen k)) h (of_decide_eq_true w)

theorem sdecRead : Statement .sdecRead := fun _ => by decide

end Sys2Proof.Laws.EncodedFields
end

