-- ==== Sys2Proof/Laws/Step.lean ====
section
/-!
SUPPORT. Everything one step of the whole block can do: the step by its input, and the host's transactions
by what they change.
-/

namespace Sys2Proof.Laws

open Sys2Proof.Machine

@[simp] theorem step_of_no_input (s : State) (h : s.inputs = []) : step s = coreStep s := by
  simp [step, h]

/-- A step is that of the next input's agent. -/
theorem step_cons (s : State) (e : Input) (rest : List Input) :
    step { s with inputs := e :: rest } = inputStep e { s with inputs := rest } := rfl

/-- A step that answers a next state: the core's turn with no input to come, or an input's. -/
theorem step_next {s t : State} (h : step s = .next t) :
    (s.inputs = [] ∧ coreStep s = .next t) ∨
    ∃ e rest, s.inputs = e :: rest ∧ inputStep e { s with inputs := rest } = .next t := by
  unfold step at h
  split at h
  · exact .inl ⟨by assumption, h⟩
  · exact .inr ⟨_, _, by assumption, h⟩

/-- Everything a write of CMD can do. -/
theorem writeCmd_cases (held : Bool) (w : Word) (s : State) :
    (s.status.busy = true ∧ writeCmd held w s = .next { s with status := { s.status with ovr := true } }) ∨
    (s.status.busy = false ∧
      ((∃ why, decodeWord w = .error why ∧ writeCmd held w s = .next (raiseError (accept s w) .illegalCmd)) ∨
       (∃ i, decodeWord w = .ok i ∧ held = true ∧
          writeCmd held w s = .next { accept s w with cont := some (.start i) }) ∨
       ∃ i, decodeWord w = .ok i ∧ held = false ∧ writeCmd held w s = exec i (accept s w))) := by
  unfold writeCmd
  cases hb : s.status.busy with
  | true => exact .inl ⟨rfl, rfl⟩
  | false =>
    refine .inr ⟨rfl, ?_⟩
    cases hd : decodeWord w with
    | error why => exact .inl ⟨why, rfl, rfl⟩
    | ok i =>
      cases held with
      | true => exact .inr (.inl ⟨i, rfl, rfl, rfl⟩)
      | false => exact .inr (.inr ⟨i, rfl, rfl, rfl⟩)

/-- The next states of one bus transaction of the host. -/
inductive HostNext (s : State) (held : Bool) : HostOp → State → Prop where
  /-- A read: only the host's log grows, and the draws. -/
  | read (op : HostOp) (v : HostSeen) (d : Nat) :
      HostNext s held op { s with hostLog := s.hostLog ++ [v], draws := d }
  /-- A write of CMD. -/
  | cmd (w : Word) (t : State) (h : writeCmd held w s = .next t) :
      HostNext s held (.regWrite 32 0x00 w) t
  /-- A write of CTRL. -/
  | ctrl (w : Word) : HostNext s held (.regWrite 32 0x28 w) (writeCtrl w s)
  /-- A write of an operand register. -/
  | arg (offset : Nat) (w x0 x1 x2 x3 : Word) (ho : offset ≠ 0x28) :
      HostNext s held (.regWrite 32 offset w) { s with arg0 := x0, arg1 := x1, arg2 := x2, arg3 := x3 }
  /-- A write that is ignored. -/
  | ignored (offset : Nat) (w : Word) (ho : offset ≠ 0x28) : HostNext s held (.regWrite 32 offset w) s
  /-- A write of MEM. -/
  | mem (a : Nat) (b : Byte) (ha : a < s.params.memBytes) (hr : races s a = false) :
      HostNext s held (.memWrite a b) { s with mem := writeByte s.mem a b }

/-- Every next state of a bus transaction is one of those of `HostNext`. -/
theorem hostStep_next {s t : State} {held : Bool} {op : HostOp} (h : hostStep held op s = .next t) :
    HostNext s held op t := by
  cases op with
  | regRead width offset =>
    simp only [hostStep] at h
    split at h
    · cases h
      unfold hostReadReg
      split
      · exact .read _ _ _
      · exact .read _ _ s.draws
    · cases h
  | regWrite width offset w =>
    simp only [hostStep] at h
    split at h
    · rename_i hl
      obtain rfl : width = 32 := by
        simp only [legalRegAccess, Bool.and_eq_true, decide_eq_true_eq] at hl; exact hl.1.1
      unfold hostWriteReg at h
      split at h
      · exact .cmd w t h
      · cases h; exact .arg _ w w s.arg1 s.arg2 s.arg3 (by decide)
      · cases h; exact .arg _ w s.arg0 w s.arg2 s.arg3 (by decide)
      · cases h; exact .arg _ w s.arg0 s.arg1 w s.arg3 (by decide)
      · cases h; exact .arg _ w s.arg0 s.arg1 s.arg2 w (by decide)
      · cases h; exact .ctrl w
      · rename_i h28
        cases h; exact .ignored _ w h28
    · cases h
  | memRead a =>
    simp only [hostStep] at h
    split at h
    · unfold hostReadMem at h
      split at h
      · cases h
      split at h
      · cases h
      · cases h; exact .read _ _ s.draws
    · cases h
  | memWrite a b =>
    simp only [hostStep] at h
    split at h
    · rename_i ha
      unfold hostWriteMem at h
      split at h
      · cases h
      · rename_i hr
        cases h; exact .mem a b ha (by simpa using hr)
    · cases h

/-- A poll of WAIT changes only the host's log and the host's program. -/
theorem waitPoll_eq (rest : List HostMove) (s : State) :
    waitPoll rest s = { s with
      hostLog := s.hostLog ++ [.reg 0x04 (regValue s 0x04)]
      program := if s.status.busy then .wait :: rest else outcomeReads ++ rest } := by
  have hd : readIsDraw s 0x04 = false := by simp [readIsDraw]
  unfold waitPoll hostReadReg
  rw [hd]
  cases s.status.busy <;> rfl

/-- Everything the host's next transaction can do: nothing is left, a bus transaction, or a poll of WAIT. -/
theorem programStep_cases (held : Bool) (s : State) :
    (s.program = [] ∧ programStep held s = .next s) ∨
    (∃ o rest, s.program = .op o :: rest ∧ programStep held s = hostStep held o { s with program := rest }) ∨
    ∃ rest, s.program = .wait :: rest ∧ programStep held s = .next (waitPoll rest s) := by
  unfold programStep
  split
  · exact .inl ⟨by assumption, rfl⟩
  · exact .inr (.inl ⟨_, _, by assumption, rfl⟩)
  · exact .inr (.inr ⟨_, by assumption, rfl⟩)

/-- Everything the core's turn can do. -/
theorem coreStep_next {s t : State} (h : coreStep s = .next t) :
    (t = s ∧ ∀ i, s.cont ≠ some (.start i)) ∨
    ∃ i, s.cont = some (.start i) ∧ exec i { s with cont := none } = .next t := by
  unfold coreStep at h
  split at h
  · exact .inr ⟨_, by assumption, h⟩
  all_goals (cases h; exact .inl ⟨rfl, by simp_all⟩)

/-- A write of CTRL: a soft reset, a clear of OVR, or nothing. -/
theorem writeCtrl_cases (w : Word) (s : State) :
    (w.getLsbD 0 = true ∧ writeCtrl w s = softReset s) ∨
    (w.getLsbD 0 = false ∧ w.getLsbD 1 = true ∧
      writeCtrl w s = { s with status := { s.status with ovr := false } }) ∨
    (w.getLsbD 0 = false ∧ w.getLsbD 1 = false ∧ writeCtrl w s = s) := by
  unfold writeCtrl
  cases h0 : w.getLsbD 0 with
  | true => exact .inl ⟨rfl, rfl⟩
  | false =>
    cases h1 : w.getLsbD 1 with
    | true => exact .inr (.inl ⟨rfl, rfl, rfl⟩)
    | false => exact .inr (.inr ⟨rfl, rfl, rfl⟩)

end Sys2Proof.Laws
end

