-- ==== Sys2Proof/Tests/Slice0.lean ====
section
/-!
SUPPORT. Small tests, each of one step, with expected results from 95_test_vectors.md or from the examples of
the rule named; the ill-formed terms that WellFormed refuses; and, for each statement with hypotheses, a
concrete state and operands that meet them.
-/

namespace Sys2Proof.Tests

open Sys2Proof Sys2Proof.Machine

/-! ## Helpers -/

/-- The next state, if the outcome is one. -/
def next? (o : Host.Outcome State Fault Refusal) : Option State :=
  match o with
  | .next s => some s
  | .fault _ => none
  | .refused _ => none

/-- The fault, if the outcome is one. -/
def fault? (o : Host.Outcome State Fault Refusal) : Option Fault :=
  match o with
  | .next _ => none
  | .fault f => some f
  | .refused _ => none

/-- The refusal, if the outcome is one. -/
def refused? (o : Host.Outcome State Fault Refusal) : Option Refusal :=
  match o with
  | .next _ => none
  | .fault _ => none
  | .refused r => some r

/-- After reset, with the operand registers written and some bytes of MEM. -/
def idle (a0 a1 a2 a3 : Word) (a : Nat := 0) (bs : List Byte := []) : State :=
  { State.reset with arg0 := a0, arg1 := a1, arg2 := a2, arg3 := a3, mem := writeBytes [] a bs }

/-- The same, with an open encoder stream on slot `h` holding the fringe `buf`. -/
def encoding (h : BitVec 3) (buf : List Byte) (s : State) : State :=
  { s with senc := { state := .opened, slot := h, buf := buf, err := 0 } }

/-- The same, with an open decoder on slot 0 holding `buf`. -/
def decoding (buf : List Byte) (eof : Bool) (s : State) : State :=
  { s with sdec := { isOpen := true, slot := 0, buf := buf, eof := eof } }

/-- The step of the host's write of a word to CMD. -/
def issue (s : State) (w : Word) : Option State := next? (step { s with inputs := [issueWord w] })

/-- The step of an input. -/
def after (e : Input) (s : State) : Option State := next? (step { s with inputs := [e] })

/-- n bytes of MEM. -/
def look (s : State) (a n : Nat) : List (Option Byte) := (List.range n).map (fun k => readByte s.mem (a + k))

/-- What the host reads after a command: STATUS, RES0, ERR_OFFSET, IO_CODE. -/
def outcome (s : State) : List Word := [regValue s 0x04, regValue s 0x18, regValue s 0x20, regValue s 0x24]

/-- The text of the ASCII bytes of a string. -/
def text (t : String) : List Byte := asciiBytes t

/-! ## WellFormed refuses -/

theorem test_wellFormed_hsel : (Instr.enc 8).wellFormed = false ∧ (Instr.enc 7).wellFormed = true := by decide
theorem test_legal_default : Params.default.legal = true := by decide
theorem test_legal_memBytes : { Params.default with memBytes := 63 }.legal = false := by decide
theorem test_legal_memBytes_high : { Params.default with memBytes := 2 ^ 31 + 1 }.legal = false := by decide
theorem test_legal_numSlots : { Params.default with numSlots := 1 }.legal = false := by decide
theorem test_legal_numSlots_high : { Params.default with numSlots := 9 }.legal = false := by decide
theorem test_legal_encStage : { Params.default with encStageBytes := 641 }.legal = false := by decide
theorem test_legal_decChunk : { Params.default with decChunk := 4 }.legal = false := by decide
theorem test_legal_symbol_class : { Params.default with alpha11 := 0x6D }.legal = false := by decide
theorem test_legal_symbols_distinct : { Params.default with alpha11 := 0x43 }.legal = false := by decide
theorem test_legal_symbol_taken : { Params.default with alpha11 := 0x59 }.legal = false := by decide

/-! ## Decoding, from the encoding column of 30_encoding.md R85, bit 31 first -/

theorem test_decode_nop : decodeWord 0b00000000000000000000000000000000 = .ok .nop := by decide
theorem test_decode_lutLoad : decodeWord 0b00000000000000000000001000000001 = .ok (.lutLoad 2) := by decide
theorem test_decode_symLookup : decodeWord 0b00000000000000000000000100000010 = .ok (.symLookup 1) := by decide
theorem test_decode_dtLookup : decodeWord 0b00000000000000000000011100000011 = .ok (.dtLookup 7) := by decide
theorem test_decode_enc : decodeWord 0b00000000000000000000010100010000 = .ok (.enc 5) := by decide
theorem test_decode_encBits : decodeWord 0b00000000000000000000000000010001 = .ok (.encBits 0) := by decide
theorem test_decode_encLen : decodeWord 0b00000000000000000000000000010010 = .ok .encLen := by decide
theorem test_decode_decLen : decodeWord 0b00000000000000000000000000010011 = .ok .decLen := by decide
theorem test_decode_dec : decodeWord 0b00000000000000000000010000100000 = .ok (.dec 4) := by decide
theorem test_decode_decBits : decodeWord 0b00000000000000000000011000100001 = .ok (.decBits 6) := by decide
theorem test_decode_sencOpen : decodeWord 0b00000000000000000000000100110000 = .ok (.sencOpen 1) := by decide
theorem test_decode_sencWrite : decodeWord 0b00000000000000000000000000110001 = .ok .sencWrite := by decide
theorem test_decode_sencClose : decodeWord 0b00000000000000000000000000110010 = .ok .sencClose := by decide
theorem test_decode_sdecOpen : decodeWord 0b00000000000000000000001101000000 = .ok (.sdecOpen 3) := by decide
theorem test_decode_sdecRead : decodeWord 0b00000000000000000000000001000001 = .ok .sdecRead := by decide
theorem test_decode_reserved : decodeWord 0x00000810 = .error .reservedBits := by decide
theorem test_decode_unassigned : decodeWord 0x00000004 = .error .unassignedOpcode := by decide
theorem test_decode_handle_not_taken : decodeWord 0x00000132 = .error .handleNotTaken := by decide
theorem test_decodeTableWord : decodeTableWord 32 0x130 = some (.sencOpen 1) ∧ decodeTableWord 32 4 = none := by
  decide

/-! ## Commands on the tables -/

/-- 40_alphabet_lut.md R112. -/
theorem test_nop : (issue { idle 0 0 0 0 with res0 := 7, ioCode := 9, errOffset := 5 } 0).map outcome
    = some [2, 0, 0, 0] := by decide
/-- V-X1 and V-X7. -/
theorem test_illegal : (issue (idle 0 0 0 0) 4).map outcome = some [0x402, 0, 0, 0] ∧
    (issue (idle 0 0 0 0) 0x132).map outcome = some [0x402, 0, 0, 0] := by decide
/-- Program P2: LUT_LOAD h2. -/
theorem test_lutLoad : (issue (idle 0x40 0 0 0 0x40 (text "0123456789ABCDEFGHJKMNPQRSTVWXYZ")) 0x201).map
      (fun t => (outcome t, regValue t 0x30, (slotAt t 2).alpha[31], (slotAt t 2).dt[0x4F]))
    = some ([2, 0, 0, 0], 7, 0x5A, 0xFF) := by decide
/-- 40_alphabet_lut.md R109: a ROM slot, and a slot that does not exist, are refused. -/
theorem test_lutLoad_badHandle : (issue (idle 0 0 0 0) 0x101).map outcome = some [0x502, 0, 0, 0] ∧
    (issue (idle 0 0 0 0) 0x401).map outcome = some [0x502, 0, 0, 0] := by decide
/-- 40_alphabet_lut.md R110. -/
theorem test_symLookup : (issue (idle 16 0 0 0) 0x002).map outcome = some [2, 0x30, 0, 0] ∧
    (issue (idle 28 0 0 0) 0x102).map outcome = some [2, 0x68, 0, 0] := by decide
/-- 40_alphabet_lut.md R110: the bits above 4 are ignored. -/
theorem test_symLookup_high_bits : (issue (idle 0x25 0 0 0) 0x002).map outcome
    = (issue (idle 5 0 0 0) 0x002).map outcome := by decide
/-- 40_alphabet_lut.md R111. -/
theorem test_dtLookup : (issue (idle 0x39 0 0 0) 0x003).map outcome = some [2, 31, 0, 0] ∧
    (issue (idle 0x79 0 0 0) 0x003).map outcome = some [2, 0xFF, 0, 0] := by decide
/-- 60_exceptions.md R259: slot 2 before any LUT_LOAD. -/
theorem test_dtLookup_badHandle : (issue (idle 0 0 0 0) 0x203).map outcome = some [0x502, 0, 0, 0] := by decide

/-! ## Whole-buffer commands -/

/-- 41_encoder.md R135. -/
theorem test_enc : (issue (idle 0 2 0x100 0 0 [0x34, 0x5A]) 0x010).map (fun t => (outcome t, look t 0x100 5))
    = some ([2, 4, 0, 0], [some 0x47, some 0x54, some 0x50, some 0x59, none]) := by decide
/-- V-X5 and V-X6. -/
theorem test_enc_ranges : (issue (idle 0 5 4 0 0 [0, 0, 0, 0, 0]) 0x010).map outcome = some [0x602, 0, 0, 0] ∧
    (issue (idle 0xFFFFFFFF 0 0xFFFFFFFF 0) 0x010).map outcome = some [2, 0, 0, 0] := by decide
/-- 41_encoder.md R136. -/
theorem test_encBits : (issue (idle 0 2 0x100 11 0 [0xFF, 0xFF]) 0x011).map (fun t => (outcome t, look t 0x100 4))
    = some ([2, 3, 0, 0], [some 0x39, some 0x39, some 0x30, none]) := by decide
/-- V-X9, and 60_exceptions.md R256. -/
theorem test_encBits_errors : (issue (idle 0xFFFF 2 0 17) 0x011).map outcome = some [0x702, 0, 0, 0] ∧
    (issue (idle 0xFFFFFFFF 0xFFFFFFFF 0 0xFFFFFFFF) 0x011).map outcome = some [0x202, 0, 0, 0] := by decide
/-- 41_encoder.md R138. -/
theorem test_encLen : (issue (idle 0 0xFFFFFFFF 0 0) 0x012).map (fun t => (t.res0, t.res1))
    = some (0x99999998, 1) := by decide
/-- 41_encoder.md R139. -/
theorem test_decLen : (issue (idle 0 0xFFFFFFFF 0 0) 0x013).map (fun t => (t.res0, t.res1))
    = some (0xA0000000, 0) := by decide
/-- 42_decoder.md R168. -/
theorem test_dec : (issue (idle 0 4 0x100 0 0 (text "GTPY")) 0x020).map (fun t => (outcome t, look t 0x100 3))
    = some ([2, 2, 0, 0], [some 0x34, some 0x5A, none]) := by decide
/-- V-D15: the completed group's bytes stand. -/
theorem test_dec_corrupt : (issue (idle 0 9 0x100 0 0 (text "GTPYGTPYx")) 0x020).map
      (fun t => (outcome t, look t 0x100 6))
    = some ([0x102, 5, 8, 0], [some 0x34, some 0x5A, some 0x03, some 0x45, some 0xA0, none]) := by decide
/-- V-DB2: bits beyond the input come from the zero fill. -/
theorem test_decBits : (issue (idle 0 1 0x100 16 0 (text "9")) 0x021).map (fun t => (outcome t, look t 0x100 3))
    = some ([2, 2, 0, 0], [some 0xF8, some 0x00, none]) := by decide
/-- V-DB5: a group with nothing left to emit is still looked up. -/
theorem test_decBits_corrupt : (issue (idle 0 9 0x100 0 0 (text "99999999!")) 0x021).map
      (fun t => (outcome t, look t 0x100 1)) = some ([0x102, 0, 8, 0], [none]) := by decide

/-! ## The Streaming Encoder -/

/-- 43_stream_encoder.md R191. -/
theorem test_sencOpen : (issue (idle 0 0 0 0) 0x130).map (fun t => (outcome t, regValue t 0x34))
    = some ([2, 0, 0, 0], 0x110) := by decide
/-- V-SE7: slot 2 not loaded. -/
theorem test_sencOpen_badHandle : (issue (idle 0 0 0 0) 0x230).map (fun t => (outcome t, regValue t 0x34))
    = some ([0x502, 0, 0, 0], 0) := by decide
/-- V-SE1: below 5 bytes, no transaction. -/
theorem test_sencWrite : (issue (encoding 0 [] (idle 0 2 0 0 0 [0x34, 0x5A])) 0x031).map
      (fun t => (outcome t, regValue t 0x34, t.sinkLog)) = some ([2, 2, 0, 0], 0x12, []) := by decide
/-- V-SE2: the second write tops the fringe up and sends it. -/
theorem test_sencWrite_topUp : (issue (encoding 0 [1, 2, 3] (idle 0 4 0 0 0 [4, 5, 6, 7])) 0x031).map
      (fun t => (regValue t 0x04, t.sinkLog)) = some (1, [⟨text "YRBYGBYF", .pending⟩]) := by decide
/-- V-SE3: ENC_STAGE_BYTES = 5, the second group answered ERR(0x77). -/
theorem test_sencWrite_sink_error : (after (.sinkAnswer 0 (.err 0x77))
      { encoding 0 [] (idle 0 0 0 0) with
        status := { busy := true, done := false, eof := false, ovr := false, err := .ok }
        sinkLog := [⟨text "YAD00NEK", .pending⟩], cont := some (.sencGroup 5 [6, 7, 8, 9, 10, 11, 12] 5) }).map
      (fun t => (outcome t, regValue t 0x34)) = some ([0x302, 5, 0, 0x77], 0x30) := by decide
/-- V-SE1: the close sends the fringe. -/
theorem test_sencClose : (issue (encoding 0 [0x34, 0x5A] (idle 0 0 0 0)) 0x032).map
      (fun t => (regValue t 0x04, t.sinkLog, t.cont))
    = some (1, [⟨text "GTPY", .pending⟩], some .sencClose) := by decide
/-- V-SE7: SENC_CLOSE right after reset. -/
theorem test_sencClose_idle : (issue (idle 0 0 0 0) 0x032).map outcome = some [0x802, 0, 0, 0] := by decide

/-! ## The Streaming Decoder -/

/-- A block that waits for the source's answer to a pull of SDEC_READ with a1 and a2. -/
def pulling (a1 a2 : Word) : State :=
  { decoding [] false (idle 0 0 0 0) with
    cmdReg := 0x41
    latch := { cmd := 0x41, a0 := 0, a1 := a1, a2 := a2, a3 := 0 }
    status := { busy := true, done := false, eof := false, ovr := false, err := .ok }
    srcLog := [⟨1024, .pending⟩]
    cont := some .sdecPull }

/-- 44_stream_decoder.md R221. -/
theorem test_sdecOpen : (issue (idle 0 0 0 0) 0x040).map (fun t => (outcome t, regValue t 0x38))
    = some ([2, 0, 0, 0], 0x20000) := by decide
/-- V-SD1, read 1: the pull. -/
theorem test_sdecRead_pull : (issue (decoding [] false (idle 0 3 0x300 0)) 0x041).map
      (fun t => (regValue t 0x04, t.srcLog)) = some (1, [⟨1024, .pending⟩]) := by decide
/-- V-SD1, read 2: served from the buffer. -/
theorem test_sdecRead_buffer : (issue (decoding [4, 5] false (idle 0 3 0x303 0)) 0x041).map
      (fun t => (outcome t, regValue t 0x38, look t 0x303 3))
    = some ([2, 2, 0, 0], 0x20000, [some 4, some 5, none]) := by decide
/-- V-SD1, read 3: the answer carries the last symbols with EOF. -/
theorem test_source_answer : (after (.sourceAnswer 0 ⟨text "YAD0", .eof⟩) (pulling 3 0x305)).map
      (fun t => (outcome t, regValue t 0x38, look t 0x305 3))
    = some ([6, 2, 0, 0], 0x30000, [some 6, some 7, none]) := by decide
/-- V-SD2, read 1: a corrupt chunk is discarded whole. -/
theorem test_source_corrupt : (after (.sourceAnswer 0 ⟨text "GTPYGTPY!", .ok⟩) (pulling 10 0x300)).map
      (fun t => (outcome t, regValue t 0x38, look t 0x300 1)) = some ([0x102, 0, 8, 0], 0x20000, [none]) := by
  decide

/-! ## The host's port, reset and hazards -/

/-- Program P6. -/
theorem test_reset_registers : [0x00, 0x04, 0x08, 0x14, 0x18, 0x20, 0x24, 0x28, 0x2C, 0x30, 0x34, 0x38, 0x3C, 0x40,
      0x44, 0x48, 0xFC].map (regValue State.reset)
    = [0, 0, 0, 0, 0, 0, 0, 0, 0x5A523332, 3, 0, 0, 0x10000, 0x02800400, 4, 0, 0] := by decide
/-- Program P5: a CMD write while BUSY is dropped. -/
theorem test_dropped_command : (after (issueWord 0) (pulling 3 0x300)).map
      (fun t => (regValue t 0x04, regValue t 0x00)) = some (9, 0x41) := by decide
/-- Program P5: a soft reset abandons the pending transaction. -/
theorem test_soft_reset : (after (.host (.regWrite 32 0x28 1)) (pulling 3 0x300)).map
      (fun t => (regValue t 0x04, regValue t 0x30, t.srcLog, t.cont))
    = some (0, 3, [⟨1024, .abandoned⟩], none) := by decide
/-- 70_reset_and_hazards.md R293, R296. -/
theorem test_faults : fault? (step { idle 0 0 0 0 with inputs := [.host (.memRead 5)] }) = some (.unwrittenMem 5) ∧
    fault? (step { pulling 3 0x300 with inputs := [.host (.memWrite 0x302 0)] }) = some (.hostRace 0x302) ∧
    fault? (step { pulling 3 0x300 with inputs := [.hostHeld (.memRead 0x300)] }) = some (.hostRace 0x300) := by
  decide
/-- 10_state.md R38, 20_memory.md R61, 60_exceptions.md R263. -/
theorem test_refusals :
    refused? (step { idle 0 0 0 0 with inputs := [.host (.regRead 8 0)] }) = some .illegalRegAccess ∧
    refused? (step { idle 0 0 0 0 with inputs := [.host (.memRead 65536)] }) = some .outsideMem ∧
    refused? (step { pulling 3 0x300 with
      srcLog := [⟨2, .pending⟩], inputs := [.sourceAnswer 0 ⟨text "GTP", .ok⟩] })
      = some .sourceOverrun := by decide
/-- The fetch of the host's checks: the step after `withFetchWord` runs the word. -/
theorem test_withFetchWord : (next? (step (State.reset.withFetchWord 32 0x130))).map (fun t => regValue t 0x34)
    = some 0x110 := by decide
/-- 30_encoding.md R92, the example. -/
theorem test_expand : (HostLine.enc 0 0x100 2 0x200).expand
    = [.op (.regWrite 32 0x08 0x100), .op (.regWrite 32 0x0C 2), .op (.regWrite 32 0x10 0x200),
       .op (.regWrite 32 0x00 0x10), .wait] := by decide
/-- 30_encoding.md R92: WAIT polls while BUSY = 1 and reads the outcome once BUSY = 0. -/
theorem test_wait : (after (.program false) { pulling 3 0x300 with program := [.wait] }).map
      (fun t => (t.program, t.hostLog)) = some ([.wait], [.reg 0x04 1]) ∧
    (after (.program false) { idle 0 0 0 0 with program := [.wait] }).map (fun t => (t.program.length, t.hostLog))
      = some (4, [.reg 0x04 0]) := by decide
/-- 30_encoding.md R92: a program's CMD write is an acceptance, and its step the command's. -/
theorem test_program : (after (.program false) ((idle 0 0 0 0).withProgram [.sencOpen 1])).map
      (fun t => (t.program, regValue t 0x34)) = some ([.wait], 0x110) := by decide
/-- 70_reset_and_hazards.md R303: a held command is run by the core with no further input. -/
theorem test_held_progress : ((after (.program true) ((idle 0 0 0 0).withProgram [.sencOpen 1])).bind
      (fun t => next? (step t))).map (fun t => (regValue t 0x04, regValue t 0x34)) = some (2, 0x110) := by decide
/-- 42_decoder.md R161: the symbols after a corrupt one are not read, written or not. -/
theorem test_dec_corrupt_before_unwritten :
    (issue (idle 0x40 3 0x100 0 0x40 (text "Gx")) 0x020).map (fun t => (outcome t, look t 0x100 1))
    = some ([0x102, 0, 1, 0], [none]) := by decide

/-! ## Witnesses: for each statement with hypotheses, concrete states and operands that meet them -/

/-- The block in the core's step of a command, with these latched operands and these bytes of MEM. -/
def latched (cmd a0 a1 a2 a3 : Word) (a : Nat := 0) (bs : List Byte := []) : State :=
  { State.reset with
    cmdReg := cmd
    latch := { cmd := cmd, a0 := a0, a1 := a1, a2 := a2, a3 := a3 }
    mem := writeBytes [] a bs }

/-- The same, with a command running. -/
def running (c : Cont) (s : State) : State :=
  { s with cont := some c, status := { busy := true, done := false, eof := false, ovr := false, err := .ok } }

/-- SENC_WRITE waits for the sink with the topped-up fringe. -/
def fringeWait : State :=
  { running (.sencFringe [6, 7] 2) (encoding 0 [1, 2, 3, 4, 5] (latched 0x31 0 4 0 0)) with
    sinkLog := [⟨text "YRBYGBYF", .pending⟩] }

/-- SENC_WRITE waits for the sink with an interior group. -/
def groupWait : State :=
  { running (.sencGroup 5 [1, 2, 3, 4, 5, 6] 2) (encoding 0 [] (latched 0x31 0 8 0 0)) with
    sinkLog := [⟨text "YYYYYYYY", .answered .ok⟩, ⟨text "YRBYGBYF", .pending⟩] }

/-- SENC_CLOSE waits for the sink. -/
def closeWait : State :=
  { running .sencClose (encoding 0 [0x34, 0x5A] (latched 0x32 0 0 0 0)) with
    sinkLog := [⟨text "GTPY", .pending⟩] }

/-- The stream has failed with code 9. -/
def failed : State :=
  { latched 0x31 0 0 0 0 with senc := { state := .failed, slot := 0, buf := [], err := 9 } }

/-- The decoder is exhausted. -/
def exhausted : State := decoding [] true (latched 0x41 0 3 0x300 0)

/-- The invariant, of a state with the default parameters and no loaded slot. -/
theorem inv_of (s : State) (hp : s.params = Params.default) (hl : s.loadable = Vector.replicate 6 Slot.unloaded)
    (hm : Memory.wf s.mem = true ∧ ∀ c ∈ s.mem, c.1 < 65536)
    (hb : s.cmdReg = s.latch.cmd ∧ s.status.busy = s.cont.isSome ∧
      (s.status.busy = true → s.status.done = false ∧ s.status.eof = false))
    (he : s.senc.slot = 0 ∧ (s.senc.state ≠ .opened → s.senc.buf = []))
    (hf : (∀ p t, s.cont ≠ some (.sencFringe p t)) → s.senc.buf.length ≤ 4)
    (hd : s.sdec.slot = 0 ∧ (s.sdec.isOpen = false → s.sdec.buf = [] ∧ s.sdec.eof = false) ∧
      s.sdec.buf.length ≤ 640)
    (hc : ∀ c, s.cont = some c → c.ok s)
    (hk : (∀ p ∈ s.sinkLog.zipIdx, p.1.reply = .pending ↔
        Cont.waitsSink s.cont = true ∧ p.2 + 1 = s.sinkLog.length) ∧
      (Cont.waitsSink s.cont = true → s.sinkLog ≠ []))
    (hr : (∀ p ∈ s.srcLog.zipIdx, p.1.reply = .pending ↔
        Cont.waitsSource s.cont = true ∧ p.2 + 1 = s.srcLog.length) ∧
      (Cont.waitsSource s.cont = true → s.srcLog ≠ []) ∧ ∀ e ∈ s.srcLog, e.max = 1024) : s.Inv := by
  have slot (j : Nat) : slotAt s (j + 2) = Slot.unloaded := by
    simp only [slotAt, hl]
    by_cases h : j < 6 <;> simp [h]
  have use0 : usable s 0 = true := by simp [usable, slotAt, romSlot, hp, Params.default]
  refine { params_legal := by rw [hp]; decide, mem_wf := hm.1, mem_inside := by rw [hp]; exact hm.2,
           cmd_latched := hb.1, busy_iff := hb.2.1, busy_flags := hb.2.2, slots_built := ?_,
           slots_absent := ?_, senc_bound := fun _ => by rw [he.1]; exact use0, senc_empty := he.2,
           senc_fringe := hf, sdec_bound := fun _ => by rw [hd.1]; exact use0, sdec_closed := hd.2.1,
           sdec_capacity := by rw [hp]; exact hd.2.2, cont_ok := hc, sink_pending := ?_,
           sink_waits := hk.2, source_pending := ?_, source_waits := hr.2.1,
           source_max := by rw [hp]; exact hr.2.2 }
  · rintro (_ | _ | j) h
    · simp only [slotAt, romSlot]
    · simp only [slotAt, romSlot]
    · rw [slot] at h; cases h
  · rintro (_ | _ | j) h
    · rw [hp] at h; exact absurd h (by decide)
    · rw [hp] at h; exact absurd h (by decide)
    · rw [slot]; rfl
  · intro k e h; exact hk.1 (e, k) (List.mk_mem_zipIdx_iff_getElem?.2 h)
  · intro k e h; exact hr.1 (e, k) (List.mk_mem_zipIdx_iff_getElem?.2 h)

theorem inv_pulling : (pulling 3 0x300).Inv := by
  refine inv_of _ rfl rfl (by decide) (by decide) (by decide) (fun _ => by decide) (by decide) ?_ (by decide)
    (by decide)
  rintro _ ⟨⟩; simp only [Cont.ok, Fits]; decide

theorem inv_fringeWait : fringeWait.Inv := by
  refine inv_of _ rfl rfl (by decide) (by decide) (by decide) (fun h => absurd rfl (h _ _)) (by decide) ?_
    (by decide) (by decide)
  rintro _ ⟨⟩; simp only [Cont.ok]; decide

theorem inv_groupWait : groupWait.Inv := by
  refine inv_of _ rfl rfl (by decide) (by decide) (by decide) (fun _ => by decide) (by decide) ?_ (by decide)
    (by decide)
  rintro _ ⟨⟩; simp only [Cont.ok]; decide

theorem inv_closeWait : closeWait.Inv := by
  refine inv_of _ rfl rfl (by decide) (by decide) (by decide) (fun _ => by decide) (by decide) ?_ (by decide)
    (by decide)
  rintro _ ⟨⟩; simp only [Cont.ok]; decide

theorem inv_failed : failed.Inv := by
  refine inv_of _ rfl rfl (by decide) (by decide) (by decide) (fun _ => by decide) (by decide) ?_ (by decide)
    (by decide)
  rintro _ ⟨⟩

theorem inv_exhausted : exhausted.Inv := by
  refine inv_of _ rfl rfl (by decide) (by decide) (by decide) (fun _ => by decide) (by decide) ?_ (by decide)
    (by decide)
  rintro _ ⟨⟩

theorem test_witness_DecodeEncodeRoundTrip : (Instr.sdecOpen 7).wellFormed = true ∧ Instr.nop.wellFormed = true := by
  decide
theorem test_witness_EncodeDecodeRoundTrip : decodeWord 0x740 = .ok (.sdecOpen 7) ∧ decodeWord 0x41 = .ok .sdecRead := by
  decide
theorem test_witness_DecodeFollowsOpcodeTable :
    (0x701 &&& 0xFFFFF8FF : Word) = 0x01 ∧ (0x002 &&& 0xFFFFF8FF : Word) = 0x02 ∧
    (0x103 &&& 0xFFFFF8FF : Word) = 0x03 ∧ (0x710 &&& 0xFFFFF8FF : Word) = 0x10 ∧
    (0x111 &&& 0xFFFFF8FF : Word) = 0x11 ∧ (0x020 &&& 0xFFFFF8FF : Word) = 0x20 ∧
    (0x721 &&& 0xFFFFF8FF : Word) = 0x21 ∧ (0x230 &&& 0xFFFFF8FF : Word) = 0x30 ∧
    (0x740 &&& 0xFFFFF8FF : Word) = 0x40 ∧ (0x12 &&& 0xFFFFFFFF : Word) = 0x12 ∧
    ((0x132 &&& 0xFFFFFFFF : Word) ∉ ([0x00, 0x12, 0x13, 0x31, 0x32, 0x41] : List Word)) ∧
    ((0x132 &&& 0xFFFFF8FF : Word) ∉ ([0x01, 0x02, 0x03, 0x10, 0x11, 0x20, 0x21, 0x30, 0x40] : List Word)) := by
  decide
theorem test_witness_IllegalWordsOnlyComplete : State.reset.status.busy = false ∧
    decodeWord 0x800 = .error .reservedBits ∧ decodeWord 0xFF = .error .unassignedOpcode ∧
    decodeWord 0x741 = .error .handleNotTaken ∧ (0x800 >>> 11 : Word) ≠ 0 ∧ (0x7FF >>> 11 : Word) = 0 := by decide
theorem test_witness_StepRunsDecodedCommand :
    State.reset.status.busy = false ∧ decodeWord 0x740 = .ok (.sdecOpen 7) := by decide
theorem test_witness_HeldCommandRunsOnCoreTurn : State.reset.status.busy = false ∧ State.reset.cont = none ∧
    decodeWord 0x012 = .ok .encLen := by decide
/-- An idle block with OVR set, whose program's next move is a CTRL write without CLR_OVR and SRST. -/
def overrun : State :=
  { idle 0 0 0 0 with
    status := { busy := false, done := true, eof := false, ovr := true, err := .ok }
    program := [.op (.regWrite 32 0x28 0)], inputs := [.program false] }

theorem test_witness_DroppedCmdSetsOvr : (pulling 3 0x300).status.busy = true ∧ overrun.status.ovr = true ∧
    (∃ t, step overrun = .next t) ∧ overrun.resets = false ∧
    overrun.nextOp = some (.regWrite 32 0x28 0) ∧ (0 : Word).getLsbD 1 = false :=
  ⟨rfl, rfl, ⟨_, rfl⟩, rfl, rfl, by decide⟩
theorem inv_overrun : overrun.Inv := by
  refine inv_of _ rfl rfl (by decide) (by decide) (by decide) (fun _ => by decide) (by decide) ?_ (by decide)
    (by decide)
  rintro _ ⟨⟩
/-- The block waits for the source, and the host's program polls. -/
def polling : State := { pulling 3 0x300 with program := [.wait], inputs := [.program false] }
/-- The block waits for the sink, and the host writes ARG3. -/
def writingArg : State := { closeWait with inputs := [.host (.regWrite 32 0x14 1)] }

theorem test_witness_PortWaitEndsOnlyByAnswerOrReset :
    (Cont.waitsSource polling.cont = true ∧ (∃ t, step polling = .next t) ∧ polling.resets = false ∧
      polling.answersPending = false) ∧
    (Cont.waitsSink writingArg.cont = true ∧ (∃ t, step writingArg = .next t) ∧ writingArg.resets = false ∧
      writingArg.answersPending = false) :=
  ⟨⟨rfl, ⟨_, rfl⟩, rfl, rfl⟩, rfl, ⟨_, rfl⟩, rfl, rfl⟩
theorem test_witness_PortWait_inv : polling.Inv ∧ writingArg.Inv :=
  ⟨{ inv_pulling with cont_ok := inv_pulling.cont_ok }, { inv_closeWait with cont_ok := inv_closeWait.cont_ok }⟩
/-- The sink accepts the fringe, and SENC_WRITE goes on with an interior group. -/
theorem test_witness_PortWait_still_waits : ∃ t, step
      { running (.sencFringe [1, 2, 3, 4, 5, 6] 2) (encoding 0 [1, 2, 3, 4, 5] (latched 0x31 0 8 0 0)) with
        sinkLog := [⟨text "YRBYGBYF", .pending⟩], inputs := [.sinkAnswer 0 .ok] } = .next t ∧
    t.status.busy = true ∧ Cont.waitsSink t.cont = true := ⟨_, rfl, rfl, rfl⟩
theorem test_witness_PortWait_idle : overrun.Inv ∧ overrun.status.busy = false ∧ (∃ t, step overrun = .next t) ∧
    overrun.resets = false ∧ ∀ w : Word, overrun.nextOp ≠ some (.regWrite 32 0x00 w) :=
  ⟨inv_overrun, rfl, ⟨_, rfl⟩, rfl, fun w => by
    rw [show overrun.nextOp = some (.regWrite 32 0x28 0) from rfl]; intro h; cases h⟩
theorem test_witness_PowerOnValues : Params.default.legal = true ∧ State.reset.params = Params.default ∧
    { Params.default with numSlots := 8, memBytes := 2 ^ 31 }.legal = true ∧
    { Params.default with numSlots := 2, memBytes := 64, encStageBytes := 5, decChunk := 8 }.legal = true := by decide
theorem test_witness_PowerOnHasInvariant :
    { Params.default with encStageBytes := 40955, decChunk := 65528 }.legal = true := by decide
theorem test_witness_StepKeepsInvariant : fringeWait.Inv ∧ groupWait.Inv ∧
    (∃ t, step { fringeWait with inputs := [.sinkAnswer 0 .ok] } = .next t) ∧
    ∃ t, step { groupWait with inputs := [.sinkAnswer 1 (.err 7)] } = .next t :=
  ⟨inv_fringeWait, inv_groupWait, ⟨_, rfl⟩, ⟨_, rfl⟩⟩
theorem test_witness_CtrlWriteEffect : (3 : Word).getLsbD 0 = true ∧
    ((2 : Word).getLsbD 0 = false ∧ (2 : Word).getLsbD 1 = true) ∧
    ((0 : Word).getLsbD 0 = false ∧ (0 : Word).getLsbD 1 = false) ∧
    groupWait.sinkLog[1]? = some ⟨text "YRBYGBYF", .pending⟩ ∧
    groupWait.sinkLog[0]? = some ⟨text "YYYYYYYY", .answered .ok⟩ := by decide
theorem test_witness_StatusWordLayout : regValue { State.reset with
    status := { busy := true, done := true, eof := true, ovr := true, err := .streamState } } 0x04 = 0x80F := by decide
theorem test_witness_SlotValidMirrorsValidBits : Params.default.legal = true ∧ State.reset.params.numSlots ≤ 8 := by
  decide
theorem test_witness_StreamMirrorFields : fringeWait.senc.buf.length < 8 ∧ fringeWait.sdec.buf.length < 65536 := by
  decide
theorem test_witness_ConstantRegisters : State.reset.params.legal = true ∧
    ∃ t, step { closeWait with inputs := [.powerOn] } = .next t := ⟨by decide, _, rfl⟩
theorem test_witness_RegisterWrites : (0x48 ≤ 0xFC ∧ 0xFC % 4 = 0 ∧ 0x48 % 4 = 0) ∧
    (0x44 ∈ ([0x04, 0x18, 0x1C, 0x20, 0x24, 0x2C, 0x30, 0x34, 0x38, 0x3C, 0x40, 0x44] : List Nat)) := by decide
theorem test_witness_RegisterAccesses : (16 ≠ 32) ∧ (0xFE % 4 ≠ 0) ∧ (256 ≤ 256) ∧
    (0xFC % 4 = 0 ∧ 0xFC < 256) ∧ (0x34 % 4 = 0 ∧ 0x34 < 256) ∧ (pulling 3 0x300).status.busy = true ∧
    State.reset.status.busy = false := by decide
theorem test_witness_HostMemAccesses : State.reset.status.busy = false ∧ 65535 < State.reset.params.memBytes ∧
    State.reset.params.memBytes ≤ 65536 := by decide
theorem test_witness_WrittenBytesStayWritten : readByte (idle 0 0 0 0 7 [1]).mem 8 = none ∧
    (readByte (idle 0 0 0 0 7 [1]).mem 7).isSome = true ∧ 8 < State.reset.params.memBytes ∧
    (∃ t, step { idle 0 0 0 0 7 [1] with inputs := [.host (.memWrite 7 2)] } = .next t) ∧
    (∃ t, step { idle 0 0 0 0 7 [1] with inputs := [.powerOn] } = .next t) ∧
    { State.reset with inputs := [.powerOn] }.powersOn = true ∧ State.reset.powersOn = false ∧
    (1 : Word).getLsbD 0 = true ∧
    ∃ t, step { idle 0 0 0 0 7 [1] with inputs := [.host (.regWrite 32 0x28 1)] } = .next t :=
  ⟨by decide, by decide, by decide, ⟨_, rfl⟩, ⟨_, rfl⟩, rfl, rfl, by decide, ⟨_, rfl⟩⟩

/-- A block that waits for the source: an unwritten byte right behind the destination range of SDEC_READ. -/
theorem test_witness_WrittenBytesStayWritten_busy : (pulling 3 0x300).status.busy = true ∧
    races (pulling 3 0x300) 0x303 = false ∧ 0x303 < (pulling 3 0x300).params.memBytes ∧
    readByte (pulling 3 0x300).mem 0x303 = none ∧ races State.reset 0xFFFF = false := by decide

/-- Three source bytes of which the last is unwritten; the destination range begins right after it. -/
def gap : State := latched 0 0x40 3 0x43 24 0x40 (text "GT")

theorem test_witness_UnwrittenSourceFaults_lutLoad : fault? (exec (.lutLoad 3) gap) = some (.unwrittenMem 0x42) ∧
    readByte gap.mem 0x5F = none ∧ gap.latch.a0.toNat ≤ 0x5F ∧ 0x5F < gap.latch.a0.toNat + 32 ∧
    3 < gap.params.numSlots ∧ (slotAt gap 3).valid = false ∧ Fits gap gap.latch.a0.toNat 32 := by
  simp only [Fits]; decide
theorem test_witness_UnwrittenSourceFaults_encode : readByte gap.mem 0x42 = none ∧ gap.latch.a0.toNat ≤ 0x42 ∧
    0x42 < gap.latch.a0.toNat + gap.latch.a1.toNat ∧ usable gap 1 = true ∧ gap.latch.a3.toInt = 8 * 3 ∧
    0x42 < gap.latch.a0.toNat + (gap.latch.a3.toInt.toNat + 7) / 8 ∧
    RangesOk gap gap.latch.a0.toNat gap.latch.a1.toNat gap.latch.a2.toNat ((8 * gap.latch.a1.toNat + 4) / 5) := by
  simp only [RangesOk, Fits, Meet]; decide
theorem test_witness_UnwrittenSourceFaults_stream : (encoding 0 [] gap).senc.state = .opened ∧
    Fits (encoding 0 [] gap) gap.latch.a0.toNat gap.latch.a1.toNat := by
  simp only [Fits]; decide
theorem test_witness_UnwrittenSourceFaults_decode :
    (∀ k, gap.latch.a0.toNat ≤ k → k < 0x42 →
      ∃ b : Byte, readByte gap.mem k = some b ∧ entryAt (slotAt gap 0).dt b ≠ 0xFF) ∧
    RangesOk gap gap.latch.a0.toNat gap.latch.a1.toNat gap.latch.a2.toNat (outCount gap.latch.a1.toNat .aligned) ∧
    RangesOk gap gap.latch.a0.toNat gap.latch.a1.toNat gap.latch.a2.toNat
      (outCount gap.latch.a1.toNat (.bits gap.latch.a3.toInt.toNat)) := by
  refine ⟨fun k h1 h2 => ?_, by simp only [RangesOk, Fits, Meet]; decide, by simp only [RangesOk, Fits, Meet]; decide⟩
  have : k = 0x40 ∨ k = 0x41 := by
    have : gap.latch.a0.toNat = 0x40 := rfl
    omega
  rcases this with rfl | rfl
  · exact ⟨0x47, by decide, by decide⟩
  · exact ⟨0x54, by decide, by decide⟩

theorem test_witness_HostRaceFaults : (pulling 3 0x300).status.busy = true ∧
    decodeWord (pulling 3 0x300).latch.cmd = .ok .sdecRead ∧
    (∀ a ∈ ([0x300, 0x302] : List Nat), 0x300 ≤ a ∧ a < 0x300 + 3 ∧ a < (pulling 3 0x300).params.memBytes) ∧
    (∀ a ∈ ([0x2FF, 0x303] : List Nat), ¬ (0x300 ≤ a ∧ a < 0x300 + 3)) ∧
    readByte { pulling 3 0x300 with mem := [(0x303, 9)] }.mem 0x303 = some 9 := by decide
/-- 60_exceptions.md R260: the ranges of each command that has any, with the lengths of 41_encoder.md R135 and
42_decoder.md R168 for 3 bytes or symbols and 24 bits. -/
theorem test_witness_HostRaceFaults_ranges :
    [Instr.lutLoad 2, .enc 0, .encBits 0, .dec 0, .decBits 0, .sencWrite, .sdecRead, .nop].map
      (fun i => (decodeWord (encode i) == .ok i, commandRanges i gap.latch))
    = [(true, [(0x40, 32)]), (true, [(0x40, 3), (0x43, 5)]), (true, [(0x40, 3), (0x43, 5)]),
       (true, [(0x40, 3), (0x43, 2)]), (true, [(0x40, 3), (0x43, 3)]), (true, [(0x40, 3)]), (true, [(0x43, 3)]),
       (true, [])] := by decide
/-- 40_alphabet_lut.md R106 and 95_test_vectors.md: duplicates, where the later index wins. -/
theorem test_witness_BuildTableEntries :
    (∀ i (h : i < 32), (alphabetOf (List.replicate 32 0x41))[i] ≠ 0x42) ∧
    (alphabetOf (List.replicate 32 0x41))[31] = 0x41 ∧
    entryAt (buildTable (alphabetOf (List.replicate 32 0x41))) 0x41 = 31 ∧
    (standardAlphabet Params.default)[0] = 0x59 ∧
    (∀ j (h : j < 32), 0 < j → (standardAlphabet Params.default)[j] ≠ 0x59) := by decide
theorem test_witness_DistinctAlphabetTable : (standardAlphabet Params.default).toList.Nodup ∧
    entryAt (buildTable (standardAlphabet Params.default)) 0x39 ≠ 0xFF := by decide
theorem test_witness_CaseSensitiveHandles : State.reset.params.legal = true ∧
    0x59 ∈ (slotAt State.reset 0).alpha.toList ∧ 0x39 ∈ (slotAt State.reset 0).alpha.toList := by decide

/-- 32 symbols at the top of MEM, right up to its end. -/
def loading (a0 : Word) : State := latched 0x201 a0 0 0 0 0xFFE0 (text "0123456789ABCDEFGHJKMNPQRSTVWXYZ")

theorem test_witness_LutLoadEffect :
    (¬ ((loading 0xFFE0).params.numSlots ≤ 3 ∨ 3 < 2 ∨ (slotAt (loading 0xFFE0) 3).valid = true)) ∧
    Fits (loading 0xFFE0) (loading 0xFFE0).latch.a0.toNat 32 ∧
    ¬ Fits (loading 0xFFE1) (loading 0xFFE1).latch.a0.toNat 32 ∧
    Holds (loading 0xFFE0).mem (loading 0xFFE0).latch.a0.toNat (text "0123456789ABCDEFGHJKMNPQRSTVWXYZ") ∧
    (text "0123456789ABCDEFGHJKMNPQRSTVWXYZ").length = 32 := by
  simp only [Fits, Holds]; decide
theorem test_witness_LutLoadEffect_bad : (loading 0).params.numSlots ≤ 4 ∧ 4 < 8 ∧ 1 < 2 ∧
    (slotAt (loadSlot (loading 0) 2 (alphabetOf [])) 2).valid = true := by decide
theorem test_witness_TableLookupResults : usable State.reset 1 = true ∧ usable State.reset 2 = false ∧
    usable State.reset 7 = false := by decide

/-- Two bytes at 0x40, with the destination ranges of ENC and ENC_BITS right behind or upon them. -/
def encSource (a2 a3 : Word) : State := latched 0x010 0x40 2 a2 a3 0x40 [0x34, 0x5A]

theorem test_witness_EncResult : [0x34, 0x5A].length = (encSource 0x42 0).latch.a1.toNat ∧
    usable (encSource 0x42 0) 0 = true ∧ usable (encSource 0x42 0) 2 = false ∧
    RangesOk (encSource 0x42 0) 0x40 2 0x42 4 ∧ RangesOk (encSource 0xFFFC 0) 0x40 2 0xFFFC 4 ∧
    ¬ RangesOk (encSource 0x41 0) 0x40 2 0x41 4 ∧ ¬ RangesOk (encSource 0xFFFD 0) 0x40 2 0xFFFD 4 ∧
    Holds (encSource 0x42 0).mem (encSource 0x42 0).latch.a0.toNat [0x34, 0x5A] := by
  simp only [RangesOk, Fits, Meet, Holds]; decide
theorem test_witness_EncBitsResult :
    (encSource 0x42 0xFFFFFFFF).latch.a3.toInt < 0 ∧ (encSource 0x42 17).latch.a3.toInt > 8 * (2 : Int) ∧
    0 ≤ (encSource 0x42 8).latch.a3.toInt ∧ (encSource 0x42 8).latch.a3.toInt ≤ 8 * (2 : Int) ∧
    RangesOk (encSource 0x42 8) 0x40 2 0x42 2 ∧ ¬ RangesOk (encSource 0x41 8) 0x40 2 0x41 2 ∧
    [0x34].length = ((encSource 0x42 8).latch.a3.toInt.toNat + 7) / 8 ∧
    Holds (encSource 0x42 8).mem (encSource 0x42 8).latch.a0.toNat [0x34] := by
  simp only [RangesOk, Fits, Meet, Holds]; decide
theorem test_witness_SymValFormsAgree : 11 ≤ 8 * [0xFF, 0xFF].length ∧ 2 < (11 + 4) / 5 := by decide
theorem test_witness_EncodeConcatenates : ([1, 2, 3, 4, 5] : List Byte).length % 5 = 0 ∧ ([] : List Byte).length % 5 = 0 := by
  decide
theorem test_witness_EncodeDependsOnDeclaredBits :
    (∀ j, j < 11 → streamBit [0xFF, 0xE0] 11 j = streamBit [0xFF, 0xFF] 11 j) ∧ 5 * 1 + 5 ≤ min 10 16 := by decide
theorem test_witness_CombineIsFortyBitNumber : ∀ j (h : j < 8), ((Vector.replicate 8 (31 : Byte))[j]).toNat < 32 := by
  decide

/-- Nine symbols at 0x40, the last of them corrupt if `c` is, with the destination `a2` and the bit count. -/
def decSource (c : Byte) (a2 a3 : Word) : State := latched 0x020 0x40 9 a2 a3 0x40 (text "GTPYGTPY" ++ [c])

theorem test_witness_DecodeStopsAtFirstCorrupt : let t := buildTable (standardAlphabet Params.default)
    let syms := text "GTPYGTPY" ++ [0x78]
    (8 < 9) ∧ (∀ k, k < 8 → (match syms[k]? with | some b => decide (entryAt t b ≠ 0xFF) | none => false) = true) ∧
    syms[8]? = some 0x78 ∧ entryAt t 0x78 = 0xFF := by decide
theorem test_witness_OutCountIsExact : let t := buildTable (standardAlphabet Params.default)
    ∀ k, k < 4 → (match (text "GTPY")[k]? with | some b => decide (entryAt t b ≠ 0xFF) | none => false) = true := by
  decide
/-- 42_decoder.md R165, R167: bits beyond the input, a short group, and a group with nothing left. -/
theorem test_outCount_bits : outCount 1 (.bits 16) = 2 ∧ outCount 1 (.bits 99) = 5 ∧ outCount 9 (.bits 40) = 5 ∧
    outCount 9 (.bits 41) = 6 ∧ outCount 0 (.bits 8) = 0 := by decide
theorem test_witness_DecResult : (text "GTPYGTPY9").length = (decSource 0x39 0x49 0).latch.a1.toNat ∧
    usable (decSource 0x39 0x49 0) 0 = true ∧ usable (decSource 0x39 0x49 0) 3 = false ∧
    RangesOk (decSource 0x39 0x49 0) 0x40 9 0x49 6 ∧ RangesOk (decSource 0x39 0x3A 0) 0x40 9 0x3A 6 ∧
    ¬ RangesOk (decSource 0x39 0x48 0) 0x40 9 0x48 6 ∧
    Holds (decSource 0x39 0x49 0).mem 0x40 (text "GTPYGTPY9") ∧
    Holds (decSource 0x78 0x49 0).mem 0x40 (text "GTPYGTPYx") := by
  simp only [RangesOk, Fits, Meet, Holds]; decide
theorem test_witness_DecResult_ends : let dt := (slotAt State.reset 0).dt
    (decodeCore dt (fun i => (text "GTPYGTPY9")[i]?) 9 .aligned).2 = .ok ∧
    (decodeCore dt (fun i => (text "GTPYGTPYx")[i]?) 9 .aligned).2 = .corrupt 8 := by decide
/-- 42_decoder.md R161: two of three symbols are written, the second of them corrupt. -/
theorem test_witness_DecResult_enough : let s := latched 0x020 0x40 3 0x100 16 0x40 (text "Gx")
    (text "Gx").length < s.latch.a1.toNat ∧ (∃ c ∈ text "Gx", entryAt (slotAt s 0).dt c = 0xFF) ∧
    Holds s.mem s.latch.a0.toNat (text "Gx") ∧ RangesOk s 0x40 3 0x100 (outCount 3 (.bits 16)) ∧
    RangesOk s 0x40 3 0x100 2 := by
  simp only [Holds, RangesOk, Fits, Meet]; decide
theorem test_witness_DecBitsResult : (decSource 0x39 0x49 0xFFFFFFFF).latch.a3.toInt < 0 ∧
    0 ≤ (decSource 0x39 0x49 45).latch.a3.toInt ∧
    RangesOk (decSource 0x39 0x49 45) 0x40 9 0x49 (outCount 9 (.bits 45)) ∧
    ¬ RangesOk (decSource 0x39 0x48 45) 0x40 9 0x48 (outCount 9 (.bits 45)) ∧
    (decodeCore (slotAt State.reset 0).dt (fun i => (text "GTPYGTPY9")[i]?) 9 (.bits 45)).2 = .ok ∧
    (decodeCore (slotAt State.reset 0).dt (fun i => (text "GTPYGTPYx")[i]?) 9 (.bits 0)).2 = .corrupt 8 := by
  simp only [RangesOk, Fits, Meet]; decide
theorem test_witness_DecodeInvertsEncode : (lowerAlphabet Params.default).toList.Nodup ∧ 11 ≤ 8 * [0xFF, 0xFF].length := by
  decide
theorem test_witness_StreamOpenResults : 1 < 8 ∧ 7 < 8 ∧ usable State.reset 1 = true ∧ usable State.reset 7 = false := by
  decide

/-- A stream with the fringe `f`, and SENC_WRITE of the n bytes at the very end of MEM. -/
def writing (f : List Byte) (n : Nat) : State :=
  encoding 0 f (latched 0x31 (BitVec.ofNat 32 (65536 - n)) (BitVec.ofNat 32 n) 0 0 (65536 - n) (List.replicate n 7))

theorem test_witness_SencWriteFirstStep : (List.replicate 2 (7 : Byte)).length = (writing [1, 2] 2).latch.a1.toNat ∧
    (writing [1, 2, 3, 4] 2).senc.buf.length ≤ 4 ∧ (writing [1, 2] 2).senc.state = .opened ∧
    Fits (writing [1, 2] 2) (writing [1, 2] 2).latch.a0.toNat 2 ∧
    ¬ Fits (writing [1, 2] 2) (writing [1, 2] 2).latch.a0.toNat 3 ∧
    Holds (writing [1, 2] 2).mem (writing [1, 2] 2).latch.a0.toNat (List.replicate 2 7) ∧
    (writing [1, 2] 2).senc.buf.length + 2 < 5 ∧ 5 ≤ (writing [1, 2, 3] 2).senc.buf.length + 2 ∧
    (writing [1, 2, 3] 2).senc.buf ≠ [] ∧ (writing [] 5).senc.buf = [] ∧
    Holds (writing [] 5).mem (writing [] 5).latch.a0.toNat (List.replicate 5 7) := by
  simp only [Fits, Holds]; decide
theorem test_witness_SencWriteFirstStep_errors : State.reset.senc.state = .idle ∧ failed.senc.state = .failed ∧
    { State.reset with senc := { state := .closed, slot := 0, buf := [], err := 0 } }.senc.state = .closed := by decide
theorem test_witness_SinkErrorFailsStream : (fringeWait.Inv ∧ Cont.waitsSink fringeWait.cont = true) ∧
    (groupWait.Inv ∧ Cont.waitsSink groupWait.cont = true) ∧ closeWait.Inv ∧ Cont.waitsSink closeWait.cont = true :=
  ⟨⟨inv_fringeWait, rfl⟩, ⟨inv_groupWait, rfl⟩, inv_closeWait, rfl⟩
theorem test_witness_EncoderErrorIsSticky : failed.Inv ∧ failed.senc.state = .failed ∧
    (∃ t, step { failed with inputs := [issueWord 0x31] } = .next t) ∧
    { failed with inputs := [issueWord 0x31] }.resets = false ∧
    ∀ h, ¬ { failed with inputs := [issueWord 0x31] }.runs (.sencOpen h) := by
  refine ⟨inv_failed, rfl, ⟨_, rfl⟩, rfl, fun h => ?_⟩
  rintro (⟨w, hw, hd⟩ | ⟨hc, -⟩)
  · cases hw; rw [show decodeWord 0x31 = .ok .sencWrite from by decide] at hd; cases hd
  · cases hc
theorem test_witness_SencCloseResult : State.reset.senc.state = .idle ∧ failed.senc.state = .failed ∧
    (writing [] 0).senc.state = .opened ∧ (writing [] 0).senc.buf = [] ∧ (writing [1] 0).senc.buf ≠ [] := by decide
theorem test_witness_SinkTransactionSizes : fringeWait.Inv ∧ groupWait.Inv ∧
    (∃ t, step { fringeWait with inputs := [.sinkAnswer 0 .ok] } = .next t) ∧
    ∃ t, step { groupWait with inputs := [.sinkAnswer 1 .ok] } = .next t :=
  ⟨inv_fringeWait, inv_groupWait, ⟨_, rfl⟩, ⟨_, rfl⟩⟩
theorem test_witness_SencWriteStreamsAllBytes : (writing [1, 2, 3, 4] 7).senc.state = .opened ∧
    (writing [1, 2, 3, 4] 7).senc.buf.length ≤ 4 ∧ (writing [1, 2, 3, 4] 7).cont = none ∧
    5 ≤ State.reset.params.encStageBytes ∧ State.reset.params.encStageBytes % 5 = 0 ∧
    (List.replicate 7 (7 : Byte)).length = (writing [1, 2, 3, 4] 7).latch.a1.toNat ∧
    Fits (writing [1, 2, 3, 4] 7) (writing [1, 2, 3, 4] 7).latch.a0.toNat 7 ∧
    Holds (writing [1, 2, 3, 4] 7).mem (writing [1, 2, 3, 4] 7).latch.a0.toNat (List.replicate 7 7) := by
  simp only [Fits, Holds]; decide
/-- A write of 2 bytes and a write of 5, then the close. -/
theorem test_witness_StreamingEncodeEqualsEnc : ∃ t t1 u, WritesOk (writing [] 2)
      [List.replicate 2 7, List.replicate 5 7] t ∧
    exec .sencClose { t with latch := { cmd := 0x32, a0 := 0, a1 := 0, a2 := 0, a3 := 0 } } = .next t1 ∧
    SinkOk t1 u := by
  have h : ([List.replicate 2 7, List.replicate 5 7] : List (List Byte))
      = ([] ++ [List.replicate 2 7]) ++ [List.replicate 5 7] := rfl
  rw [h]
  exact ⟨_, _, _,
    .write _ _ _ (writing [7, 7] 5) _ _
      (.write [] _ (writing [] 2) (writing [] 2) _ _ .none ⟨rfl, rfl, rfl, rfl, rfl⟩ (by decide)
        (by simp only [Fits]; decide) (by simp only [Holds]; decide) rfl (.ended _ rfl))
      ⟨rfl, rfl, rfl, rfl, rfl⟩ (by decide) (by simp only [Fits]; decide) (by simp only [Holds]; decide) rfl
      (.answer _ _ _ (by intro h; cases h) rfl (.ended _ rfl)),
    rfl, .answer _ _ _ (by intro h; cases h) rfl (.ended _ rfl)⟩

theorem test_witness_SdecReadPulls : (decoding [] false (latched 0x41 0 3 0xFFFD 0)).sdec.isOpen = true ∧
    State.reset.sdec.isOpen = false ∧
    Fits (decoding [] false (latched 0x41 0 3 0xFFFD 0)) 0xFFFD 3 ∧
    ¬ Fits (decoding [] false (latched 0x41 0 3 0xFFFE 0)) 0xFFFE 3 ∧
    0 < (latched 0x41 0 3 0xFFFD 0).latch.a1.toNat := by
  simp only [Fits]; decide
theorem test_witness_SdecReadServesBuffer : (decoding [4, 5] true (latched 0x41 0 2 0xFFFE 0)).sdec.buf ≠ [] ∧
    Fits (decoding [4, 5] true (latched 0x41 0 2 0xFFFE 0)) 0xFFFE 2 ∧
    (latched 0x41 0 0 0xFFFFFFFF 0).latch.a1.toNat = 0 ∧ exhausted.sdec.eof = true ∧ exhausted.sdec.buf = [] ∧
    Fits (latched 0x41 0 0 0xFFFFFFFF 0) 0xFFFFFFFF 0 := by
  simp only [Fits]; decide
theorem test_witness_SourceAnswerEffect : (pulling 3 0x300).Inv ∧ (pulling 3 0x300).cont = some .sdecPull ∧
    (text "YAD0").length ≤ (pulling 3 0x300).params.decChunk ∧
    (List.replicate 1024 (0x59 : Byte)).length ≤ (pulling 3 0x300).params.decChunk ∧
    (decodeSeq (slotAt State.reset 0).dt (text "YAD0")).2 = .ok ∧
    (decodeSeq (slotAt State.reset 0).dt (text "YAD!")).2 = .corrupt 3 :=
  ⟨inv_pulling, rfl, by decide, by rw [List.length_replicate]; decide, by decide, by decide⟩
theorem test_witness_ExhaustedStaysExhausted : exhausted.Inv ∧ exhausted.sdec.eof = true ∧ exhausted.sdec.buf = [] ∧
    (∃ t, step { exhausted with inputs := [issueWord 0x41] } = .next t) ∧
    { exhausted with inputs := [issueWord 0x41] }.resets = false ∧
    ∀ h, ¬ { exhausted with inputs := [issueWord 0x41] }.runs (.sdecOpen h) := by
  refine ⟨inv_exhausted, rfl, rfl, ⟨_, rfl⟩, rfl, fun h => ?_⟩
  rintro (⟨w, hw, hd⟩ | ⟨hc, -⟩)
  · cases hw; rw [show decodeWord 0x41 = .ok .sdecRead from by decide] at hd; cases hd
  · cases hc
/-- A read of 3 bytes from an answer that holds the whole text of one byte with EOF. -/
theorem test_witness_StreamingDecodeDelivers :
    encodeCore (slotAt State.reset 0).alpha [4] 8 = text "Y0" ∧ (slotAt State.reset 0).alpha.toList.Nodup ∧
    ∃ t, ReadsOk (decoding [] false State.reset) [⟨text "Y0", .eof⟩] [4] t ∧ t.status.eof = true := by
  exact ⟨by decide, by decide, _,
    .pulled [] ⟨text "Y0", .eof⟩ [] [4] (decoding [] false State.reset)
      (decoding [] false (latched 0x41 0 3 0x300 0)) _ _ .none ⟨rfl, rfl, rfl, rfl, rfl⟩ (by decide) rfl rfl rfl
      (by decide) (by decide) (by simp only [Holds]; decide),
    by decide⟩
theorem test_witness_FailedChecksChangeOnlyCompletion :
    (∃ t, exec .sencWrite State.reset = .next t ∧ t.status.err = .streamState ∧ t.cont = none) ∧
    ∃ t, exec .sencClose failed = .next t ∧ t.status.err = .ioError ∧ t.cont = none :=
  ⟨⟨_, rfl, rfl, rfl⟩, _, rfl, rfl, rfl⟩
theorem test_witness_CommandFrame : ∃ t, exec (.encBits 0) (encSource 0x42 8) = .next t := ⟨_, rfl⟩
theorem test_witness_ValidSlotsAreImmutable : (slotAt (loading 0xFFE0) 1).valid = true ∧
    (loading 0xFFE0).resets = false ∧
    ∃ t, step { loading 0xFFE0 with cont := some (.start (.lutLoad 2)) } = .next t := ⟨rfl, rfl, _, rfl⟩
theorem test_witness_HostLinesExpand : (pulling 3 0x300).status.busy = true ∧ State.reset.status.busy = false := by
  decide
theorem test_witness_LateAndOverlongAnswers :
    [(⟨[1], .abandoned⟩ : SinkTx)][0]?.map SinkTx.reply = some .abandoned ∧
    [(⟨8, .pending⟩ : SourceTx)][0]? = some ⟨8, .pending⟩ ∧ 8 < (List.replicate 9 (0 : Byte)).length ∧
    [(⟨8, .abandoned⟩ : SourceTx)][0]? = some ⟨8, .abandoned⟩ ∧ (List.replicate 8 (0 : Byte)).length ≤ 8 := by decide

end Sys2Proof.Tests
end

/-!
PROOFS. The invariant of the block (10_state.md, O12): a step either leaves everything the invariant names
alone, or brings the core to a state in which no transaction is open (`Quiet`); from there a command
completes, or it opens one transaction and waits.
-/

namespace Sys2Proof.Proofs

open Sys2Proof Sys2Proof.Machine Sys2Proof.Laws

/-! ## The legal parameters -/

theorem legal_iff (p : Params) : p.legal = true ↔ p.legalMemBytes = true ∧ p.legalNumSlots = true ∧
    p.legalEncStage = true ∧ p.legalDecChunk = true ∧ p.legalAlphabet = true := by
  simp only [Params.legal, Bool.and_eq_true, and_assoc]

theorem legal_memBytes {p : Params} (h : p.legal = true) : 64 ≤ p.memBytes ∧ p.memBytes ≤ 2 ^ 31 := by
  obtain ⟨hm, -⟩ := (legal_iff p).1 h
  simpa [Params.legalMemBytes] using hm

theorem legal_numSlots {p : Params} (h : p.legal = true) : 2 ≤ p.numSlots ∧ p.numSlots ≤ 8 := by
  obtain ⟨-, hn, -⟩ := (legal_iff p).1 h
  simpa [Params.legalNumSlots] using hn

theorem legal_encStage {p : Params} (h : p.legal = true) :
    p.encStageBytes % 5 = 0 ∧ 5 ≤ p.encStageBytes ∧ p.encStageBytes ≤ 40955 := by
  obtain ⟨-, -, he, -⟩ := (legal_iff p).1 h
  simpa [Params.legalEncStage, and_assoc] using he

theorem legal_decChunk {p : Params} (h : p.legal = true) :
    p.decChunk % 8 = 0 ∧ 8 ≤ p.decChunk ∧ p.decChunk ≤ 65528 := by
  obtain ⟨-, -, -, hd, -⟩ := (legal_iff p).1 h
  simpa [Params.legalDecChunk, and_assoc] using hd

/-! ## The slots -/

/-- LUT_LOAD never touches a valid slot (10_state.md R42): it loads only one that is not valid. -/
theorem slotAt_loadSlot_of_valid {s : State} {k i : Nat} (sym : Vector Byte 32) (hc : canLoad s k = true)
    (hv : (slotAt s i).valid = true) : slotAt (loadSlot s k sym) i = slotAt s i := by
  obtain ⟨-, h2, hk⟩ := (canLoad_iff s k).1 hc
  refine slotAt_loadSlot_of_ne s k i sym h2 ?_
  rintro rfl
  rw [hk] at hv
  cases hv

theorem usable_iff (s : State) (i : Nat) :
    usable s i = true ↔ i < s.params.numSlots ∧ (slotAt s i).valid = true := by simp [usable]

theorem usable_loadSlot {s : State} {k i : Nat} (sym : Vector Byte 32) (hc : canLoad s k = true)
    (hu : usable s i = true) : usable (loadSlot s k sym) i = true := by
  rw [usable_iff] at hu ⊢
  rw [slotAt_loadSlot_of_valid sym hc hu.2]
  exact hu

/-- A usable slot number fits the 3 bits that a stream keeps of it. -/
theorem toNat_slot_of_usable {s : State} {i : Nat} (hp : s.params.legal = true) (hu : usable s i = true) :
    (BitVec.ofNat 3 i).toNat = i := by
  have h8 := (legal_numSlots hp).2
  have hi := ((usable_iff s i).1 hu).1
  rw [BitVec.toNat_ofNat, Nat.mod_eq_of_lt (by omega)]

/-! ## The sizes of a decode's output -/

/-- The most bytes that the groups `g` to `g + n - 1` of `L` symbols emit. -/
def groupBytes (L : Nat) (mode : DecMode) : Nat → Nat → Nat
  | 0, _ => 0
  | n + 1, g => emitCount mode g (min 8 (L - 8 * g)) + groupBytes L mode n (g + 1)

theorem decodeGroups_length_le (dt : Vector Byte 256) (sym : Nat → Option Byte) (L : Nat) (mode : DecMode)
    (n g : Nat) : (decodeGroups dt sym L mode n g).1.length ≤ groupBytes L mode n g := by
  induction n generalizing g with
  | zero => exact Nat.zero_le _
  | succ n ih =>
    rw [decodeGroups, groupBytes]
    split
    · exact Nat.zero_le _
    · have hrest := ih (g + 1)
      simp only [List.length_append, List.length_take]
      omega

/-- OutCount's closed form for whole groups (42_decoder.md R167), from group `g` on. -/
theorem groupBytes_aligned (L n g : Nat) (h : n = (L + 7) / 8 - g) :
    groupBytes L .aligned n g = 5 * (L / 8 - g) + (if 8 * g < L then tableT (L % 8) else 0) := by
  induction n generalizing g with
  | zero =>
    rw [groupBytes, if_neg (by omega)]
    omega
  | succ n ih =>
    rw [groupBytes, ih (g + 1) (by omega), emitCount]
    by_cases hfull : 8 * (g + 1) ≤ L
    · rw [show min 8 (L - 8 * g) = 8 by omega, show tableT 8 = 5 from rfl, if_pos (show 8 * g < L by omega)]
      by_cases hlast : 8 * (g + 1) < L
      · rw [if_pos hlast]; omega
      · rw [if_neg hlast, show L % 8 = 0 by omega, show tableT 0 = 0 from rfl]; omega
    · rw [show min 8 (L - 8 * g) = L % 8 by omega, if_neg (by omega), if_pos (by omega)]
      omega

theorem groupBytes_bits (L bc n g : Nat) :
    groupBytes L (.bits bc) n g = ((List.range' g n).map (fun k => bitsB (bc - 40 * k))).sum := by
  induction n generalizing g with
  | zero => rfl
  | succ n ih => simp [groupBytes, ih, emitCount, List.range'_succ]

/-- The groups of the whole input emit OutCount bytes (42_decoder.md R167). -/
theorem groupBytes_eq_outCount (L : Nat) (mode : DecMode) : groupBytes L mode (ceilDiv L 8) 0 = outCount L mode := by
  cases mode with
  | aligned =>
    rw [groupBytes_aligned L _ 0 (ceilDiv_eight L), outCount]
    cases L with
    | zero => rfl
    | succ L => simp
  | bits bc => rw [groupBytes_bits, outCount, List.range_eq_range']

theorem decodeCore_length_le (dt : Vector Byte 256) (sym : Nat → Option Byte) (L : Nat) (mode : DecMode) :
    (decodeCore dt sym L mode).1.length ≤ outCount L mode :=
  groupBytes_eq_outCount L mode ▸ decodeGroups_length_le dt sym L mode _ 0

theorem groupBytes_le (L : Nat) (mode : DecMode) (n g : Nat) : groupBytes L mode n g ≤ 5 * n := by
  induction n generalizing g with
  | zero => exact Nat.zero_le _
  | succ n ih =>
    have hfirst := emitCount_le mode g (min 8 (L - 8 * g))
    have hrest := ih (g + 1)
    rw [groupBytes]
    omega

/-- What a decoded chunk may hold (10_state.md R44). -/
theorem decodeSeq_length_le (dt : Vector Byte 256) {syms : List Byte} {n : Nat} (h : syms.length ≤ n) :
    (decodeSeq dt syms).1.length ≤ decodedLen n :=
  calc (decodeSeq dt syms).1.length
    _ ≤ groupBytes syms.length .aligned (ceilDiv syms.length 8) 0 := decodeGroups_length_le _ _ _ _ _ _
    _ ≤ 5 * ceilDiv syms.length 8 := groupBytes_le _ _ _ _
    _ ≤ decodedLen n := by rw [decodedLen, ceilDiv_eight, ceilDiv_eight]; omega

/-! ## The logs -/

/-- After an entry that `p` holds of is appended to a log of entries that `p` does not hold of, it holds of the
last entry alone. -/
theorem append_last_iff {α : Type} {p : α → Prop} {l : List α} {x : α} (hl : ∀ e ∈ l, ¬ p e) (hx : p x)
    {k : Nat} {e : α} (he : (l ++ [x])[k]? = some e) : p e ↔ k + 1 = l.length + 1 := by
  rcases Nat.lt_or_ge k l.length with hk | hk
  · rw [List.getElem?_append_left hk] at he
    exact ⟨fun hp => absurd hp (hl e (List.mem_of_getElem? he)), fun _ => by omega⟩
  · rw [List.getElem?_append_right hk, List.getElem?_singleton] at he
    split at he
    · cases he
      exact ⟨fun _ => by omega, fun _ => hx⟩
    · cases he

/-- After the change of the only entry that `p` may hold of, it holds of none. -/
theorem modify_only {α : Type} {p : α → Prop} {l : List α} {tx : Nat} {f : α → α}
    (hl : ∀ k e, l[k]? = some e → p e → k = tx) (hf : ∀ e, ¬ p (f e)) : ∀ e ∈ l.modify tx f, ¬ p e := by
  intro e he hp
  obtain ⟨k, hk⟩ := List.getElem?_of_mem he
  rw [List.getElem?_modify] at hk
  obtain ⟨e', he', rfl⟩ := Option.map_eq_some_iff.1 hk
  split at hp
  · exact hf e' hp
  · next hne => exact hne (hl k e' he' hp).symm

/-! ## The block with no transaction open -/

/-- What the invariant says of a block in which no port transaction waits for its answer, apart from what
names STATUS and the running command. -/
structure Quiet (s : State) : Prop where
  params_legal : s.params.legal = true
  mem_wf : Memory.wf s.mem = true
  mem_inside : ∀ c ∈ s.mem, c.1 < s.params.memBytes
  cmd_latched : s.cmdReg = s.latch.cmd
  slots_built : ∀ i, (slotAt s i).valid = true → (slotAt s i).dt = buildTable (slotAt s i).alpha
  slots_absent : ∀ i, s.params.numSlots ≤ i → (slotAt s i).valid = false
  senc_bound : s.senc.state ≠ .idle → usable s s.senc.slot.toNat = true
  senc_empty : s.senc.state ≠ .opened → s.senc.buf = []
  sdec_bound : s.sdec.isOpen = true → usable s s.sdec.slot.toNat = true
  sdec_closed : s.sdec.isOpen = false → s.sdec.buf = [] ∧ s.sdec.eof = false
  sdec_capacity : s.sdec.buf.length ≤ decodedLen s.params.decChunk
  sink_answered : ∀ e ∈ s.sinkLog, e.reply ≠ .pending
  source_answered : ∀ e ∈ s.srcLog, e.reply ≠ .pending
  source_max : ∀ e ∈ s.srcLog, e.max = s.params.decChunk

/-- The core is in the step of command `i` (30_encoding.md R80): nothing waits, BUSY is 1, and the fringe is
one that stands between commands (43_stream_encoder.md R195). -/
structure Running (s : State) (i : Instr) : Prop extends Quiet s where
  busy : s.status.busy = true
  flags : s.status.done = false ∧ s.status.eof = false
  fringe : s.senc.buf.length ≤ 4
  latched : decodeWord s.latch.cmd = .ok i

/-- A command waits on one port only. -/
theorem waitsSource_of_waitsSink {c : Option Cont} (h : Cont.waitsSink c = true) : Cont.waitsSource c = false := by
  cases c with
  | none => rfl
  | some c =>
    cases c with
    | sdecPull => cases h
    | start | sencFringe | sencGroup | sencClose => rfl

section Updates

variable {s : State} (h : Quiet s)

include h

theorem quiet_storeBytes {a : Nat} {bs : List Byte} (hf : Fits s a bs.length) : Quiet (storeBytes s a bs) :=
  { h with
    mem_wf := writeBytes_wf bs a h.mem_wf
    mem_inside := fun c hc => by
      rcases mem_writeBytes bs hc with hc | ⟨h1, h2⟩
      · exact h.mem_inside c hc
      · rcases hf with hf | hf
        · omega
        · exact Nat.lt_of_lt_of_le h2 hf }

theorem quiet_setSenc (e : Senc) (hb : e.state ≠ .idle → usable s e.slot.toNat = true)
    (he : e.state ≠ .opened → e.buf = []) : Quiet { s with senc := e } :=
  { h with senc_bound := hb, senc_empty := he }

theorem quiet_setSdec (d : Sdec) (ho : d.isOpen = true) (hu : usable s d.slot.toNat = true)
    (hn : d.buf.length ≤ decodedLen s.params.decChunk) : Quiet { s with sdec := d } :=
  { h with
    sdec_bound := fun _ => hu
    sdec_closed := fun hc => absurd (ho.symm.trans hc) (by decide)
    sdec_capacity := hn }

/-- The fringe of an open stream may be any, and one that becomes empty leaves any stream in order. -/
theorem quiet_setFringe {buf : List Byte} (hb : s.senc.state ≠ .opened → buf = []) : Quiet (setFringe s buf) :=
  quiet_setSenc h _ h.senc_bound hb

theorem quiet_loadSlot {k : Nat} (sym : Vector Byte 32) (hc : canLoad s k = true) : Quiet (loadSlot s k sym) := by
  obtain ⟨hk, h2, -⟩ := (canLoad_iff s k).1 hc
  have hloaded := slotAt_loadSlot_self s k sym h2 (Nat.lt_of_lt_of_le hk (legal_numSlots h.params_legal).2)
  have hother (i : Nat) (hi : i ≠ k) := slotAt_loadSlot_of_ne s k i sym h2 hi
  exact { h with
    senc_bound := fun hs => usable_loadSlot sym hc (h.senc_bound hs)
    sdec_bound := fun hs => usable_loadSlot sym hc (h.sdec_bound hs)
    slots_built := fun i hi => by
      by_cases hik : i = k
      · rw [hik, hloaded]
      · rw [hother i hik] at hi ⊢
        exact h.slots_built i hi
    slots_absent := fun i hi => by
      rw [hother i (Nat.ne_of_gt (Nat.lt_of_lt_of_le hk hi))]
      exact h.slots_absent i hi }

/-- With no transaction open and no command that waits on one, the rest of the invariant is on STATUS and the
running command alone. -/
theorem inv_of_quiet (hs : Cont.waitsSink s.cont = false) (hr : Cont.waitsSource s.cont = false)
    (hb : s.status.busy = s.cont.isSome)
    (hfl : s.status.busy = true → s.status.done = false ∧ s.status.eof = false)
    (hf : s.senc.buf.length ≤ 4) (hc : ∀ c, s.cont = some c → c.ok s) : s.Inv :=
  { h with
    busy_iff := hb
    busy_flags := hfl
    senc_fringe := fun _ => hf
    cont_ok := hc
    sink_pending := fun k e he =>
      ⟨fun hp => absurd hp (h.sink_answered e (List.mem_of_getElem? he)), fun hw => by rw [hs] at hw; cases hw.1⟩
    sink_waits := fun hw => by rw [hs] at hw; cases hw
    source_pending := fun k e he =>
      ⟨fun hp => absurd hp (h.source_answered e (List.mem_of_getElem? he)), fun hw => by rw [hr] at hw; cases hw.1⟩
    source_waits := fun hw => by rw [hr] at hw; cases hw }

/-- A completion, of either kind, ends the command in a state with the invariant (60_exceptions.md R251,
R252). -/
theorem inv_completed (hf : s.senc.buf.length ≤ 4) (r0 r1 eo ic : Word) (eof : Bool) (e : ErrCode) :
    State.Inv { s with
      res0 := r0, res1 := r1, errOffset := eo, ioCode := ic, status := s.status.completed eof e, cont := none } :=
  inv_of_quiet { h with } rfl rfl rfl (fun hb => by cases hb) hf (fun _ hc => by cases hc)

theorem inv_completeWith (hf : s.senc.buf.length ≤ 4) (r0 r1 : Word) (eof : Bool) :
    (completeWith s r0 r1 eof).Inv := inv_completed h hf r0 r1 0 0 eof .ok

theorem inv_raiseError (hf : s.senc.buf.length ≤ 4) (e : ErrCode) (info : ErrInfo) :
    (raiseError s e info).Inv := inv_completed h hf _ 0 _ info.code false e

/-- A sink transaction that failed ends the stream (43_stream_encoder.md R197). -/
theorem inv_failStream (ho : s.senc.state = .opened) (hb : s.senc.buf = []) (c : Word) (count : Nat) :
    (failStream s c count).Inv := by
  refine inv_raiseError (quiet_setSenc h { s.senc with state := .failed, err := c } (fun _ => ?_) fun _ => hb) ?_ _ _
  · exact h.senc_bound (by rw [ho]; decide)
  · rw [hb]; exact Nat.zero_le _

/-- Opening a sink transaction leaves a command that waits on it. -/
theorem inv_sinkWrite (hb : s.status.busy = true) (hfl : s.status.done = false ∧ s.status.eof = false)
    {c : Cont} (syms : List Byte) (hw : Cont.waitsSink (some c) = true) (hc : c.ok (sinkWrite s syms c))
    (hf : (∀ p t, c ≠ .sencFringe p t) → s.senc.buf.length ≤ 4) : (sinkWrite s syms c).Inv := by
  have hr : ¬ Cont.waitsSource (sinkWrite s syms c).cont = true := by
    rw [sinkWrite_cont, waitsSource_of_waitsSink hw]; decide
  exact { h with
    busy_iff := hb
    busy_flags := fun _ => hfl
    senc_fringe := fun hn => hf fun p t hpt => hn p t (congrArg some hpt)
    cont_ok := fun c' hc' => by cases hc'; exact hc
    sink_pending := fun k e he => by
      simp only [sinkWrite_sinkLog, sinkWrite_cont, hw, true_and, List.length_append, List.length_singleton] at he ⊢
      exact append_last_iff (p := fun e => e.reply = .pending) h.sink_answered rfl he
    sink_waits := fun _ => by simp
    source_pending := fun k e he =>
      ⟨fun hp => absurd hp (h.source_answered e (List.mem_of_getElem? he)), fun hs => absurd hs.1 hr⟩
    source_waits := fun hs => absurd hs hr }

/-- Opening a pull leaves a command that waits on it. -/
theorem inv_sourcePull (hb : s.status.busy = true) (hfl : s.status.done = false ∧ s.status.eof = false)
    (hc : Cont.ok s .sdecPull) (hf : s.senc.buf.length ≤ 4) : (sourcePull s s.params.decChunk .sdecPull).Inv :=
  { h with
    busy_iff := hb
    busy_flags := fun _ => hfl
    senc_fringe := fun _ => hf
    cont_ok := fun c' hc' => by cases hc'; exact hc
    sink_pending := fun k e he =>
      ⟨fun hp => absurd hp (h.sink_answered e (List.mem_of_getElem? he)), fun hs => by cases hs.1⟩
    sink_waits := fun hs => by cases hs
    source_pending := fun k e he => by
      simp only [sourcePull_srcLog, sourcePull_cont, Cont.waitsSource, true_and, List.length_append,
        List.length_singleton] at he ⊢
      exact append_last_iff (p := fun e => e.reply = .pending) h.source_answered rfl he
    source_waits := fun _ => by simp
    source_max := fun e he => by
      rcases List.mem_append.1 he with he | he
      · exact h.source_max e he
      · rw [List.mem_singleton.1 he]; rfl }

end Updates

/-- A command that is accepted and held (70_reset_and_hazards.md R303). -/
theorem inv_held {s : State} {i : Instr} (h : Running s i) : State.Inv { s with cont := some (.start i) } :=
  inv_of_quiet { h with } rfl rfl h.busy (fun _ => h.flags) h.fringe (fun _ hc => by cases hc; exact h.latched)

/-! ## The commands -/

section Commands

variable {s : State}

/-- Regions (b) and (c) of SENC_WRITE (43_stream_encoder.md R192), with no fringe. -/
theorem inv_sencInterior (h : Running s .sencWrite) (ho : s.senc.state = .opened) (hb : s.senc.buf = [])
    {p : List Byte} {acc : Nat} (hl : acc + p.length = lengthArg s.latch) : (sencInterior s p acc).Inv := by
  obtain ⟨hmod, hmin, -⟩ := legal_encStage h.params_legal
  rcases sencInterior_cases s p acc with ⟨h5, nn, hnn, he⟩ | ⟨h5, he⟩ <;> rw [he]
  · have hgroup : 5 ≤ nn ∧ nn % 5 = 0 ∧ nn ≤ s.params.encStageBytes ∧ nn ≤ p.length := by omega
    obtain ⟨hn5, hn0, hns, hnp⟩ := hgroup
    exact inv_sinkWrite h.toQuiet h.busy h.flags _ rfl ⟨h.latched, ho, hb, hn5, hn0, hns, hnp, hl⟩ fun _ => h.fringe
  · exact inv_completeWith (quiet_setFringe h.toQuiet fun hn => absurd ho hn) (Nat.le_of_lt_succ h5) _ _ _

/-- Region (a) of SENC_WRITE (43_stream_encoder.md R192). -/
theorem inv_sencTopUp (h : Running s .sencWrite) (ho : s.senc.state = .opened) {p : List Byte}
    (hp : p.length = lengthArg s.latch) : (sencTopUp s p).Inv := by
  have hq (buf : List Byte) : Quiet (setFringe s buf) := quiet_setFringe h.toQuiet fun hn => absurd ho hn
  have hfringe := h.fringe
  rcases sencTopUp_cases s p with ⟨hb, he⟩ | ⟨-, t, buf, ht, hbuf, ⟨h5, he⟩ | ⟨h5, he⟩⟩ <;> rw [he]
  · exact inv_sencInterior h ho hb (by omega)
  · exact inv_completeWith (hq buf) (Nat.le_of_lt_succ h5) _ _ _
  · have hlen : buf.length = s.senc.buf.length + min t p.length := by rw [hbuf]; simp
    exact inv_sinkWrite (hq buf) h.busy h.flags _ rfl
      ⟨h.latched, ho, by simp; omega, by simp; omega⟩ fun hn => absurd rfl (hn _ _)

/-- The delivery of SDEC_READ (44_stream_decoder.md R225). -/
theorem inv_sdecDeliver (h : Quiet s) (hfr : s.senc.buf.length ≤ 4) (ho : s.sdec.isOpen = true)
    (hf : Fits s (dstAddr s.latch) (lengthArg s.latch)) : (sdecDeliver s).Inv := by
  have hout : Fits s (dstAddr s.latch)
      (s.sdec.buf.take (min (lengthArg s.latch) s.sdec.buf.length)).length := by
    rw [List.length_take]
    unfold Fits at hf ⊢
    omega
  have hcap := h.sdec_capacity
  refine inv_completeWith (quiet_setSdec (quiet_storeBytes h hout) { s.sdec with buf := s.sdec.buf.drop _ } ho
    (h.sdec_bound ho) ?_) hfr _ _ _
  simp only [List.length_drop, storeBytes_params]
  omega

/-- Everything the decode of a pulled chunk can do (44_stream_decoder.md R224, R228). -/
theorem decodeChunk_cases (s : State) (syms : List Byte) :
    let r := decodeSeq (slotAt s s.sdec.slot.toNat).dt syms
    (∃ i, r.2 = .corrupt i ∧ decodeChunk s syms = raiseError s .corruptInput { offset := i }) ∨
    (r.2 = .ok ∧ decodeChunk s syms = sdecDeliver { s with sdec := { s.sdec with buf := r.1 } }) := by
  intro r
  have he : decodeChunk s syms = (match r.2 with
      | .corrupt i => raiseError s .corruptInput { offset := i }
      | .ok => sdecDeliver { s with sdec := { s.sdec with buf := r.1 } }
      | .unread _ => sdecDeliver { s with sdec := { s.sdec with buf := r.1 } }) := rfl
  rw [he]
  cases hr : r.2 with
  | corrupt i => exact .inl ⟨i, rfl, rfl⟩
  | ok => exact .inr ⟨rfl, rfl⟩
  | unread i => exact absurd hr (decodeSeq_ne_unread _ _ _)

theorem inv_decodeChunk (h : Quiet s) (hfr : s.senc.buf.length ≤ 4) (ho : s.sdec.isOpen = true)
    (hf : Fits s (dstAddr s.latch) (lengthArg s.latch)) {syms : List Byte}
    (hn : syms.length ≤ s.params.decChunk) : (decodeChunk s syms).Inv := by
  have hdeliver : (sdecDeliver { s with
      sdec := { s.sdec with buf := (decodeSeq (slotAt s s.sdec.slot.toNat).dt syms).1 } }).Inv :=
    inv_sdecDeliver (quiet_setSdec h { s.sdec with buf := _ } ho (h.sdec_bound ho) (decodeSeq_length_le _ hn))
      hfr ho hf
  rcases decodeChunk_cases s syms with ⟨i, -, he⟩ | ⟨-, he⟩ <;> rw [he]
  · exact inv_raiseError h hfr _ _
  · exact hdeliver

/-- Every command brings the core to a state with the invariant. -/
theorem inv_exec {i : Instr} {t : State} (h : Running s i) (he : exec i s = .next t) : t.Inv := by
  have hq := h.toQuiet
  have hfr := h.fringe
  cases exec_next he with
  | failed => exact inv_raiseError hq hfr _ _
  | sticky => exact inv_raiseError hq hfr _ _
  | done => exact inv_completeWith hq hfr _ _ _
  | loaded k sym hc => exact inv_completeWith (quiet_loadSlot hq sym hc) hfr _ _ _
  | encoded _ k n L src hi hu hr =>
    obtain ⟨-, hdst, -⟩ := hr
    exact inv_completeWith (quiet_storeBytes hq (by rwa [encodeCore_length])) hfr _ _ _
  | decoded _ k mode out en hi hu hr hd t ht =>
    obtain ⟨-, hdst, -⟩ := hr
    have hlen := decodeCore_length_le (slotAt s k).dt (fun j => readByte s.mem (srcAddr s.latch + j))
      (lengthArg s.latch) mode
    rw [hd] at hlen
    have hstored : Quiet (storeBytes s (dstAddr s.latch) out) :=
      quiet_storeBytes hq (by unfold Fits at hdst ⊢; simp only at hlen; omega)
    rcases ht with ⟨-, rfl⟩ | ⟨k, -, rfl⟩
    · exact inv_completeWith hstored hfr _ _ _
    · exact inv_raiseError hstored hfr _ _
  | sencOpened k hu =>
    refine inv_completeWith (quiet_setSenc hq ⟨.opened, BitVec.ofNat 3 k, [], 0⟩ (fun _ => ?_) fun _ => rfl)
      (Nat.zero_le _) _ _ _
    rwa [toNat_slot_of_usable hq.params_legal hu]
  | sencWrote p ho hp => exact inv_sencTopUp h ho hp
  | sencClosed ho hb =>
    exact inv_completeWith (quiet_setSenc hq { s.senc with state := .closed }
      (fun _ => hq.senc_bound (by rw [ho]; decide)) fun _ => hb) hfr _ _ _
  | sencClosing ho hb =>
    exact inv_sinkWrite hq h.busy h.flags _ rfl ⟨h.latched, ho, List.length_pos_iff.2 hb, hfr⟩ fun _ => hfr
  | sdecOpened k hu =>
    refine inv_completeWith (quiet_setSdec hq ⟨true, BitVec.ofNat 3 k, [], false⟩ rfl ?_ (Nat.zero_le _)) hfr _ _ _
    rwa [toNat_slot_of_usable hq.params_legal hu]
  | sdecPulled ho hf hn hb heof => exact inv_sourcePull hq h.busy h.flags ⟨h.latched, ho, hb, heof, hn, hf⟩ hfr
  | sdecServed ho hf => exact inv_sdecDeliver hq hfr ho hf

end Commands

/-! ## What the invariant does not name -/

/-- The operand registers, OVR, what moves next, the host's log and the draws are free. -/
theorem inv_bystander {s : State} (h : s.Inv) {x0 x1 x2 x3 : Word} {o : Bool} {ins : List Input}
    {prog : List HostMove} {log : List HostSeen} {d : Nat} :
    State.Inv { s with
      arg0 := x0, arg1 := x1, arg2 := x2, arg3 := x3, status := { s.status with ovr := o }
      inputs := ins, program := prog, hostLog := log, draws := d } :=
  { h with cont_ok := h.cont_ok }

/-! ## The resets -/

theorem slotAt_powerOn (p : Params) (j : Nat) : slotAt (State.powerOn p) (j + 2) = Slot.unloaded := by
  simp only [slotAt, powerOn_loadable]
  by_cases hj : j < 6
  · simp [hj]
  · rw [Vector.getElem?_eq_none (by omega)]; rfl

/-- After power-on exactly the ROM slots are valid (10_state.md R42). -/
theorem slot_powerOn_cases (p : Params) (i : Nat) :
    (i < 2 ∧ ∃ alpha, slotAt (State.powerOn p) i = romSlot alpha) ∨
    (2 ≤ i ∧ slotAt (State.powerOn p) i = Slot.unloaded) := by
  match i with
  | 0 => exact .inl ⟨by omega, _, by simp only [slotAt]; rfl⟩
  | 1 => exact .inl ⟨by omega, _, by simp only [slotAt]; rfl⟩
  | j + 2 => exact .inr ⟨by omega, slotAt_powerOn p j⟩

theorem inv_powerOn {p : Params} (h : p.legal = true) : (State.powerOn p).Inv where
  params_legal := h
  mem_wf := rfl
  mem_inside := fun _ hc => by cases hc
  cmd_latched := rfl
  busy_iff := rfl
  busy_flags := fun hb => by cases hb
  slots_built := fun i hi => by
    rcases slot_powerOn_cases p i with ⟨-, alpha, he⟩ | ⟨-, he⟩ <;> rw [he] at hi ⊢
    · rfl
    · cases hi
  slots_absent := fun i hi => by
    have h2 := (legal_numSlots h).1
    rcases slot_powerOn_cases p i with ⟨hi2, -⟩ | ⟨-, he⟩
    · rw [powerOn_params] at hi; omega
    · rw [he]; rfl
  senc_bound := fun hs => absurd rfl hs
  senc_empty := fun _ => rfl
  senc_fringe := fun _ => Nat.zero_le _
  sdec_bound := fun ho => by cases ho
  sdec_closed := fun _ => ⟨rfl, rfl⟩
  sdec_capacity := Nat.zero_le _
  cont_ok := fun _ hc => by cases hc
  sink_pending := fun _ _ he => by cases he
  sink_waits := fun hw => by cases hw
  source_pending := fun _ _ he => by cases he
  source_waits := fun hw => by cases hw
  source_max := fun _ he => by cases he

theorem abandon_ne_pending {α : Type} (r : Reply α) : r.abandon ≠ .pending := by cases r <;> simp [Reply.abandon]

/-! ## From the invariant to a running core and back -/

section Entering

variable {s : State} (h : s.Inv)

include h

theorem quiet_of_inv (hs : Cont.waitsSink s.cont = false) (hr : Cont.waitsSource s.cont = false) : Quiet s :=
  { h with
    sink_answered := fun e he hp => by
      obtain ⟨k, hk⟩ := List.getElem?_of_mem he
      have hw := ((h.sink_pending k e hk).1 hp).1
      rw [hs] at hw; cases hw
    source_answered := fun e he hp => by
      obtain ⟨k, hk⟩ := List.getElem?_of_mem he
      have hw := ((h.source_pending k e hk).1 hp).1
      rw [hr] at hw; cases hw }

theorem cont_of_idle (hb : s.status.busy = false) : s.cont = none := by
  have hi := h.busy_iff
  rw [hb] at hi
  cases hc : s.cont with
  | none => rfl
  | some c => rw [hc] at hi; cases hi

theorem flags_of_cont {c : Cont} (hc : s.cont = some c) :
    s.status.busy = true ∧ s.status.done = false ∧ s.status.eof = false := by
  have hb : s.status.busy = true := by rw [h.busy_iff, hc]; rfl
  exact ⟨hb, h.busy_flags hb⟩

theorem quiet_of_idle (hb : s.status.busy = false) : Quiet s ∧ s.senc.buf.length ≤ 4 := by
  have hc := cont_of_idle h hb
  exact ⟨quiet_of_inv h (by rw [hc]; rfl) (by rw [hc]; rfl), h.senc_fringe (by rw [hc]; simp)⟩

theorem quiet_accept (hb : s.status.busy = false) (w : Word) : Quiet (accept s w) :=
  { (quiet_of_idle h hb).1 with cmd_latched := rfl }

/-- An acceptance of a command lets the core run it (30_encoding.md R80). -/
theorem running_accept (hb : s.status.busy = false) {w : Word} {i : Instr} (hd : decodeWord w = .ok i) :
    Running (accept s w) i :=
  { quiet_accept h hb w with busy := rfl, flags := ⟨rfl, rfl⟩, fringe := (quiet_of_idle h hb).2, latched := hd }

/-- The core's turn lets it run a held command (70_reset_and_hazards.md R303). -/
theorem running_start {i : Instr} (hc : s.cont = some (.start i)) : Running { s with cont := none } i := by
  obtain ⟨hb, hf⟩ := flags_of_cont h hc
  have hq := quiet_of_inv h (by rw [hc]; rfl) (by rw [hc]; rfl)
  exact { hq with
    busy := hb, flags := hf, fringe := h.senc_fringe (by rw [hc]; simp), latched := h.cont_ok _ hc }

/-- The answer to the pending sink transaction leaves none open. -/
theorem quiet_logSinkAnswer {tx : Nat} (hp : s.sinkLog[tx]?.map SinkTx.reply = some .pending) (a : SinkAnswer) :
    Quiet (logSinkAnswer s tx a) := by
  obtain ⟨e, he, hpe⟩ := Option.map_eq_some_iff.1 hp
  obtain ⟨hw, hlast⟩ := (h.sink_pending tx e he).1 hpe
  have hlog : ∀ e ∈ (logSinkAnswer s tx a).sinkLog, e.reply ≠ .pending :=
    modify_only (p := fun e : SinkTx => e.reply = .pending)
      (fun k e hk hpk => by have := ((h.sink_pending k e hk).1 hpk).2; omega) (fun _ => by simp)
  exact { h with
    sink_answered := hlog
    source_answered := fun e he hpe => by
      obtain ⟨k, hk⟩ := List.getElem?_of_mem he
      have hr := ((h.source_pending k e hk).1 hpe).1
      rw [waitsSource_of_waitsSink hw] at hr; cases hr }

/-- The answer to the pending pull leaves none open. -/
theorem quiet_logSourceAnswer {tx : Nat} {e : SourceTx} (he : s.srcLog[tx]? = some e) (hp : e.reply = .pending)
    (hc : s.cont = some .sdecPull) (a : SourceAnswer) : Quiet (logSourceAnswer s tx a) := by
  have hlast := ((h.source_pending tx e he).1 hp).2
  have hlog : ∀ e ∈ (logSourceAnswer s tx a).srcLog, e.reply ≠ .pending :=
    modify_only (p := fun e : SourceTx => e.reply = .pending)
      (fun k e hk hpk => by have := ((h.source_pending k e hk).1 hpk).2; omega) (fun _ => by simp)
  exact { h with
    sink_answered := fun e he hpe => by
      obtain ⟨k, hk⟩ := List.getElem?_of_mem he
      have hw := ((h.sink_pending k e hk).1 hpe).1
      rw [hc] at hw; cases hw
    source_answered := hlog
    source_max := fun e he => by
      obtain ⟨k, hk⟩ := List.getElem?_of_mem he
      rw [logSourceAnswer_srcLog, List.getElem?_modify] at hk
      obtain ⟨e', he', rfl⟩ := Option.map_eq_some_iff.1 hk
      have hmax := h.source_max e' (List.mem_of_getElem? he')
      split <;> exact hmax }

theorem inv_afterFringe {tx t : Nat} {p : List Byte} {a : SinkAnswer} (hc : s.cont = some (.sencFringe p t))
    (hp : s.sinkLog[tx]?.map SinkTx.reply = some .pending) : (afterFringe (logSinkAnswer s tx a) p t a).Inv := by
  obtain ⟨hd, ho, -, hl⟩ := h.cont_ok _ hc
  obtain ⟨hb, hfl⟩ := flags_of_cont h hc
  have hq : Quiet (setFringe (logSinkAnswer s tx a) []) :=
    quiet_setFringe (quiet_logSinkAnswer h hp a) fun _ => rfl
  cases a with
  | ok =>
    exact inv_sencInterior { hq with busy := hb, flags := hfl, fringe := Nat.zero_le _, latched := hd } ho rfl hl
  | err code => exact inv_failStream hq ho rfl code _

theorem inv_afterGroup {tx nn acc : Nat} {p : List Byte} {a : SinkAnswer}
    (hc : s.cont = some (.sencGroup nn p acc)) (hp : s.sinkLog[tx]?.map SinkTx.reply = some .pending) :
    (afterGroup (logSinkAnswer s tx a) nn p acc a).Inv := by
  obtain ⟨hd, ho, hbuf, -, -, -, hnn, hl⟩ := h.cont_ok _ hc
  obtain ⟨hb, hfl⟩ := flags_of_cont h hc
  have hq := quiet_logSinkAnswer h hp a
  cases a with
  | ok =>
    refine inv_sencInterior { hq with busy := hb, flags := hfl, fringe := ?_, latched := hd } ho hbuf ?_
    · rw [logSinkAnswer_senc, hbuf]; exact Nat.zero_le _
    · rw [List.length_drop, logSinkAnswer_latch]; omega
  | err code => exact inv_failStream hq ho hbuf code _

theorem inv_afterClose {tx : Nat} {a : SinkAnswer} (hc : s.cont = some .sencClose)
    (hp : s.sinkLog[tx]?.map SinkTx.reply = some .pending) : (afterClose (logSinkAnswer s tx a) a).Inv := by
  obtain ⟨-, ho, -⟩ := h.cont_ok _ hc
  have hq := quiet_logSinkAnswer h hp a
  cases a with
  | ok =>
    exact inv_completeWith (quiet_setSenc hq { s.senc with state := .closed, buf := [] }
      (fun _ => hq.senc_bound (by rw [logSinkAnswer_senc, ho]; decide)) fun _ => rfl) (Nat.zero_le _) _ _ _
  | err code => exact inv_failStream (quiet_setFringe hq fun _ => rfl) ho rfl code _

/-- The sink's answers (60_exceptions.md R262). -/
theorem inv_sinkStep {tx : Nat} {a : SinkAnswer} {t : State} (ht : sinkStep s tx a = .next t) : t.Inv := by
  rcases sinkStep_cases s tx a with he | ⟨-, he⟩ | ⟨hp, ⟨p, n, hc, he⟩ | ⟨nn, p, acc, hc, he⟩ | ⟨hc, he⟩⟩ <;>
    rw [he] at ht <;> cases ht
  · exact h
  · exact inv_afterFringe h hc hp
  · exact inv_afterGroup h hc hp
  · exact inv_afterClose h hc hp

/-- The source's answers (60_exceptions.md R263). -/
theorem inv_sourceStep {tx : Nat} {a : SourceAnswer} {t : State} (ht : sourceStep s tx a = .next t) : t.Inv := by
  rcases sourceStep_cases s tx a with he | he | ⟨-, he⟩ | ⟨e, hk, hp, hn, hc, he⟩ <;> rw [he] at ht <;> cases ht
  · exact h
  · obtain ⟨-, ho, hbuf, -, -, hf⟩ := h.cont_ok _ hc
    have hq := quiet_logSourceAnswer h hk hp hc a
    have hfr : s.senc.buf.length ≤ 4 := h.senc_fringe (by rw [hc]; simp)
    rw [h.source_max e (List.mem_of_getElem? hk)] at hn
    unfold afterPull
    split
    · exact inv_raiseError hq hfr _ _
    · exact inv_decodeChunk (quiet_setSdec hq { s.sdec with eof := true } ho (hq.sdec_bound ho) hq.sdec_capacity)
        hfr ho hf hn
    · exact inv_decodeChunk hq hfr ho hf hn

/-- A command of the core's own step. -/
theorem inv_coreStep {t : State} (ht : coreStep s = .next t) : t.Inv := by
  rcases coreStep_next ht with ⟨rfl, -⟩ | ⟨i, hc, he⟩
  · exact h
  · exact inv_exec (running_start h hc) he

theorem inv_writeCmd {held : Bool} {w : Word} {t : State} (ht : writeCmd held w s = .next t) : t.Inv := by
  rcases writeCmd_cases held w s with ⟨-, he⟩ | ⟨hb, ⟨why, -, he⟩ | ⟨i, hd, -, he⟩ | ⟨i, hd, -, he⟩⟩ <;>
    rw [he] at ht
  · cases ht; exact inv_bystander h
  · cases ht; exact inv_raiseError (quiet_accept h hb w) (quiet_of_idle h hb).2 _ _
  · cases ht; exact inv_held (running_accept h hb hd)
  · exact inv_exec (running_accept h hb hd) ht

theorem inv_softReset : (softReset s).Inv :=
  { inv_powerOn h.params_legal with
    mem_wf := h.mem_wf
    mem_inside := h.mem_inside
    sink_pending := fun k e he => by
      rw [softReset_sinkLog, List.getElem?_map] at he
      obtain ⟨e', -, rfl⟩ := Option.map_eq_some_iff.1 he
      exact ⟨fun hp => absurd hp (abandon_ne_pending _), fun hw => by cases hw.1⟩
    source_pending := fun k e he => by
      rw [softReset_srcLog, List.getElem?_map] at he
      obtain ⟨e', -, rfl⟩ := Option.map_eq_some_iff.1 he
      exact ⟨fun hp => absurd hp (abandon_ne_pending _), fun hw => by cases hw.1⟩
    sink_waits := fun hw => by cases hw
    source_waits := fun hw => by cases hw
    source_max := fun e he => by
      obtain ⟨e', he', rfl⟩ := List.mem_map.1 he
      exact h.source_max e' he' }

theorem inv_powerOnReset : (powerOnReset s).Inv :=
  inv_bystander (inv_powerOn h.params_legal)

/-- The host's transactions. -/
theorem inv_hostStep {held : Bool} {op : HostOp} {t : State} (ht : hostStep held op s = .next t) : t.Inv := by
  cases hostStep_next ht with
  | read _ v d => exact inv_bystander h
  | cmd w _ hw => exact inv_writeCmd h hw
  | ctrl w =>
    rcases writeCtrl_cases w s with ⟨-, he⟩ | ⟨-, -, he⟩ | ⟨-, -, he⟩ <;> rw [he]
    · exact inv_softReset h
    · exact inv_bystander h
    · exact h
  | arg offset w x0 x1 x2 x3 =>
    exact inv_bystander h
  | ignored => exact h
  | mem a b ha =>
    exact { h with
      mem_wf := writeByte_wf a b h.mem_wf
      mem_inside := fun c hc => by
        rcases mem_writeByte hc with rfl | hc
        · exact ha
        · exact h.mem_inside c hc
      cont_ok := h.cont_ok }

theorem inv_programStep {held : Bool} {t : State} (ht : programStep held s = .next t) : t.Inv := by
  have hp (rest : List HostMove) : State.Inv { s with program := rest } :=
    inv_bystander h
  rcases programStep_cases held s with ⟨-, he⟩ | ⟨o, rest, -, he⟩ | ⟨rest, -, he⟩ <;> rw [he] at ht
  · cases ht; exact h
  · exact inv_hostStep (hp rest) ht
  · cases ht
    rw [waitPoll_eq]
    exact inv_bystander h

theorem inv_inputStep {e : Input} {t : State} (ht : inputStep e s = .next t) : t.Inv := by
  cases e with
  | host op => exact inv_hostStep h ht
  | hostHeld op => exact inv_hostStep h ht
  | program held => exact inv_programStep h ht
  | core => exact inv_coreStep h ht
  | sinkAnswer tx a => exact inv_sinkStep h ht
  | sourceAnswer tx a => exact inv_sourceStep h ht
  | powerOn => cases ht; exact inv_powerOnReset h

end Entering

/-- Settles O12: the next input's agent keeps the invariant, whichever it is. -/
theorem stepKeepsInvariant : Obligations.StepKeepsInvariant := by
  intro s t h ht
  rcases step_next ht with ⟨-, ht⟩ | ⟨e, rest, -, ht⟩
  · exact inv_coreStep h ht
  · exact inv_inputStep (inv_bystander h) ht

end Sys2Proof.Proofs

/-!
PROOFS. What a command and a step leave alone (10_state.md, O56, O58, O17): the host's side of the block and
the tables of the valid slots.
-/

namespace Sys2Proof.Proofs

open Sys2Proof Sys2Proof.Machine Sys2Proof.Laws

/-! ## The host's side of the block -/

/-- The part of the state that no command changes but for LUT_LOAD's write of a slot. -/
structure HostSide where
  params : Params
  cmdReg : Word
  arg0 : Word
  arg1 : Word
  arg2 : Word
  arg3 : Word
  latch : Latch
  ovr : Bool
  loadable : Vector Slot 6
  inputs : List Input
  program : List HostMove
  hostLog : List HostSeen
  draws : Nat

/-- The host's side of a state. -/
def hostSide (s : State) : HostSide :=
  { params := s.params, cmdReg := s.cmdReg, arg0 := s.arg0, arg1 := s.arg1, arg2 := s.arg2, arg3 := s.arg3
    latch := s.latch, ovr := s.status.ovr, loadable := s.loadable, inputs := s.inputs, program := s.program
    hostLog := s.hostLog, draws := s.draws }

theorem hostSide_sencInterior (s : State) (p : List Byte) (acc : Nat) :
    hostSide (sencInterior s p acc) = hostSide s := by
  rcases sencInterior_cases s p acc with ⟨-, nn, -, he⟩ | ⟨-, he⟩ <;> rw [he]
  · rfl
  · rfl

theorem hostSide_sencTopUp (s : State) (p : List Byte) : hostSide (sencTopUp s p) = hostSide s := by
  rcases sencTopUp_cases s p with ⟨-, he⟩ | ⟨-, t, buf, -, -, ⟨-, he⟩ | ⟨-, he⟩⟩ <;> rw [he]
  · exact hostSide_sencInterior s p 0
  · rfl
  · rfl

theorem hostSide_decodeChunk (s : State) (syms : List Byte) : hostSide (decodeChunk s syms) = hostSide s := by
  rcases decodeChunk_cases s syms with ⟨i, -, he⟩ | ⟨-, he⟩ <;> rw [he]
  · rfl
  · rfl

/-- A command leaves the host's side alone, or it is a LUT_LOAD that loads its slot. -/
theorem hostSide_exec {i : Instr} {s t : State} (h : exec i s = .next t) :
    hostSide t = hostSide s ∨
    ∃ k sym, canLoad s k = true ∧ t = completeWith (loadSlot s k sym) 0 0 false := by
  cases exec_next h with
  | loaded k sym hc => exact .inr ⟨k, sym, hc, rfl⟩
  | decoded _ k mode out en hi hu hr hd t ht =>
    rcases ht with ⟨-, rfl⟩ | ⟨k, -, rfl⟩
    · exact .inl rfl
    · exact .inl rfl
  | sencWrote p => exact .inl (hostSide_sencTopUp s p)
  | failed | sticky | done | encoded | sencOpened | sencClosed | sencClosing | sdecOpened | sdecPulled
  | sdecServed => exact .inl rfl

/-- The answers of the sink leave the host's side alone. -/
theorem hostSide_sinkStep {s t : State} {tx : Nat} {a : SinkAnswer} (h : sinkStep s tx a = .next t) :
    hostSide t = hostSide s := by
  rcases sinkStep_cases s tx a with he | ⟨-, he⟩ | ⟨-, ⟨p, n, -, he⟩ | ⟨nn, p, acc, -, he⟩ | ⟨-, he⟩⟩ <;>
    rw [he] at h <;> cases h
  · rfl
  · cases a with
    | ok => exact hostSide_sencInterior _ p n
    | err c => rfl
  · cases a with
    | ok => exact hostSide_sencInterior _ (p.drop nn) (acc + nn)
    | err c => rfl
  · cases a with
    | ok => rfl
    | err c => rfl

/-- The answers of the source leave the host's side alone. -/
theorem hostSide_sourceStep {s t : State} {tx : Nat} {a : SourceAnswer} (h : sourceStep s tx a = .next t) :
    hostSide t = hostSide s := by
  rcases sourceStep_cases s tx a with he | he | ⟨-, he⟩ | ⟨e, -, -, -, -, he⟩ <;> rw [he] at h <;> cases h
  · rfl
  · unfold afterPull
    split
    · rfl
    · exact hostSide_decodeChunk _ a.syms
    · exact hostSide_decodeChunk _ a.syms

/-! ## The port logs -/

/-- A command only adds to SINKLOG and SRCLOG (20_memory.md R77). -/
theorem exec_logs {i : Instr} {s t : State} (h : exec i s = .next t) :
    s.sinkLog <+: t.sinkLog ∧ s.srcLog <+: t.srcLog := by
  have hinterior (p : List Byte) (acc : Nat) :
      s.sinkLog <+: (sencInterior s p acc).sinkLog ∧ s.srcLog <+: (sencInterior s p acc).srcLog := by
    rcases sencInterior_cases s p acc with ⟨-, nn, -, he⟩ | ⟨-, he⟩ <;> rw [he]
    · exact ⟨List.prefix_append _ _, List.prefix_refl _⟩
    · exact ⟨List.prefix_refl _, List.prefix_refl _⟩
  cases exec_next h with
  | decoded _ k mode out en hi hu hr hd t ht =>
    rcases ht with ⟨-, rfl⟩ | ⟨k, -, rfl⟩
    · exact ⟨List.prefix_refl _, List.prefix_refl _⟩
    · exact ⟨List.prefix_refl _, List.prefix_refl _⟩
  | sencWrote p =>
    rcases sencTopUp_cases s p with ⟨-, he⟩ | ⟨-, n, buf, -, -, ⟨-, he⟩ | ⟨-, he⟩⟩ <;> rw [he]
    · exact hinterior p 0
    · exact ⟨List.prefix_refl _, List.prefix_refl _⟩
    · exact ⟨List.prefix_append _ _, List.prefix_refl _⟩
  | sencClosing => exact ⟨List.prefix_append _ _, List.prefix_refl _⟩
  | sdecPulled => exact ⟨List.prefix_refl _, List.prefix_append _ _⟩
  | failed | sticky | done | loaded | encoded | sencOpened | sencClosed | sdecOpened | sdecServed =>
    exact ⟨List.prefix_refl _, List.prefix_refl _⟩

/-- Settles O56: the host's side is left alone, but for LUT_LOAD's slot, and the logs only grow. -/
theorem commandFrame : Obligations.CommandFrame := by
  intro s t i h
  obtain ⟨hsink, hsource⟩ := exec_logs h
  rcases hostSide_exec h with hs | ⟨k, sym, -, rfl⟩
  · simp only [hostSide, HostSide.mk.injEq] at hs
    obtain ⟨hp, hc, h0, h1, h2, h3, hl, ho, -, hi, hg, hh, hd⟩ := hs
    exact ⟨hp, hc, h0, h1, h2, h3, hl, ho, hi, hg, hh, hd, hsink, hsource⟩
  · exact ⟨rfl, rfl, rfl, rfl, rfl, rfl, rfl, rfl, rfl, rfl, rfl, rfl, hsink, hsource⟩

/-! ## The parameters and the tables -/

/-- The step from `s` to `t` keeps the parameters and the tables of every valid slot. -/
def KeepsTables (s t : State) : Prop :=
  t.params = s.params ∧ ∀ i, (slotAt s i).valid = true → slotAt t i = slotAt s i

theorem keepsTables_of_eq {s t : State} (hp : t.params = s.params) (hl : t.loadable = s.loadable) :
    KeepsTables s t := ⟨hp, fun i _ => slotAt_congr hp hl i⟩

theorem keepsTables_of_hostSide {s t : State} (h : hostSide t = hostSide s) : KeepsTables s t :=
  keepsTables_of_eq (congrArg HostSide.params h) (congrArg HostSide.loadable h)

theorem keepsTables_exec {i : Instr} {s t : State} (h : exec i s = .next t) : KeepsTables s t := by
  rcases hostSide_exec h with hs | ⟨k, sym, hc, rfl⟩
  · exact keepsTables_of_hostSide hs
  · exact ⟨rfl, fun i hv => slotAt_loadSlot_of_valid sym hc hv⟩

theorem keepsTables_coreStep {s t : State} (h : coreStep s = .next t) : KeepsTables s t := by
  rcases coreStep_next h with ⟨rfl, -⟩ | ⟨i, -, he⟩
  · exact keepsTables_of_eq rfl rfl
  · exact keepsTables_exec he

theorem keepsTables_writeCmd {held : Bool} {w : Word} {s t : State} (h : writeCmd held w s = .next t) :
    KeepsTables s t := by
  rcases writeCmd_cases held w s with ⟨-, he⟩ | ⟨-, ⟨why, -, he⟩ | ⟨i, -, -, he⟩ | ⟨i, -, -, he⟩⟩ <;> rw [he] at h
  · cases h; exact keepsTables_of_eq rfl rfl
  · cases h; exact keepsTables_of_eq rfl rfl
  · cases h; exact keepsTables_of_eq rfl rfl
  · exact keepsTables_exec (s := accept s w) h

/-- A transaction of the host keeps the tables, or it is the soft reset. -/
theorem keepsTables_hostStep {held : Bool} {op : HostOp} {s t : State} (h : hostStep held op s = .next t) :
    KeepsTables s t ∨ ∃ w : Word, op = .regWrite 32 0x28 w ∧ w.getLsbD 0 = true ∧ t = softReset s := by
  cases hostStep_next h with
  | cmd w _ hw => exact .inl (keepsTables_writeCmd hw)
  | ctrl w =>
    rcases writeCtrl_cases w s with ⟨hw, he⟩ | ⟨-, -, he⟩ | ⟨-, -, he⟩ <;> rw [he]
    · exact .inr ⟨w, rfl, hw, rfl⟩
    · exact .inl (keepsTables_of_eq rfl rfl)
    · exact .inl (keepsTables_of_eq rfl rfl)
  | read | arg | ignored | mem => exact .inl (keepsTables_of_eq rfl rfl)

/-- A soft reset is what `State.resets` names (70_reset_and_hazards.md R291). -/
theorem resets_of_nextOp {s : State} {w : Word} (ho : s.nextOp = some (.regWrite 32 0x28 w))
    (hw : w.getLsbD 0 = true) : s.resets = true := by simp [State.resets, ho, hw]

/-- The host's transaction of the next step, of an input or of the program. -/
theorem keepsTables_of_nextOp {s t : State} {held : Bool} {op : HostOp} (ins : List Input) (prog : List HostMove)
    (ho : s.nextOp = some op) (h : hostStep held op { s with inputs := ins, program := prog } = .next t) :
    KeepsTables s t ∨ (s.resets = true ∧ t.params = s.params) := by
  rcases keepsTables_hostStep h with hk | ⟨w, rfl, hw, rfl⟩
  · exact .inl hk
  · exact .inr ⟨resets_of_nextOp ho hw, rfl⟩

/-- Every step keeps the parameters, and every step but a reset the tables of the valid slots. -/
theorem keepsTables_step {s t : State} (h : step s = .next t) :
    KeepsTables s t ∨ (s.resets = true ∧ t.params = s.params) := by
  rcases step_next h with ⟨-, h⟩ | ⟨e, rest, hin, h⟩
  · exact .inl (keepsTables_coreStep h)
  cases e with
  | host op | hostHeld op =>
    exact keepsTables_of_nextOp rest s.program (op := op) (by simp [State.nextOp, hin]) h
  | program held =>
    rcases programStep_cases held { s with inputs := rest } with ⟨-, he⟩ | ⟨o, prog, hpr, he⟩ | ⟨prog, -, he⟩ <;>
      rw [inputStep, he] at h
    · cases h; exact .inl (keepsTables_of_eq rfl rfl)
    · have hprog : s.program = .op o :: prog := hpr
      exact keepsTables_of_nextOp rest prog (op := o) (by simp [State.nextOp, hin, hprog]) h
    · cases h; rw [waitPoll_eq]; exact .inl (keepsTables_of_eq rfl rfl)
  | core => exact .inl (keepsTables_coreStep (s := { s with inputs := rest }) h)
  | sinkAnswer tx a => exact .inl (keepsTables_of_hostSide (s := { s with inputs := rest }) (hostSide_sinkStep h))
  | sourceAnswer tx a =>
    exact .inl (keepsTables_of_hostSide (s := { s with inputs := rest }) (hostSide_sourceStep h))
  | powerOn => cases h; exact .inr ⟨by simp [State.resets, State.powersOn, hin], rfl⟩

/-- Settles O58: every step but a reset keeps the tables of the valid slots. -/
theorem validSlotsAreImmutable : Obligations.ValidSlotsAreImmutable := by
  intro s t i h hv hr
  rcases keepsTables_step h with ⟨-, hk⟩ | ⟨hr', -⟩
  · exact hk i hv
  · rw [hr] at hr'; cases hr'

theorem step_params {s t : State} (h : step s = .next t) : t.params = s.params := by
  rcases keepsTables_step h with ⟨hp, -⟩ | ⟨-, hp⟩
  · exact hp
  · exact hp

end Sys2Proof.Proofs

/-!
PROOFS. A command reads its operands from the latched copies (10_state.md R27, O57): replacing the registers
that the host writes commutes with every operation of the core.
-/

namespace Sys2Proof.Proofs

open Sys2Proof Sys2Proof.Machine Sys2Proof.Laws

/-- Contents of the registers that the host writes: CMD and ARG0 to ARG3. -/
structure HostRegs where
  cmd : Word
  a0 : Word
  a1 : Word
  a2 : Word
  a3 : Word

/-- The state with those contents in the registers. -/
def withRegs (r : HostRegs) (s : State) : State :=
  { s with cmdReg := r.cmd, arg0 := r.a0, arg1 := r.a1, arg2 := r.a2, arg3 := r.a3 }

/-- The outcome with `f` applied to its next state. -/
def mapNext (f : State → State) : Host.Outcome State Fault Refusal → Host.Outcome State Fault Refusal
  | .next t => .next (f t)
  | .fault x => .fault x
  | .refused x => .refused x

section

variable (r : HostRegs) (s : State)

@[simp] theorem withRegs_params : (withRegs r s).params = s.params := rfl
@[simp] theorem withRegs_latch : (withRegs r s).latch = s.latch := rfl
@[simp] theorem withRegs_senc : (withRegs r s).senc = s.senc := rfl
@[simp] theorem withRegs_mem : (withRegs r s).mem = s.mem := rfl
@[simp] theorem slotAt_withRegs (i : Nat) : slotAt (withRegs r s) i = slotAt s i := rfl

/-- A rule that branches commutes with the replacement when both branches do. -/
theorem ite_withRegs {c : Prop} [Decidable c] {x x' y y' : Host.Outcome State Fault Refusal}
    (hx : x' = mapNext (withRegs r) x) (hy : y' = mapNext (withRegs r) y) :
    (if c then x' else y') = mapNext (withRegs r) (if c then x else y) := by
  rw [hx, hy, apply_ite (mapNext (withRegs r))]

theorem encodeTo_withRegs (h n nread L : Nat) :
    encodeTo (withRegs r s) h n nread L = mapNext (withRegs r) (encodeTo s h n nread L) := by
  refine ite_withRegs r rfl ?_
  rw [withRegs_mem, withRegs_latch]
  cases readBytes s.mem (srcAddr s.latch) nread with
  | error f => rfl
  | ok src => rfl

theorem decodeTo_withRegs (h : Nat) (mode : DecMode) :
    decodeTo (withRegs r s) h mode = mapNext (withRegs r) (decodeTo s h mode) := by
  refine ite_withRegs r rfl ?_
  simp only [withRegs_mem, withRegs_latch, slotAt_withRegs]
  split
  · rfl
  · rfl
  · rfl

theorem sencInterior_withRegs (p : List Byte) (acc : Nat) :
    sencInterior (withRegs r s) p acc = withRegs r (sencInterior s p acc) := by
  unfold sencInterior
  split
  · rfl
  · rfl

theorem sencTopUp_withRegs (p : List Byte) : sencTopUp (withRegs r s) p = withRegs r (sencTopUp s p) := by
  simp only [sencTopUp, withRegs_senc, apply_ite (withRegs r), ← sencInterior_withRegs]
  rfl

/-- Every command commutes with the replacement. -/
theorem exec_withRegs (i : Instr) : exec i (withRegs r s) = mapNext (withRegs r) (exec i s) := by
  cases i with
  | nop | encLen | decLen => rfl
  | symLookup k | dtLookup k | sencOpen k | sdecOpen k => exact ite_withRegs r rfl rfl
  | enc k => exact ite_withRegs r rfl (encodeTo_withRegs r s k _ _ _)
  | encBits k =>
    exact ite_withRegs r rfl (ite_withRegs r rfl (ite_withRegs r rfl (encodeTo_withRegs r s k _ _ _)))
  | dec k => exact ite_withRegs r rfl (decodeTo_withRegs r s k _)
  | decBits k => exact ite_withRegs r rfl (ite_withRegs r rfl (decodeTo_withRegs r s k _))
  | lutLoad k =>
    refine ite_withRegs r rfl (ite_withRegs r rfl ?_)
    rw [withRegs_mem, withRegs_latch]
    cases readBytes s.mem (srcAddr s.latch) 32 with
    | error f => rfl
    | ok bs => rfl
  | sencWrite =>
    simp only [exec, execSencWrite, withRegs_senc, withRegs_mem, withRegs_latch, withRegs_params]
    cases s.senc.state with
    | idle | closed | failed => rfl
    | opened =>
      refine ite_withRegs r rfl ?_
      cases readBytes s.mem (srcAddr s.latch) (lengthArg s.latch) with
      | error f => rfl
      | ok p => exact congrArg Host.Outcome.next (sencTopUp_withRegs r s p)
  | sencClose =>
    simp only [exec, execSencClose, withRegs_senc]
    cases s.senc.state with
    | idle | closed | failed => rfl
    | opened => exact ite_withRegs r rfl rfl
  | sdecRead =>
    exact ite_withRegs r rfl (ite_withRegs r rfl (ite_withRegs r rfl rfl))

end

/-- Settles O57: the registers the host writes are not read by the command. -/
theorem commandReadsOnlyLatched : Obligations.CommandReadsOnlyLatched := by
  intro s i w x0 x1 x2 x3
  refine (exec_withRegs ⟨w, x0, x1, x2, x3⟩ s i).trans ?_
  cases exec i s <;> rfl

end Sys2Proof.Proofs

/-!
PROOFS. The register block (10_state.md): how the bits of each register word stand (O14 to O17), what a read
and a write of a register do (O18, O19), and the CTRL write (O13).
-/

namespace Sys2Proof.Proofs

open Sys2Proof Sys2Proof.Machine Sys2Proof.Laws

/-! ## Fields of a register word -/

theorem getLsbD_flagBit (b : Bool) (i k : Nat) :
    (flagBit b i).getLsbD k = (decide (k < 32) && decide (k = i) && b) := by
  rw [flagBit, BitVec.getLsbD_shiftLeft]
  cases b with
  | false => simp
  | true =>
    rw [Bool.toNat_true, BitVec.getLsbD_one]
    by_cases hk : k = i
    · simp [hk]
    · simp [hk]; omega

/-- A field of `n` bits at place `i`. -/
theorem getLsbD_placed {n : Nat} (c : BitVec n) (i k : Nat) :
    (c.setWidth 32 <<< i).getLsbD k = (decide (k < 32) && decide (i ≤ k) && c.getLsbD (k - i)) := by
  rw [BitVec.getLsbD_shiftLeft, BitVec.getLsbD_setWidth]
  by_cases hk : k < 32
  · simp only [decide_eq_true (show k - i < 32 by omega), Bool.true_and, ← decide_not, Nat.not_lt]
  · rw [decide_eq_false hk, Bool.false_and, Bool.false_and, Bool.false_and, Bool.false_and]

/-- A field is read back with a shift and a mask of its width. -/
theorem field_eq {w m : Word} {n : Nat} {c : BitVec n} (i : Nat)
    (hm : ∀ j < 32, m.getLsbD j = decide (j < n)) (h : ∀ j < n, w.getLsbD (i + j) = c.getLsbD j) :
    w >>> i &&& m = c.setWidth 32 := by
  refine BitVec.eq_of_getLsbD_eq fun j hj => ?_
  rw [BitVec.getLsbD_and, BitVec.getLsbD_ushiftRight, hm j hj, BitVec.getLsbD_setWidth]
  by_cases hn : j < n
  · simp [hn, hj, h j hn]
  · simp [hn, BitVec.getLsbD_of_ge c j (Nat.not_lt.1 hn)]

/-- The word has no bit of the mask. -/
theorem and_mask_eq_zero {w m : Word} (h : ∀ k < 32, m.getLsbD k = true → w.getLsbD k = false) : w &&& m = 0 := by
  refine BitVec.eq_of_getLsbD_eq fun k hk => ?_
  rw [BitVec.getLsbD_and, BitVec.ofNat_eq_ofNat, BitVec.getLsbD_zero]
  cases hm : m.getLsbD k with
  | false => rw [Bool.and_false]
  | true => rw [h k hk hm, Bool.false_and]

theorem toNat_field {n : Nat} (c : BitVec n) (h : n ≤ 32) : (c.setWidth 32).toNat = c.toNat :=
  BitVec.toNat_setWidth_of_le h

/-! ## STATUS -/

theorem getLsbD_statusWord (st : Status) (k : Nat) :
    (statusWord st).getLsbD k = (decide (k < 32) &&
      (decide (k = 0) && st.busy || decide (k = 1) && st.done || decide (k = 2) && st.eof || decide (k = 3) && st.ovr
        || decide (8 ≤ k) && st.err.code.getLsbD (k - 8))) := by
  simp only [statusWord, BitVec.getLsbD_or, getLsbD_flagBit, getLsbD_placed, Bool.and_or_distrib_left, Bool.and_assoc]

/-- The error code's field of STATUS (10_state.md R23). -/
theorem statusWord_err (st : Status) : (statusWord st >>> 8 &&& 15).toNat = st.err.code.toNat := by
  have hfield : statusWord st >>> 8 &&& 15 = st.err.code.setWidth 32 := by
    refine field_eq 8 (by decide) fun j hj => ?_
    rw [getLsbD_statusWord]
    simp [show 8 + j < 32 by omega, show 8 + j ≠ 1 by omega, show 8 + j ≠ 2 by omega, show 8 + j ≠ 3 by omega]
  rw [hfield, toNat_field _ (by decide)]

/-- The bits of STATUS that read 0 (10_state.md R23). -/
theorem statusWord_reserved (st : Status) {k : Nat} (h : 4 ≤ k ∧ k < 8 ∨ 12 ≤ k) :
    (statusWord st).getLsbD k = false := by
  rw [getLsbD_statusWord]
  have hlow : k ≠ 0 ∧ k ≠ 1 ∧ k ≠ 2 ∧ k ≠ 3 := by omega
  rcases h with ⟨h4, h8⟩ | h12
  · simp [hlow, Nat.not_le.2 h8]
  · simp [hlow, BitVec.getLsbD_of_ge st.err.code (k - 8) (by omega)]

/-- Settles O14: by the place of each bit in the word. -/
theorem statusWordLayout : Obligations.StatusWordLayout := by
  intro s
  refine ⟨(getLsbD_statusWord s.status 0).trans (by simp), (getLsbD_statusWord s.status 1).trans (by simp),
    (getLsbD_statusWord s.status 2).trans (by simp), (getLsbD_statusWord s.status 3).trans (by simp),
    fun k h4 h8 => statusWord_reserved s.status (.inl ⟨h4, h8⟩), fun k h12 => statusWord_reserved s.status (.inr h12),
    (statusWord_err s.status).trans ?_⟩
  cases s.status.err <;> rfl

/-! ## SLOT_VALID -/

theorem getLsbD_flags (f : Nat → Bool) (n k : Nat) :
    ((List.range n).foldl (fun w i => w ||| flagBit (f i) i) (0 : Word)).getLsbD k
      = (decide (k < 32) && decide (k < n) && f k) := by
  induction n with
  | zero => simp
  | succ n ih =>
    rw [List.range_succ, List.foldl_append, List.foldl_cons, List.foldl_nil, BitVec.getLsbD_or, ih, getLsbD_flagBit]
    rcases Nat.lt_trichotomy k n with h | rfl | h
    · simp [h, Nat.ne_of_lt h, Nat.lt_succ_of_lt h]
    · simp
    · simp [Nat.ne_of_gt h, Nat.not_lt.2 (Nat.le_of_lt h), show ¬ k < n + 1 by omega]

theorem getLsbD_slotValidWord (s : State) (k : Nat) :
    (slotValidWord s).getLsbD k = (decide (k < 8) && usable s k) := by
  rw [slotValidWord, getLsbD_flags]
  by_cases h8 : k < 8
  · simp [h8, show k < 32 by omega]
  · simp [h8]

/-- After power-on the ROM slots are usable and no other (10_state.md R42). -/
theorem usable_powerOn {p : Params} (h : p.legal = true) (i : Nat) : usable (State.powerOn p) i = decide (i < 2) := by
  have h2 := (legal_numSlots h).1
  unfold usable
  rcases slot_powerOn_cases p i with ⟨hi, alpha, he⟩ | ⟨hi, he⟩ <;> rw [he]
  · simp [romSlot, hi, show i < p.numSlots by omega]
  · simp [Slot.unloaded, Nat.not_lt.2 hi]

/-- Settles O15: by the bits of the word. -/
theorem slotValidMirrorsValidBits : Obligations.SlotValidMirrorsValidBits := by
  refine ⟨fun s k h8 => ?_, fun p hp => BitVec.eq_of_getLsbD_eq fun k hk => ?_⟩
  · refine (getLsbD_slotValidWord s k).trans ?_
    unfold usable
    by_cases hk : k < s.params.numSlots
    · simp [hk, Nat.lt_of_lt_of_le hk h8]
    · simp [hk]
  · refine (getLsbD_slotValidWord _ k).trans ?_
    rw [usable_powerOn hp]
    revert k
    decide

/-! ## SENC_STATE and SDEC_STATE -/

theorem getLsbD_sencStateWord (e : Senc) (k : Nat) :
    (sencStateWord e).getLsbD k = (decide (k < 32) && ((BitVec.ofNat 3 e.buf.length).getLsbD k
      || decide (4 ≤ k) && e.state.code.getLsbD (k - 4) || decide (8 ≤ k) && e.slot.getLsbD (k - 8))) := by
  simp only [sencStateWord, BitVec.getLsbD_or, getLsbD_placed, BitVec.getLsbD_setWidth, Bool.and_or_distrib_left,
    Bool.and_assoc]

theorem getLsbD_sdecStateWord (d : Sdec) (k : Nat) :
    (sdecStateWord d).getLsbD k = (decide (k < 32) && ((BitVec.ofNat 16 d.buf.length).getLsbD k
      || decide (k = 16) && d.eof || decide (k = 17) && d.isOpen || decide (24 ≤ k) && d.slot.getLsbD (k - 24))) := by
  simp only [sdecStateWord, BitVec.getLsbD_or, getLsbD_placed, getLsbD_flagBit, BitVec.getLsbD_setWidth,
    Bool.and_or_distrib_left, Bool.and_assoc]

/-- The fields of SENC_STATE (10_state.md R32). -/
theorem sencStateWord_fields {e : Senc} (hlen : e.buf.length < 8) :
    (sencStateWord e &&& 7).toNat = e.buf.length ∧
    (sencStateWord e >>> 4 &&& 3).toNat = e.state.code.toNat ∧
    (sencStateWord e >>> 8 &&& 7).toNat = e.slot.toNat ∧ sencStateWord e &&& 0xFFFFF8C8 = 0 := by
  have hnbuf : sencStateWord e >>> 0 &&& 7 = (BitVec.ofNat 3 e.buf.length).setWidth 32 := by
    refine field_eq 0 (by decide) fun j hj => ?_
    rw [getLsbD_sencStateWord]
    simp [show j < 32 by omega, show ¬ 4 ≤ j by omega, show ¬ 8 ≤ j by omega]
  have hstate : sencStateWord e >>> 4 &&& 3 = e.state.code.setWidth 32 := by
    refine field_eq 4 (by decide) fun j hj => ?_
    rw [getLsbD_sencStateWord, BitVec.getLsbD_of_ge (BitVec.ofNat 3 _) _ (by omega)]
    simp [show 4 + j < 32 by omega, show ¬ 8 ≤ 4 + j by omega]
  have hslot : sencStateWord e >>> 8 &&& 7 = e.slot.setWidth 32 := by
    refine field_eq 8 (by decide) fun j hj => ?_
    rw [getLsbD_sencStateWord, BitVec.getLsbD_of_ge (BitVec.ofNat 3 _) _ (by omega),
      BitVec.getLsbD_of_ge e.state.code _ (by omega)]
    simp [show 8 + j < 32 by omega]
  rw [BitVec.ushiftRight_zero] at hnbuf
  rw [hnbuf, hstate, hslot, toNat_field _ (by decide), toNat_field _ (by decide), toNat_field _ (by decide)]
  refine ⟨by rw [BitVec.toNat_ofNat, Nat.mod_eq_of_lt hlen], rfl, rfl, and_mask_eq_zero fun k hk hm => ?_⟩
  have hplace : k = 3 ∨ 6 ≤ k ∧ k < 8 ∨ 11 ≤ k := by revert k; decide
  rw [getLsbD_sencStateWord, BitVec.getLsbD_of_ge (BitVec.ofNat 3 _) k (by omega)]
  rcases hplace with rfl | ⟨h6, h8⟩ | h11
  · simp
  · simp [BitVec.getLsbD_of_ge e.state.code (k - 4) (by omega), Nat.not_le.2 h8]
  · simp [BitVec.getLsbD_of_ge e.state.code (k - 4) (by omega), BitVec.getLsbD_of_ge e.slot (k - 8) (by omega)]

/-- The fields of SDEC_STATE (10_state.md R36). -/
theorem sdecStateWord_fields {d : Sdec} (hlen : d.buf.length < 65536) :
    (sdecStateWord d &&& 0xFFFF).toNat = d.buf.length ∧ (sdecStateWord d).getLsbD 16 = d.eof ∧
    (sdecStateWord d).getLsbD 17 = d.isOpen ∧ (sdecStateWord d >>> 24 &&& 7).toNat = d.slot.toNat ∧
    sdecStateWord d &&& 0xF8FC0000 = 0 := by
  have hcount : sdecStateWord d >>> 0 &&& 0xFFFF = (BitVec.ofNat 16 d.buf.length).setWidth 32 := by
    refine field_eq 0 (by decide) fun j hj => ?_
    rw [getLsbD_sdecStateWord]
    simp [show j < 32 by omega, show j ≠ 16 by omega, show j ≠ 17 by omega, show ¬ 24 ≤ j by omega]
  have hslot : sdecStateWord d >>> 24 &&& 7 = d.slot.setWidth 32 := by
    refine field_eq 24 (by decide) fun j hj => ?_
    rw [getLsbD_sdecStateWord, BitVec.getLsbD_of_ge (BitVec.ofNat 16 _) _ (by omega)]
    simp [show 24 + j < 32 by omega, show 24 + j ≠ 16 by omega, show 24 + j ≠ 17 by omega]
  rw [BitVec.ushiftRight_zero] at hcount
  rw [hcount, hslot, toNat_field _ (by decide), toNat_field _ (by decide), getLsbD_sdecStateWord,
    getLsbD_sdecStateWord]
  refine ⟨by rw [BitVec.toNat_ofNat, Nat.mod_eq_of_lt hlen], by simp, by simp, rfl,
    and_mask_eq_zero fun k hk hm => ?_⟩
  have hplace : 18 ≤ k ∧ k < 24 ∨ 27 ≤ k := by revert k; decide
  rw [getLsbD_sdecStateWord, BitVec.getLsbD_of_ge (BitVec.ofNat 16 _) k (by omega)]
  rcases hplace with ⟨h18, h24⟩ | h27
  · simp [show k ≠ 16 by omega, show k ≠ 17 by omega, Nat.not_le.2 h24]
  · simp [show k ≠ 16 by omega, show k ≠ 17 by omega, BitVec.getLsbD_of_ge d.slot (k - 24) (by omega)]

/-- Settles O16: by the fields of the two words. -/
theorem streamMirrorFields : Obligations.StreamMirrorFields := by
  intro s hbuf hcount
  obtain ⟨hnbuf, hstate, hslot, hzero⟩ := sencStateWord_fields hbuf
  refine ⟨hnbuf, hstate.trans ?_, hslot, hzero, sdecStateWord_fields hcount⟩
  cases s.senc.state <;> rfl

/-! ## ID and the PARAM registers -/

theorem getLsbD_paramStreamWord (p : Params) (k : Nat) :
    (paramStreamWord p).getLsbD k = (decide (k < 32) && ((BitVec.ofNat 16 p.decChunk).getLsbD k
      || decide (16 ≤ k) && (BitVec.ofNat 16 p.encStageBytes).getLsbD (k - 16))) := by
  simp only [paramStreamWord, BitVec.getLsbD_or, getLsbD_placed, BitVec.getLsbD_setWidth, Bool.and_or_distrib_left,
    Bool.and_assoc]

/-- The two fields of PARAM_STREAM (10_state.md R35). -/
theorem paramStreamWord_fields {p : Params} (h : p.legal = true) :
    (paramStreamWord p &&& 0xFFFF).toNat = p.decChunk ∧ (paramStreamWord p >>> 16).toNat = p.encStageBytes := by
  have hd := legal_decChunk h
  have he := legal_encStage h
  have hlow : paramStreamWord p >>> 0 &&& 0xFFFF = (BitVec.ofNat 16 p.decChunk).setWidth 32 := by
    refine field_eq 0 (by decide) fun j hj => ?_
    rw [getLsbD_paramStreamWord]
    simp [show j < 32 by omega, show ¬ 16 ≤ j by omega]
  have hhigh : paramStreamWord p >>> 16 = (BitVec.ofNat 16 p.encStageBytes).setWidth 32 := by
    refine BitVec.eq_of_getLsbD_eq fun j hj => ?_
    rw [BitVec.getLsbD_ushiftRight, getLsbD_paramStreamWord, BitVec.getLsbD_of_ge _ (16 + j) (by omega),
      BitVec.getLsbD_setWidth]
    by_cases h16 : j < 16
    · simp [hj, show 16 + j < 32 by omega]
    · simp [show ¬ 16 + j < 32 by omega, BitVec.getLsbD_of_ge _ j (Nat.not_lt.1 h16)]
  rw [BitVec.ushiftRight_zero] at hlow
  rw [hlow, hhigh, toNat_field _ (by decide), toNat_field _ (by decide), BitVec.toNat_ofNat, BitVec.toNat_ofNat]
  omega

theorem regValue_id (s : State) : regValue s 0x2C = idWord := rfl
theorem regValue_paramMem (s : State) : regValue s 0x3C = paramMemWord s.params := rfl
theorem regValue_paramStream (s : State) : regValue s 0x40 = paramStreamWord s.params := rfl
theorem regValue_paramSlots (s : State) : regValue s 0x44 = paramSlotsWord s.params := rfl

/-- ID and the PARAM registers depend on the parameters alone. -/
theorem regValue_constant {s t : State} (h : t.params = s.params) {offset : Nat}
    (ho : offset ∈ ([0x2C, 0x3C, 0x40, 0x44] : List Nat)) : regValue t offset = regValue s offset := by
  simp only [List.mem_cons, List.not_mem_nil, or_false] at ho
  rcases ho with rfl | rfl | rfl | rfl
  · rw [regValue_id, regValue_id]
  · rw [regValue_paramMem, regValue_paramMem, h]
  · rw [regValue_paramStream, regValue_paramStream, h]
  · rw [regValue_paramSlots, regValue_paramSlots, h]

/-- Settles O17: no step changes the parameters. -/
theorem constantRegisters : Obligations.ConstantRegisters := by
  refine ⟨fun s t h offset ho => regValue_constant (step_params h) ho, fun s h => ?_⟩
  have hm := legal_memBytes h
  have hn := legal_numSlots h
  obtain ⟨hlow, hhigh⟩ := paramStreamWord_fields h
  have hmem : (paramMemWord s.params).toNat = s.params.memBytes := by
    rw [paramMemWord, BitVec.toNat_ofNat]; omega
  have hslots : (paramSlotsWord s.params).toNat = s.params.numSlots := by
    rw [paramSlotsWord, toNat_field _ (by decide), BitVec.toNat_ofNat]; omega
  exact ⟨rfl, hmem, hlow, hhigh, hslots⟩

/-! ## The host's accesses -/

/-- The step of the host's bus transaction, with the core's step of an acceptance left for later or not. -/
theorem step_hostInput (s : State) (held : Bool) (rest : List Input) (op : HostOp) :
    step { s with inputs := hostInput held op :: rest } = hostStep held op { s with inputs := rest } := by
  cases held <;> rfl

theorem legalRegAccess_iff (width offset : Nat) :
    legalRegAccess width offset = true ↔ width = 32 ∧ offset % 4 = 0 ∧ offset < 256 := by
  simp [legalRegAccess, and_assoc]

/-- A legal write is the register's (10_state.md R38). -/
theorem step_regWrite (s : State) (held : Bool) (rest : List Input) {offset : Nat} (w : Word)
    (h4 : offset % 4 = 0) (h256 : offset < 256) :
    step { s with inputs := hostInput held (.regWrite 32 offset w) :: rest }
      = hostWriteReg held offset w { s with inputs := rest } := by
  rw [step_hostInput, hostStep, (legalRegAccess_iff 32 offset).2 ⟨rfl, h4, h256⟩]
  rfl

/-- The registers that take no write (10_state.md R37). -/
theorem hostWriteReg_ignored (s : State) (held : Bool) {offset : Nat} (w : Word)
    (h : offset ∉ ([0x00, 0x08, 0x0C, 0x10, 0x14, 0x28] : List Nat)) : hostWriteReg held offset w s = .next s := by
  unfold hostWriteReg
  split
  case h_7 => rfl
  all_goals exact absurd (by decide) h

theorem regValue_reserved (s : State) {offset : Nat} (h : 0x48 ≤ offset) : regValue s offset = 0 := by
  unfold regValue
  split
  case h_19 => rfl
  all_goals omega

/-- Settles O18: by the offsets that take a write. -/
theorem registerWrites : Obligations.RegisterWrites := by
  refine ⟨fun s offset h _ => regValue_reserved s h, fun s held rest offset w ho => ?_, fun s held rest w => ?_⟩
  · have hlegal : offset % 4 = 0 ∧ offset < 256 ∧ offset ∉ ([0x00, 0x08, 0x0C, 0x10, 0x14, 0x28] : List Nat) := by
      rcases ho with ho | ⟨h48, hfc, h4⟩
      · revert offset; decide
      · simp only [List.mem_cons, List.not_mem_nil, or_false]
        omega
    obtain ⟨h4, h256, hnot⟩ := hlegal
    rw [step_regWrite s held rest w h4 h256, hostWriteReg_ignored _ held w hnot]
  · exact ⟨step_regWrite s held rest w rfl (by decide), step_regWrite s held rest w rfl (by decide),
      step_regWrite s held rest w rfl (by decide), step_regWrite s held rest w rfl (by decide)⟩

/-- A register read only logs a value, the register's while it is specified (10_state.md R38,
70_reset_and_hazards.md R297). -/
theorem hostReadReg_eq (offset : Nat) (s : State) : ∃ v d,
    hostReadReg offset s = { s with hostLog := s.hostLog ++ [.reg offset v], draws := d } ∧
    ((s.status.busy = false ∨ (offset ≠ 0x34 ∧ offset ≠ 0x38)) → v = regValue s offset) := by
  unfold hostReadReg
  split
  · next hdraw =>
    refine ⟨_, _, rfl, fun hspec => ?_⟩
    simp only [readIsDraw, Bool.and_eq_true, Bool.or_eq_true, decide_eq_true_eq] at hdraw
    obtain ⟨hbusy, hoff⟩ := hdraw
    rcases hspec with hidle | ⟨h34, h38⟩
    · rw [hbusy] at hidle; cases hidle
    · exact absurd hoff (by simp [h34, h38])
  · exact ⟨_, s.draws, rfl, fun _ => rfl⟩

/-- Settles O19: an illegal access is refused, and a legal read only logs its value. -/
theorem registerAccesses : Obligations.RegisterAccesses := by
  refine ⟨fun s => ⟨rfl, rfl, rfl, rfl, rfl, rfl, rfl, rfl, rfl⟩, fun s held rest width offset w h => ?_,
    fun s held rest offset h4 h256 => ?_⟩
  · have hillegal : legalRegAccess width offset = false := by
      rw [Bool.eq_false_iff, Ne, legalRegAccess_iff]
      omega
    rw [step_hostInput, step_hostInput, hostStep, hostStep, hillegal]
    exact ⟨rfl, rfl⟩
  · obtain ⟨v, d, hread, hv⟩ := hostReadReg_eq offset { s with inputs := rest }
    refine ⟨v, d, ?_, hv⟩
    rw [step_hostInput, hostStep, (legalRegAccess_iff 32 offset).2 ⟨rfl, h4, h256⟩, if_pos rfl, hread]

/-! ## CTRL -/

theorem abandon_eq {α : Type} [DecidableEq α] (r : Reply α) : r.abandon = if r = .pending then .abandoned else r := by
  cases r <;> simp [Reply.abandon]

/-- The replies of a log after a soft reset (70_reset_and_hazards.md R292). -/
theorem reply_of_abandoned {α τ : Type} [DecidableEq α] (reply : τ → Reply α) {f : τ → τ}
    (hf : ∀ e, reply (f e) = (reply e).abandon) {l : List τ} {k : Nat} {e e' : τ} (he : l[k]? = some e)
    (he' : (l.map f)[k]? = some e') : reply e' = if reply e = .pending then .abandoned else reply e := by
  rw [List.getElem?_map, he] at he'
  cases he'
  rw [hf, abandon_eq]

/-- Settles O13: by the two bits of CTRL. -/
theorem ctrlWriteEffect : Obligations.CtrlWriteEffect := by
  intro s held rest w
  have hstep : step { s with inputs := hostInput held (.regWrite 32 0x28 w) :: rest }
      = .next (writeCtrl w { s with inputs := rest }) := step_regWrite s held rest w rfl (by decide)
  rw [hstep]
  rcases writeCtrl_cases w { s with inputs := rest } with ⟨h0, he⟩ | ⟨h0, h1, he⟩ | ⟨h0, h1, he⟩ <;> rw [he]
  · refine ⟨rfl, fun _ => ⟨_, rfl, rfl, ?_, ?_, fun k e e' hk hk' => ?_, fun k e e' hk hk' => ?_⟩, ?_, ?_⟩
    · simp [Function.comp_def]
    · simp [Function.comp_def]
    · exact reply_of_abandoned SinkTx.reply (fun _ => rfl) hk hk'
    · exact reply_of_abandoned SourceTx.reply (fun _ => rfl) hk hk'
    · intro hn; rw [h0] at hn; cases hn
    · intro hn; rw [h0] at hn; cases hn
  · exact ⟨rfl, fun hn => absurd (hn.symm.trans h0) (by decide), fun _ _ => rfl,
      fun _ hn => absurd (hn.symm.trans h1) (by decide)⟩
  · exact ⟨rfl, fun hn => absurd (hn.symm.trans h0) (by decide), fun _ hn => absurd (hn.symm.trans h1) (by decide),
      fun _ _ => rfl⟩

end Sys2Proof.Proofs

/-!
PROOFS. MEM (20_memory.md): the host's byte accesses (O20), and the one fault of a command, an unwritten byte
that it reads (O22).
-/

namespace Sys2Proof.Proofs

open Sys2Proof Sys2Proof.Machine Sys2Proof.Laws

/-! ## The host's byte accesses -/

/-- With no command running no access races (70_reset_and_hazards.md R296). -/
theorem races_of_idle {s : State} (hb : s.status.busy = false) (a : Nat) : races s a = false := by
  simp [races, hb]

theorem hostWriteMem_of_not_races {s : State} {a : Nat} (hr : races s a = false) (b : Byte) :
    hostWriteMem a b s = .next { s with mem := writeByte s.mem a b } := by
  rw [hostWriteMem, hr]; rfl

theorem hostReadMem_of_not_races {s : State} {a : Nat} {b : Byte} (hr : races s a = false)
    (hb : readByte s.mem a = some b) : hostReadMem a s = .next { s with hostLog := s.hostLog ++ [.mem a b] } := by
  rw [hostReadMem, hr, hb]; rfl

section

variable (s : State) (held : Bool) (rest : List Input) {a : Nat}

/-- A write that does not race writes its byte (20_memory.md R61). -/
theorem step_memWrite (b : Byte) (ha : a < s.params.memBytes) (hr : races s a = false) :
    step { s with inputs := hostInput held (.memWrite a b) :: rest }
      = .next { s with inputs := rest, mem := writeByte s.mem a b } := by
  rw [step_hostInput, hostStep, if_pos ha]
  exact hostWriteMem_of_not_races (s := { s with inputs := rest }) hr b

/-- A read of a written byte that does not race gives it to the host (20_memory.md R61). -/
theorem step_memRead {b : Byte} (ha : a < s.params.memBytes) (hr : races s a = false)
    (hb : readByte s.mem a = some b) :
    step { s with inputs := hostInput held (.memRead a) :: rest }
      = .next { s with inputs := rest, hostLog := s.hostLog ++ [.mem a b] } := by
  rw [step_hostInput, hostStep, if_pos ha]
  exact hostReadMem_of_not_races (s := { s with inputs := rest }) hr hb

theorem step_memWrite_outside (b : Byte) (ha : s.params.memBytes ≤ a) :
    step { s with inputs := hostInput held (.memWrite a b) :: rest } = .refused .outsideMem := by
  rw [step_hostInput, hostStep, if_neg (Nat.not_lt.2 ha)]

theorem step_memRead_outside (ha : s.params.memBytes ≤ a) :
    step { s with inputs := hostInput held (.memRead a) :: rest } = .refused .outsideMem := by
  rw [step_hostInput, hostStep, if_neg (Nat.not_lt.2 ha)]

end

/-- Settles O20: by the read of a byte after the write of one. -/
theorem hostMemAccesses : Obligations.HostMemAccesses := by
  intro s held rest a b hb
  refine ⟨fun ha => ⟨writeByte s.mem a b, ?_, ?_, fun x hx => ?_, ?_⟩,
    fun ha => ⟨step_memWrite_outside s held rest b ha, step_memRead_outside s held rest ha⟩⟩
  · exact step_memWrite s held rest b ha (races_of_idle hb a)
  · rw [readByte_writeByte, if_pos rfl]
  · rw [readByte_writeByte, if_neg hx]
  · exact step_memRead { s with mem := writeByte s.mem a b } held rest ha (races_of_idle hb a)
      (by rw [readByte_writeByte, if_pos rfl])

/-! ## Where a decode stops at an unwritten byte -/

/-- The symbol at offset `k` is there and in the alphabet (42_decoder.md R161). -/
def Decodable (dt : Vector Byte 256) (sym : Nat → Option Byte) (k : Nat) : Prop :=
  ∃ c, sym k = some c ∧ entryAt dt c ≠ sentinel

/-- A decode that ends well has read every symbol of its groups. -/
theorem decodable_of_decodeGroups_ok (dt : Vector Byte 256) (sym : Nat → Option Byte) (L : Nat) (mode : DecMode)
    (n g : Nat) (h : (decodeGroups dt sym L mode n g).2 = .ok) :
    ∀ k, 8 * g ≤ k → k < L → k < 8 * (g + n) → Decodable dt sym k := by
  induction n generalizing g with
  | zero => intro k hg _ hn; omega
  | succ n ih =>
    intro k hg hL hn
    rw [decodeGroups] at h
    split at h
    · next e he =>
      obtain ⟨j, -, -, ⟨rfl, -⟩ | ⟨rfl, -⟩⟩ := readGroup_error _ _ _ _ _ he <;> cases h
    · next vs hvs =>
      by_cases hk : k < 8 * (g + 1)
      · obtain ⟨hlen, hread⟩ := (readGroup_ok_iff _ _ _ _ _).1 hvs
        obtain ⟨c, hc, hne, -⟩ := hread (k - 8 * g) (by omega)
        rw [Nat.add_sub_cancel' hg] at hc
        exact ⟨c, hc, hne⟩
      · exact ih (g + 1) h k (by omega) hL (by omega)

/-- A decode ends at an unwritten symbol exactly when that is the first symbol it cannot decode. -/
theorem decodeCore_unread_iff (dt : Vector Byte 256) (sym : Nat → Option Byte) (L : Nat) (mode : DecMode) (i : Nat) :
    (decodeCore dt sym L mode).2 = .unread i ↔ i < L ∧ sym i = none ∧ ∀ k, k < i → Decodable dt sym k := by
  have hends := decodeGroups_end dt sym L mode (ceilDiv L 8) 0 _ _ rfl
  constructor
  · intro h
    rcases hends with hok | ⟨j, hj, -, hbefore, ⟨hun, hnone⟩ | ⟨hcor, -⟩⟩
    · cases hok.symm.trans h
    · cases hun.symm.trans h
      exact ⟨hj, hnone, fun k hk => hbefore k (by omega) hk⟩
    · cases hcor.symm.trans h
  · rintro ⟨hi, hnone, hbefore⟩
    have hstop : ¬ Decodable dt sym i := by rintro ⟨c, hc, -⟩; rw [hnone] at hc; cases hc
    rcases hends with hok | ⟨j, hj, -, hbefore', hend⟩
    · exact absurd (decodable_of_decodeGroups_ok dt sym L mode _ _ hok i (by omega) hi
        (by rw [ceilDiv_eight]; omega)) hstop
    have hstop' : ¬ Decodable dt sym j := by
      rintro ⟨c, hc, hne⟩
      rcases hend with ⟨-, hnone'⟩ | ⟨-, c', hc', heq⟩
      · rw [hnone'] at hc; cases hc
      · rw [hc'] at hc; cases hc; exact hne heq
    have hij : j = i := by
      rcases Nat.lt_trichotomy j i with hlt | heq | hgt
      · exact absurd (hbefore j hlt) hstop'
      · exact heq
      · exact absurd (hbefore' i (by omega) hgt) hstop
    subst hij
    rcases hend with ⟨hun, -⟩ | ⟨-, c, hc, -⟩
    · exact hun
    · rw [hnone] at hc; cases hc

/-! ## When a command faults -/

/-- MemRead of a range with an unwritten byte fails (20_memory.md R63). -/
theorem readBytes_of_unwritten {m : Memory} {a n x : Nat} (hx : readByte m x = none) (ha : a ≤ x) (hn : x < a + n) :
    ∃ f, readBytes m a n = .error f := by
  cases hr : readBytes m a n with
  | error f => exact ⟨f, rfl⟩
  | ok bs =>
    obtain ⟨hlen, hholds⟩ := (readBytes_eq_ok_iff m a n bs).1 hr
    have hbyte := hholds (x - a) (by omega)
    rw [Nat.add_sub_cancel' ha, hx] at hbyte
    cases hbyte

/-- A rule that completes under a condition faults only in its other branch. -/
theorem guard_eq_fault_iff {c : Prop} [Decidable c] {t : State} {x : Host.Outcome State Fault Refusal} {f : Fault} :
    (if c then .next t else x) = .fault f ↔ ¬ c ∧ x = .fault f := by
  by_cases h : c <;> simp [h]

/-- A check that fails completes the command and does not fault (60_exceptions.md R254). -/
theorem check_eq_fault_iff {c : Bool} {t : State} {x : Host.Outcome State Fault Refusal} {f : Fault} :
    (if !c then .next t else x) = .fault f ↔ c = true ∧ x = .fault f := by
  rw [guard_eq_fault_iff, Bool.not_eq_true', Bool.not_eq_false]

theorem encodeTo_eq_fault_iff (s : State) (h n nread L : Nat) (f : Fault) :
    encodeTo s h n nread L = .fault f ↔
      RangesOk s (srcAddr s.latch) n (dstAddr s.latch) (ceilDiv L 5) ∧
        readBytes s.mem (srcAddr s.latch) nread = .error f := by
  rw [encodeTo, check_eq_fault_iff, buffersOk_iff]
  cases readBytes s.mem (srcAddr s.latch) nread <;> simp

/-- The byte at `x` is unwritten, and of the source symbols of a decode with slot `h` it is the first that cannot
be decoded. -/
def StopsUnwritten (s : State) (h x : Nat) : Prop :=
  readByte s.mem x = none ∧ srcAddr s.latch ≤ x ∧ x < srcAddr s.latch + lengthArg s.latch ∧
    ∀ k, srcAddr s.latch ≤ k → k < x → Decodable (slotAt s h).dt (readByte s.mem) k

theorem decodeTo_eq_fault_iff (s : State) (h : Nat) (mode : DecMode) (f : Fault) :
    decodeTo s h mode = .fault f ↔
      RangesOk s (srcAddr s.latch) (lengthArg s.latch) (dstAddr s.latch) (outCount (lengthArg s.latch) mode) ∧
        ∃ x, f = .unwrittenMem x ∧ StopsUnwritten s h x := by
  have hstop (i : Nat) := decodeCore_unread_iff (slotAt s h).dt (fun i => readByte s.mem (srcAddr s.latch + i))
    (lengthArg s.latch) mode i
  constructor
  · intro hf
    rcases decodeTo_cases s h mode with ⟨-, he⟩ | ⟨hr, ⟨i, hi, he⟩ | ⟨i, -, he⟩ | ⟨-, he⟩⟩ <;>
      rw [he] at hf <;> cases hf
    obtain ⟨hlt, hnone, hbefore⟩ := (hstop i).1 hi
    refine ⟨hr, _, rfl, hnone, by omega, by omega, fun k hk hkx => ?_⟩
    have hk' := hbefore (k - srcAddr s.latch) (by omega)
    rwa [Decodable, Nat.add_sub_cancel' hk] at hk'
  · rintro ⟨hr, x, rfl, hnone, hle, hlt, hbefore⟩
    have hi := (hstop (x - srcAddr s.latch)).2 ⟨by omega, by rwa [Nat.add_sub_cancel' hle],
      fun k hk => hbefore (srcAddr s.latch + k) (by omega) (by omega)⟩
    rcases decodeTo_cases s h mode with ⟨hn, -⟩ | ⟨-, ⟨i, hi', he⟩ | ⟨i, hi', -⟩ | ⟨hi', -⟩⟩
    · exact absurd hr hn
    · cases hi.symm.trans hi'
      rw [he, Nat.add_sub_cancel' hle]
    · cases hi.symm.trans hi'
    · cases hi.symm.trans hi'

section

variable (s : State) (h : Nat) (f : Fault)

theorem exec_lutLoad_eq_fault_iff : exec (.lutLoad h) s = .fault f ↔
    canLoad s h = true ∧ Fits s (srcAddr s.latch) 32 ∧ readBytes s.mem (srcAddr s.latch) 32 = .error f := by
  rw [exec, execLutLoad, check_eq_fault_iff, check_eq_fault_iff, inRange_iff]
  cases readBytes s.mem (srcAddr s.latch) 32 <;> simp

theorem exec_enc_eq_fault_iff : exec (.enc h) s = .fault f ↔
    usable s h = true ∧
      RangesOk s (srcAddr s.latch) (lengthArg s.latch) (dstAddr s.latch) (ceilDiv (8 * lengthArg s.latch) 5) ∧
      readBytes s.mem (srcAddr s.latch) (lengthArg s.latch) = .error f := by
  rw [exec, execEnc, check_eq_fault_iff, encodeTo_eq_fault_iff]

theorem exec_encBits_eq_fault_iff : exec (.encBits h) s = .fault f ↔
    usable s h = true ∧ 0 ≤ bitCount s.latch ∧ bitCount s.latch ≤ 8 * (lengthArg s.latch : Int) ∧
      RangesOk s (srcAddr s.latch) (lengthArg s.latch) (dstAddr s.latch) (ceilDiv (bitCount s.latch).toNat 5) ∧
      readBytes s.mem (srcAddr s.latch) (ceilDiv (bitCount s.latch).toNat 8) = .error f := by
  rw [exec, execEncBits, check_eq_fault_iff, guard_eq_fault_iff, guard_eq_fault_iff, Int.not_lt, gt_iff_lt,
    Int.not_lt, encodeTo_eq_fault_iff]

theorem exec_dec_eq_fault_iff : exec (.dec h) s = .fault f ↔
    usable s h = true ∧
      RangesOk s (srcAddr s.latch) (lengthArg s.latch) (dstAddr s.latch) (outCount (lengthArg s.latch) .aligned) ∧
      ∃ x, f = .unwrittenMem x ∧ StopsUnwritten s h x := by
  rw [exec, execDec, check_eq_fault_iff, decodeTo_eq_fault_iff]

theorem exec_decBits_eq_fault_iff : exec (.decBits h) s = .fault f ↔
    usable s h = true ∧ 0 ≤ bitCount s.latch ∧
      RangesOk s (srcAddr s.latch) (lengthArg s.latch) (dstAddr s.latch)
        (outCount (lengthArg s.latch) (.bits (bitCount s.latch).toNat)) ∧
      ∃ x, f = .unwrittenMem x ∧ StopsUnwritten s h x := by
  rw [exec, execDecBits, check_eq_fault_iff, guard_eq_fault_iff, Int.not_lt, decodeTo_eq_fault_iff]

theorem exec_sencWrite_eq_fault_iff : exec .sencWrite s = .fault f ↔
    s.senc.state = .opened ∧ Fits s (srcAddr s.latch) (lengthArg s.latch) ∧
      readBytes s.mem (srcAddr s.latch) (lengthArg s.latch) = .error f := by
  rw [exec, execSencWrite]
  cases s.senc.state with
  | idle | closed | failed => simp
  | opened =>
    simp only [true_and]
    rw [check_eq_fault_iff, inRange_iff]
    cases readBytes s.mem (srcAddr s.latch) (lengthArg s.latch) <;> simp

end

theorem exec_sencClose_ne_fault (s : State) (f : Fault) : exec .sencClose s ≠ .fault f := by
  rw [exec, execSencClose]
  cases s.senc.state with
  | idle | closed | failed => simp
  | opened => cases s.senc.buf.isEmpty <;> simp

theorem exec_sdecRead_ne_fault (s : State) (f : Fault) : exec .sdecRead s ≠ .fault f := by
  intro h
  rw [exec, execSdecRead, check_eq_fault_iff, check_eq_fault_iff, guard_eq_fault_iff] at h
  obtain ⟨-, -, -, h⟩ := h
  cases h

/-- Settles O22: by the condition under which each command faults. -/
theorem unwrittenSourceFaults : Obligations.UnwrittenSourceFaults := by
  refine ⟨fun s i f h => ?_, fun s h x hx hle => ?_⟩
  · have hread {n : Nat} (hr : readBytes s.mem (srcAddr s.latch) n = .error f) :
        ∃ x, f = .unwrittenMem x ∧ readByte s.mem x = none ∧ srcAddr s.latch ≤ x ∧ x < srcAddr s.latch + n := by
      obtain ⟨x, hle, hlt, hx, hf⟩ := readBytes_error s.mem _ n f hr
      exact ⟨x, hf, hx, hle, hlt⟩
    cases i with
    | lutLoad k =>
      obtain ⟨-, -, hr⟩ := (exec_lutLoad_eq_fault_iff s k f).1 h
      exact hread hr
    | enc k =>
      obtain ⟨-, -, hr⟩ := (exec_enc_eq_fault_iff s k f).1 h
      exact hread hr
    | encBits k =>
      obtain ⟨-, -, -, -, hr⟩ := (exec_encBits_eq_fault_iff s k f).1 h
      exact hread hr
    | dec k =>
      obtain ⟨-, -, hs⟩ := (exec_dec_eq_fault_iff s k f).1 h
      exact hs
    | decBits k =>
      obtain ⟨-, -, -, hs⟩ := (exec_decBits_eq_fault_iff s k f).1 h
      exact hs
    | sencWrite =>
      obtain ⟨-, -, hr⟩ := (exec_sencWrite_eq_fault_iff s f).1 h
      exact hread hr
    | nop | encLen | decLen => cases h
    | symLookup k | dtLookup k | sencOpen k | sdecOpen k =>
      obtain ⟨-, hcompletes⟩ := check_eq_fault_iff.1 h
      cases hcompletes
    | sencClose => exact absurd h (exec_sencClose_ne_fault s f)
    | sdecRead => exact absurd h (exec_sdecRead_ne_fault s f)
  · have hread {n : Nat} (hlt : x < srcAddr s.latch + n) := readBytes_of_unwritten hx hle hlt
    refine ⟨fun hn h2 hv hf hlt => ?_, fun hu hr hlt => ?_, fun hu h0 hbc hr hlt => ?_, fun ho hf hlt => ?_,
      fun hbefore hu hlt => ⟨fun hr => ?_, fun h0 hr => ?_⟩⟩
    · obtain ⟨f, hf'⟩ := hread hlt
      exact ⟨f, (exec_lutLoad_eq_fault_iff s h f).2 ⟨(canLoad_iff s h).2 ⟨hn, h2, hv⟩, hf, hf'⟩⟩
    · obtain ⟨f, hf⟩ := hread hlt
      exact ⟨f, (exec_enc_eq_fault_iff s h f).2 ⟨hu, hr, hf⟩⟩
    · obtain ⟨f, hf⟩ := hread hlt
      exact ⟨f, (exec_encBits_eq_fault_iff s h f).2 ⟨hu, h0, hbc, hr, hf⟩⟩
    · obtain ⟨f, hf'⟩ := hread hlt
      exact ⟨f, (exec_sencWrite_eq_fault_iff s f).2 ⟨ho, hf, hf'⟩⟩
    · exact (exec_dec_eq_fault_iff s h _).2 ⟨hu, hr, x, rfl, hx, hle, hlt, hbefore⟩
    · exact (exec_decBits_eq_fault_iff s h _).2 ⟨hu, h0, hr, x, rfl, hx, hle, hlt, hbefore⟩

end Sys2Proof.Proofs

/-!
PROOFS. The command word (30_encoding.md sections 1 to 6): its three fields, which row of the opcode map a word
selects, and decode as the inverse of encode (O1 to O5); the acceptance of a word (O6, O7); the transactions of
the host's lines (O60).
-/

namespace Sys2Proof.Proofs

open Sys2Proof Sys2Proof.Machine Sys2Proof.Laws

/-! ## The fields of a word -/

theorem hselField_lt (w : Word) : hselField w < 8 := (w.extractLsb' 8 3).isLt

theorem rsvField_toNat (w : Word) : (rsvField w).toNat = w.toNat / 2048 := by
  rw [rsvField, BitVec.extractLsb'_toNat, Nat.shiftRight_eq_div_pow]
  omega

theorem hselField_eq_mod (w : Word) : hselField w = w.toNat / 256 % 8 := by
  rw [hselField, BitVec.extractLsb'_toNat, Nat.shiftRight_eq_div_pow]

theorem opcField_toNat (w : Word) : (opcField w).toNat = w.toNat % 256 := by
  rw [opcField, BitVec.extractLsb'_toNat, Nat.shiftRight_zero]

/-- RSV, HSEL and OPC are all the bits of a word (30_encoding.md R81). -/
theorem word_eq_iff_fields (w v : Word) :
    w = v ↔ rsvField w = rsvField v ∧ hselField w = hselField v ∧ opcField w = opcField v := by
  refine ⟨fun h => h ▸ ⟨rfl, rfl, rfl⟩, fun ⟨hr, hh, ho⟩ => BitVec.eq_of_toNat_eq ?_⟩
  rw [← BitVec.toNat_inj, rsvField_toNat, rsvField_toNat] at hr
  rw [hselField_eq_mod, hselField_eq_mod] at hh
  rw [← BitVec.toNat_inj, opcField_toNat, opcField_toNat] at ho
  omega

theorem shiftRight_eq_zero_iff_rsvField (w : Word) : w >>> 11 = 0 ↔ rsvField w = 0 := by
  rw [← BitVec.toNat_inj, ← BitVec.toNat_inj, rsvField_toNat, BitVec.toNat_ushiftRight,
    Nat.shiftRight_eq_div_pow]
  rfl

theorem toNat_shiftRight_and_seven (w : Word) : (w >>> 8 &&& 7).toNat = hselField w := by
  rw [hselField_eq_mod, BitVec.toNat_and, BitVec.toNat_ushiftRight, Nat.shiftRight_eq_div_pow]
  exact Nat.and_two_pow_sub_one_eq_mod _ 3

theorem and_byte_eq_opcField (w : Word) : w &&& 0xFF = (opcField w).setWidth 32 := by
  refine BitVec.eq_of_toNat_eq ?_
  rw [toNat_field _ (by decide), opcField_toNat, BitVec.toNat_and]
  exact Nat.and_two_pow_sub_one_eq_mod _ 8

theorem opcField_setWidth (c : BitVec 8) : opcField (c.setWidth 32) = c := by
  refine BitVec.eq_of_toNat_eq ?_
  rw [opcField_toNat, toNat_field _ (by decide), Nat.mod_eq_of_lt c.isLt]

/-- The mask of a handle-taking command keeps RSV and OPC and clears HSEL. -/
theorem fields_and_maskHandle (w : Word) : rsvField (w &&& maskHandle) = rsvField w ∧
    hselField (w &&& maskHandle) = 0 ∧ opcField (w &&& maskHandle) = opcField w := by
  have hr : maskHandle.extractLsb' 11 21 = BitVec.allOnes 21 := by decide
  have hh : maskHandle.extractLsb' 8 3 = 0#3 := by decide
  have ho : maskHandle.extractLsb' 0 8 = BitVec.allOnes 8 := by decide
  simp only [rsvField, hselField, opcField, BitVec.extractLsb'_and, hr, hh, ho, BitVec.and_allOnes,
    BitVec.and_zero, BitVec.toNat_zero, and_self]

/-! ## The rows of the opcode map -/

/-- What a row fixes: its pattern is an OPC alone, and its mask leaves HSEL open or fixes every bit. -/
theorem row_shape : ∀ r ∈ opcodeMap, rsvField r.pattern = 0 ∧ hselField r.pattern = 0 ∧
    (r.mask = maskAll ∨ r.mask = maskHandle) := by decide

theorem row_codes_nodup : (opcodeMap.map (fun r => opcField r.pattern)).Nodup := by decide

/-- What a row builds: a command with the row's OPC, and with the slot number unless the row fixes HSEL. -/
theorem row_build (h : Nat) : ∀ r ∈ opcodeMap, (r.build h).opc = r.pattern ∧
    (r.build h).hsel = if r.mask = maskAll then 0 else h := by
  have hne : maskHandle ≠ maskAll := by decide
  simp [opcodeMap, Instr.opc, Instr.hsel, hne]

/-- Every command has a row (30_encoding.md R85). -/
theorem exists_row (i : Instr) : ∃ r ∈ opcodeMap, r.build i.hsel = i := by
  cases i with
  | nop => exact ⟨opcodeMap[0], List.getElem_mem _, rfl⟩
  | lutLoad h => exact ⟨opcodeMap[1], List.getElem_mem _, rfl⟩
  | symLookup h => exact ⟨opcodeMap[2], List.getElem_mem _, rfl⟩
  | dtLookup h => exact ⟨opcodeMap[3], List.getElem_mem _, rfl⟩
  | enc h => exact ⟨opcodeMap[4], List.getElem_mem _, rfl⟩
  | encBits h => exact ⟨opcodeMap[5], List.getElem_mem _, rfl⟩
  | encLen => exact ⟨opcodeMap[6], List.getElem_mem _, rfl⟩
  | decLen => exact ⟨opcodeMap[7], List.getElem_mem _, rfl⟩
  | dec h => exact ⟨opcodeMap[8], List.getElem_mem _, rfl⟩
  | decBits h => exact ⟨opcodeMap[9], List.getElem_mem _, rfl⟩
  | sencOpen h => exact ⟨opcodeMap[10], List.getElem_mem _, rfl⟩
  | sencWrite => exact ⟨opcodeMap[11], List.getElem_mem _, rfl⟩
  | sencClose => exact ⟨opcodeMap[12], List.getElem_mem _, rfl⟩
  | sdecOpen h => exact ⟨opcodeMap[13], List.getElem_mem _, rfl⟩
  | sdecRead => exact ⟨opcodeMap[14], List.getElem_mem _, rfl⟩

/-- A row in the terms of the word's fields: RSV is 0, OPC is the row's, and HSEL is 0 where the row fixes it. -/
theorem selects_iff {w : Word} {r : OpRow} (hr : r ∈ opcodeMap) : OpRow.selects w r = true ↔
    rsvField w = 0 ∧ opcField w = opcField r.pattern ∧ (r.mask = maskAll → hselField w = 0) := by
  obtain ⟨hrsv, hhsel, hmask | hmask⟩ := row_shape r hr
  · have hall : w &&& maskAll = w := BitVec.and_allOnes
    rw [OpRow.selects, beq_iff_eq, hmask, hall, word_eq_iff_fields, hrsv, hhsel]
    simp only [true_imp_iff, and_comm]
  · have hne : maskHandle ≠ maskAll := by decide
    obtain ⟨hr', hh', ho'⟩ := fields_and_maskHandle w
    rw [OpRow.selects, beq_iff_eq, hmask, word_eq_iff_fields, hr', hh', ho', hrsv, hhsel]
    simp [hne]

/-- The rows that a word selects share its OPC, so that there is at most one (30_encoding.md R85). -/
theorem length_selected_le_one (w : Word) : (opcodeMap.filter (OpRow.selects w)).length ≤ 1 := by
  have hcodes : (opcodeMap.filter (OpRow.selects w)).map (fun r => opcField r.pattern)
      = List.replicate (opcodeMap.filter (OpRow.selects w)).length (opcField w) := by
    refine List.map_eq_replicate_iff.2 fun r hr => ?_
    obtain ⟨hmem, hsel⟩ := List.mem_filter.1 hr
    obtain ⟨-, hopc, -⟩ := (selects_iff hmem).1 hsel
    exact hopc.symm
  rw [← List.nodup_replicate (a := opcField w), ← hcodes]
  exact row_codes_nodup.sublist (List.filter_sublist.map _)

/-- The search of the map finds the row that a word selects. -/
theorem find?_eq_some_of_selects {w : Word} {r : OpRow} (hr : r ∈ opcodeMap) (hs : OpRow.selects w r = true) :
    opcodeMap.find? (OpRow.selects w) = some r := by
  obtain ⟨r', hr'⟩ := List.length_eq_one_iff.1
    (le_antisymm (length_selected_le_one w) (List.length_pos_of_mem (List.mem_filter.2 ⟨hr, hs⟩)))
  have hmem : r ∈ opcodeMap.filter (OpRow.selects w) := List.mem_filter.2 ⟨hr, hs⟩
  rw [← List.head?_filter, hr']
  rw [hr', List.mem_singleton] at hmem
  rw [hmem, List.head?_cons]

/-! ## Decode -/

/-- A word spells the command of the row that it selects (30_encoding.md R88). -/
theorem decodeWord_of_selects {w : Word} {r : OpRow} (hr : r ∈ opcodeMap) (hs : OpRow.selects w r = true) :
    decodeWord w = .ok (r.build (hselField w)) := by
  obtain ⟨hrsv, -⟩ := (selects_iff hr).1 hs
  rw [decodeWord, if_neg (not_not_intro hrsv), find?_eq_some_of_selects hr hs]

/-- A word that selects no row is an illegal command (30_encoding.md R84). -/
theorem decodeWord_of_no_row {w : Word} (h : ∀ r ∈ opcodeMap, OpRow.selects w r = false) :
    ∃ why, decodeWord w = .error why := by
  have hnone : opcodeMap.find? (OpRow.selects w) = none :=
    List.find?_eq_none.2 fun r hr => by rw [h r hr]; decide
  rw [decodeWord, hnone]
  split
  · exact ⟨_, rfl⟩
  · exact ⟨_, rfl⟩

/-- Decode either finds the row that the word selects, or there is none. -/
theorem decodeWord_cases (w : Word) :
    (∃ r ∈ opcodeMap, OpRow.selects w r = true ∧ decodeWord w = .ok (r.build (hselField w))) ∨
    ((∀ r ∈ opcodeMap, OpRow.selects w r = false) ∧ ∃ why, decodeWord w = .error why) := by
  by_cases h : ∃ r ∈ opcodeMap, OpRow.selects w r = true
  · obtain ⟨r, hr, hs⟩ := h
    exact .inl ⟨r, hr, hs, decodeWord_of_selects hr hs⟩
  · have hno : ∀ r ∈ opcodeMap, OpRow.selects w r = false := by simpa using h
    exact .inr ⟨hno, decodeWord_of_no_row hno⟩

theorem decodeWord_eq_error_iff (w : Word) :
    (∃ why, decodeWord w = .error why) ↔ ¬ ∃ r ∈ opcodeMap, OpRow.selects w r = true := by
  rcases decodeWord_cases w with ⟨r, hr, hs, hd⟩ | ⟨hno, herr⟩
  · simp only [hd, reduceCtorEq, exists_false, false_iff, not_not]
    exact ⟨r, hr, hs⟩
  · simp only [herr, true_iff]
    rintro ⟨r, hr, hs⟩
    rw [hno r hr] at hs
    cases hs

/-- The three fields of the word of a well-formed command (30_encoding.md R81). -/
theorem fields_encode (i : Instr) : EncodedFields.Statement i := by
  cases i with
  | nop => exact EncodedFields.nop
  | lutLoad h => exact EncodedFields.lutLoad h
  | symLookup h => exact EncodedFields.symLookup h
  | dtLookup h => exact EncodedFields.dtLookup h
  | enc h => exact EncodedFields.enc h
  | encBits h => exact EncodedFields.encBits h
  | encLen => exact EncodedFields.encLen
  | decLen => exact EncodedFields.decLen
  | dec h => exact EncodedFields.dec h
  | decBits h => exact EncodedFields.decBits h
  | sencOpen h => exact EncodedFields.sencOpen h
  | sencWrite => exact EncodedFields.sencWrite
  | sencClose => exact EncodedFields.sencClose
  | sdecOpen h => exact EncodedFields.sdecOpen h
  | sdecRead => exact EncodedFields.sdecRead

theorem opcField_encode {i : Instr} (hw : i.wellFormed = true) : opcField (encode i) = opcField i.opc := by
  obtain ⟨-, -, ho⟩ := fields_encode i hw
  rw [← ho, opcField_setWidth]

/-- Settles O1: the word of a command selects the command's own row. -/
theorem decodeEncodeRoundTrip : Obligations.DecodeEncodeRoundTrip := by
  intro i hw
  obtain ⟨r, hr, hbuild⟩ := exists_row i
  obtain ⟨hrsv, hhsel, -⟩ := fields_encode i hw
  obtain ⟨hopc, hslot⟩ := row_build i.hsel r hr
  rw [hbuild] at hopc hslot
  have hs : OpRow.selects (encode i) r = true :=
    (selects_iff hr).2 ⟨hrsv, by rw [opcField_encode hw, hopc], fun hm => by rw [hhsel, hslot, if_pos hm]⟩
  rw [decodeWord_of_selects hr hs, hhsel, hbuild]

/-- The command that a row builds of a word it selects is well-formed, and the word is its encoding. -/
theorem encode_build {w : Word} {r : OpRow} (hr : r ∈ opcodeMap) (hs : OpRow.selects w r = true) :
    (r.build (hselField w)).wellFormed = true ∧ encode (r.build (hselField w)) = w := by
  obtain ⟨hrsv, hopc, hzero⟩ := (selects_iff hr).1 hs
  obtain ⟨hpat, hslot⟩ := row_build (hselField w) r hr
  have hh : (r.build (hselField w)).hsel = hselField w := by
    rw [hslot, ite_eq_right_iff]
    exact fun hm => (hzero hm).symm
  have hw : (r.build (hselField w)).wellFormed = true := by
    rw [Instr.wellFormed, hh]
    exact decide_eq_true (hselField_lt w)
  obtain ⟨hrsv', hhsel', -⟩ := fields_encode _ hw
  refine ⟨hw, (word_eq_iff_fields _ _).2 ⟨hrsv'.trans hrsv.symm, hhsel'.trans hh, ?_⟩⟩
  rw [opcField_encode hw, hpat, hopc]

/-- Settles O2: no two rows have the same OPC, and a row's own fields are those of the word. -/
theorem encodeDecodeRoundTrip : Obligations.EncodeDecodeRoundTrip := by
  refine ⟨length_selected_le_one, fun w i h => ?_⟩
  rcases decodeWord_cases w with ⟨r, hr, hs, hd⟩ | ⟨-, why, hd⟩
  · obtain rfl : r.build (hselField w) = i := by simpa [hd] using h
    exact encode_build hr hs
  · rw [hd] at h
    cases h

/-- Settles O3: each clause is a row of the map, and a word outside all of them selects none. -/
theorem decodeFollowsOpcodeTable : Obligations.DecodeFollowsOpcodeTable := by
  intro w
  dsimp only
  have hrow (k : Nat) (hk : k < opcodeMap.length) (h : w &&& opcodeMap[k].mask = opcodeMap[k].pattern) :
      decodeWord w = .ok (opcodeMap[k].build (w >>> 8 &&& 7).toNat) := by
    rw [toNat_shiftRight_and_seven]
    exact decodeWord_of_selects (List.getElem_mem hk) (beq_iff_eq.2 h)
  refine ⟨hrow 0 (by decide), hrow 1 (by decide), hrow 2 (by decide), hrow 3 (by decide), hrow 4 (by decide),
    hrow 5 (by decide), hrow 6 (by decide), hrow 7 (by decide), hrow 8 (by decide), hrow 9 (by decide),
    hrow 10 (by decide), hrow 11 (by decide), hrow 12 (by decide), hrow 13 (by decide), hrow 14 (by decide),
    fun ⟨hfull, hop⟩ => decodeWord_of_no_row fun r hr => ?_⟩
  have hlisted : ∀ r ∈ opcodeMap,
      (r.mask = 0xFFFFFFFF ∧ r.pattern ∈ ([0x00, 0x12, 0x13, 0x31, 0x32, 0x41] : List Word)) ∨
      (r.mask = 0xFFFFF8FF ∧
        r.pattern ∈ ([0x01, 0x02, 0x03, 0x10, 0x11, 0x20, 0x21, 0x30, 0x40] : List Word)) := by decide
  refine beq_eq_false_iff_ne.2 fun heq => ?_
  rcases hlisted r hr with ⟨hm, hp⟩ | ⟨hm, hp⟩
  · exact hfull (by rwa [← hm, heq])
  · exact hop (by rwa [← hm, heq])

/-! ## Which words are illegal -/

/-- A word selects a row exactly when RSV is 0, OPC is assigned, and HSEL is 0 where the command takes no
handle (30_encoding.md R84). -/
theorem exists_selects_iff (w : Word) : (∃ r ∈ opcodeMap, OpRow.selects w r = true) ↔
    w >>> 11 = 0 ∧
    (w &&& 0xFF) ∈ ([0x00, 0x01, 0x02, 0x03, 0x10, 0x11, 0x12, 0x13, 0x20, 0x21, 0x30, 0x31, 0x32,
      0x40, 0x41] : List Word) ∧
    ((w &&& 0xFF) ∈ ([0x00, 0x12, 0x13, 0x31, 0x32, 0x41] : List Word) → w >>> 8 &&& 7 = 0) := by
  have hcode {r : OpRow} (hr : r ∈ opcodeMap) : opcField w = opcField r.pattern ↔ w &&& 0xFF = r.pattern := by
    have hpat : ∀ r ∈ opcodeMap, (opcField r.pattern).setWidth 32 = r.pattern := by decide
    rw [and_byte_eq_opcField]
    exact ⟨fun h => by rw [h, hpat r hr], fun h => by rw [← h, opcField_setWidth]⟩
  have hhsel : w >>> 8 &&& 7 = 0 ↔ hselField w = 0 := by
    rw [← toNat_shiftRight_and_seven, ← BitVec.toNat_inj]
    rfl
  have hassigned : ([0x00, 0x01, 0x02, 0x03, 0x10, 0x11, 0x12, 0x13, 0x20, 0x21, 0x30, 0x31, 0x32, 0x40,
      0x41] : List Word) = opcodeMap.map OpRow.pattern := rfl
  have hfixed : ∀ r ∈ opcodeMap,
      r.mask = maskAll ↔ r.pattern ∈ ([0x00, 0x12, 0x13, 0x31, 0x32, 0x41] : List Word) := by decide
  rw [shiftRight_eq_zero_iff_rsvField, hhsel, hassigned, List.mem_map]
  constructor
  · rintro ⟨r, hr, hs⟩
    obtain ⟨hrsv, hopc, hzero⟩ := (selects_iff hr).1 hs
    rw [(hcode hr).1 hopc, ← hfixed r hr]
    exact ⟨hrsv, ⟨r, hr, rfl⟩, hzero⟩
  · rintro ⟨hrsv, ⟨r, hr, hc⟩, hzero⟩
    rw [← hc, ← hfixed r hr] at hzero
    exact ⟨r, hr, (selects_iff hr).2 ⟨hrsv, (hcode hr).2 hc.symm, hzero⟩⟩

/-! ## The acceptance -/

section

variable {s : State} {w : Word} (hb : s.status.busy = false)
include hb

/-- An illegal word completes with its acceptance (60_exceptions.md R258). -/
theorem writeCmd_of_illegal (held : Bool) {why : IllegalWord} (hd : decodeWord w = .error why) :
    writeCmd held w s = .next (afterError (afterAccept s w) .illegalCmd 0 0 0) := by
  rw [writeCmd, hb, hd]; rfl

/-- A command is run with its acceptance, or held (30_encoding.md R80, 70_reset_and_hazards.md R303). -/
theorem writeCmd_of_command (held : Bool) {i : Instr} (hd : decodeWord w = .ok i) :
    writeCmd held w s = if held then .next { afterAccept s w with cont := some (.start i) }
      else exec i (afterAccept s w) := by
  rw [writeCmd, hb, hd]; rfl

end

/-- Settles O4: by the fields of the rows, and by the acceptance of a word that selects none. -/
theorem illegalWordsOnlyComplete : Obligations.IllegalWordsOnlyComplete := by
  refine ⟨fun w => ?_, fun s held rest w why hb hd => ?_⟩
  · rw [decodeWord_eq_error_iff, exists_selects_iff, not_and_or, not_and_or, Classical.not_imp]
  · rw [step_regWrite s held rest w rfl (by decide)]
    exact writeCmd_of_illegal (s := { s with inputs := rest }) hb held hd

/-- Settles O5: the words are those of their commands. -/
theorem sampleWordsDecode : Obligations.SampleWordsDecode :=
  ⟨decodeEncodeRoundTrip .nop rfl, decodeEncodeRoundTrip (.lutLoad 2) rfl,
    decodeEncodeRoundTrip (.symLookup 5) rfl, decodeEncodeRoundTrip (.encBits 1) rfl,
    decodeEncodeRoundTrip (.dec 7) rfl, decodeEncodeRoundTrip (.sencOpen 1) rfl,
    decodeEncodeRoundTrip .sdecRead rfl⟩

/-- Settles O6: by the acceptance that is not held. -/
theorem stepRunsDecodedCommand : Obligations.StepRunsDecodedCommand := by
  intro s rest w i hb hd
  exact (step_regWrite s false rest w rfl (by decide)).trans
    (writeCmd_of_command (s := { s with inputs := rest }) hb false hd)

/-- The core's turn runs a held command (70_reset_and_hazards.md R303). -/
theorem coreStep_of_held {s : State} {i : Instr} (hc : s.cont = some (.start i)) :
    coreStep s = exec i { s with cont := none } := by
  rw [coreStep, hc]

/-- Settles O7: the held acceptance, and the core's turn on the state that it leaves. -/
theorem heldCommandRunsOnCoreTurn : Obligations.HeldCommandRunsOnCoreTurn := by
  intro s rest rest' w i hb hc hd
  have hturn (ins : List Input) :
      coreStep { afterAccept s w with cont := some (.start i), inputs := ins }
        = exec i { afterAccept s w with inputs := ins } := by
    rw [coreStep_of_held rfl, ← hc]
    rfl
  exact ⟨(step_regWrite s true rest w rfl (by decide)).trans
    (writeCmd_of_command (s := { s with inputs := rest }) hb true hd), hturn rest', hturn []⟩

/-! ## The host's lines -/

/-- MEMSET writes its bytes in order, each at its own address (30_encoding.md R92). -/
theorem memsetMoves_getElem? (a : Nat) (bs : List Byte) (j : Nat) :
    (memsetMoves a bs)[j]? = bs[j]?.map (fun b => HostMove.op (.memWrite (a + j) b)) := by
  induction bs generalizing a j with
  | nil => rfl
  | cons b bs ih =>
    cases j with
    | zero => rfl
    | succ j =>
      rw [memsetMoves, List.getElem?_cons_succ, List.getElem?_cons_succ, ih, Nat.add_right_comm, Nat.add_assoc]

/-- Settles O60: a line by its expansion, MEMSET by its bytes, a poll of WAIT by the STATUS that it reads. -/
theorem hostLinesExpand : Obligations.HostLinesExpand := by
  refine ⟨fun h src n dst bits bs text => ?_, fun lines l => List.flatMap_cons, fun s held rest moves => ?_⟩
  · exact ⟨rfl, rfl, rfl, rfl, rfl, rfl, rfl, rfl, rfl, rfl, rfl, rfl, rfl, rfl, rfl, rfl,
      memsetMoves_getElem? dst bs, rfl⟩
  · have hpoll : step { s with program := .wait :: moves, inputs := .program held :: rest }
        = .next (waitPoll moves { s with program := .wait :: moves, inputs := rest }) := rfl
    rw [waitPoll_eq] at hpoll
    refine ⟨fun op => (step_hostInput { s with program := moves } held rest op).symm,
      fun hb => hpoll.trans ?_, fun hb => hpoll.trans ?_⟩
    · rw [if_pos hb]; rfl
    · rw [hb]; rfl

end Sys2Proof.Proofs

/-!
PROOFS. The tables and their commands (40_alphabet_lut.md): what BuildTable leaves at a byte and which bytes it
accepts (O24, O25), the two ROM handles (O26, O27), LUT_LOAD and the lookups (O28, O29), NOP and the length
commands (O32).
-/

namespace Sys2Proof.Proofs

open Sys2Proof Sys2Proof.Machine Sys2Proof.Laws

/-! ## BuildTable -/

theorem entryAt_setEntry (dt : Vector Byte 256) (b v c : Byte) :
    entryAt (setEntry dt b v) c = if b = c then v else entryAt dt c := by
  rw [entryAt, setEntry, Vector.getElem_set]
  simp only [BitVec.toNat_inj]
  rfl

/-- The writes of BuildTable, in the order of `es`: a byte and the index that becomes its entry. -/
def writeEntries (dt : Vector Byte 256) (es : List (Byte × Nat)) : Vector Byte 256 :=
  es.foldl (fun dt e => setEntry dt e.1 (BitVec.ofNat 8 e.2)) dt

theorem buildTable_eq_writeEntries (sym : Vector Byte 32) :
    buildTable sym = writeEntries (Vector.replicate 256 sentinel) sym.toList.zipIdx := rfl

theorem entryAt_writeEntries_of_unwritten {es : List (Byte × Nat)} {b : Byte} (h : ∀ e ∈ es, e.1 ≠ b)
    (dt : Vector Byte 256) : entryAt (writeEntries dt es) b = entryAt dt b := by
  induction es generalizing dt with
  | nil => rfl
  | cons e es ih =>
    obtain ⟨he, hes⟩ := List.forall_mem_cons.1 h
    exact (ih hes _).trans ((entryAt_setEntry _ _ _ _).trans (if_neg he))

/-- The last write to a byte is the one that stays. -/
theorem entryAt_writeEntries_of_last (dt : Vector Byte 256) (pre : List (Byte × Nat)) (b : Byte) (i : Nat)
    {post : List (Byte × Nat)} (h : ∀ e ∈ post, e.1 ≠ b) :
    entryAt (writeEntries dt (pre ++ (b, i) :: post)) b = BitVec.ofNat 8 i := by
  rw [writeEntries, List.foldl_append, List.foldl_cons]
  exact (entryAt_writeEntries_of_unwritten h _).trans ((entryAt_setEntry _ _ _ _).trans (if_pos rfl))

/-- A byte that is no symbol has the sentinel (40_alphabet_lut.md R102). -/
theorem entryAt_buildTable_of_notMem {sym : Vector Byte 32} {b : Byte} (h : b ∉ sym.toList) :
    entryAt (buildTable sym) b = sentinel := by
  rw [buildTable_eq_writeEntries, entryAt_writeEntries_of_unwritten, entryAt, Vector.getElem_replicate]
  rintro e he rfl
  exact h (List.fst_mem_of_mem_zipIdx he)

/-- `i` is the last index at which `b` stands in the alphabet. -/
def LastAt (sym : Vector Byte 32) (b : Byte) (i : Nat) : Prop :=
  ∃ h : i < 32, sym[i] = b ∧ ∀ j (hj : j < 32), i < j → sym[j] ≠ b

/-- Of equal symbols the later index wins (40_alphabet_lut.md R102). -/
theorem entryAt_buildTable_of_lastAt {sym : Vector Byte 32} {b : Byte} {i : Nat} (h : LastAt sym b i) :
    entryAt (buildTable sym) b = BitVec.ofNat 8 i := by
  obtain ⟨hi, hb, hlast⟩ := h
  have hi' : i < sym.toList.length := by simpa using hi
  have hsplit : sym.toList.zipIdx
      = (sym.toList.take i).zipIdx ++ (b, i) :: (sym.toList.drop (i + 1)).zipIdx (i + 1) := by
    conv_lhs => rw [← List.take_append_drop i sym.toList, ← List.getElem_cons_drop hi', Vector.getElem_toList, hb]
    rw [List.zipIdx_append, List.zipIdx_cons, List.length_take, Nat.min_eq_left (Nat.le_of_lt hi'), Nat.zero_add]
  rw [buildTable_eq_writeEntries, hsplit]
  refine entryAt_writeEntries_of_last _ _ _ _ fun e he heq => ?_
  obtain ⟨k, hk, hget⟩ := List.getElem_of_mem (List.fst_mem_of_mem_zipIdx he)
  rw [List.length_drop, Vector.length_toList] at hk
  rw [List.getElem_drop, Vector.getElem_toList, heq] at hget
  exact hlast (i + 1 + k) (by omega) (by omega) hget

/-- A symbol has a last index. -/
theorem exists_lastAt {sym : Vector Byte 32} {b : Byte} (h : b ∈ sym.toList) : ∃ i, LastAt sym b i := by
  obtain ⟨k, hk, hb⟩ := Vector.getElem_of_mem (Vector.mem_toList_iff.1 h)
  obtain ⟨i, hi, hmax⟩ := Finset.exists_max_image (Finset.univ.filter fun j : Fin 32 => sym[j] = b) id
    ⟨⟨k, hk⟩, by simpa using hb⟩
  refine ⟨i, i.isLt, by simpa using hi, fun j hj hlt heq => ?_⟩
  have hle : (⟨j, hj⟩ : Fin 32) ≤ i := hmax ⟨j, hj⟩ (by simpa using heq)
  exact absurd hle (Nat.not_le.2 hlt)

/-- No index is the sentinel. -/
theorem ofNat_ne_sentinel {i : Nat} (h : i < 32) : BitVec.ofNat 8 i ≠ sentinel := by
  revert i
  decide

/-- A table accepts exactly the symbols of its alphabet (40_alphabet_lut.md R102). -/
theorem entryAt_buildTable_ne_sentinel_iff (sym : Vector Byte 32) (b : Byte) :
    entryAt (buildTable sym) b ≠ sentinel ↔ b ∈ sym.toList := by
  constructor
  · exact fun h => of_not_not fun hb => h (entryAt_buildTable_of_notMem hb)
  · intro hb
    obtain ⟨i, hi⟩ := exists_lastAt hb
    rw [entryAt_buildTable_of_lastAt hi]
    exact ofNat_ne_sentinel hi.1

/-- Settles O24: a byte that is never written keeps the sentinel, and the last write to a byte stays. -/
theorem buildTableEntries : Obligations.BuildTableEntries := by
  refine fun sym b => ⟨fun h => entryAt_buildTable_of_notMem fun hb => ?_,
    fun i hi hb hlast => entryAt_buildTable_of_lastAt ⟨hi, hb, hlast⟩⟩
  obtain ⟨i, hi, hget⟩ := Vector.getElem_of_mem (Vector.mem_toList_iff.1 hb)
  exact h i hi hget

/-! ## The table of distinct symbols -/

/-- With distinct symbols every index is the last of its symbol. -/
theorem lastAt_of_nodup {sym : Vector Byte 32} (h : sym.toList.Nodup) {i : Nat} (hi : i < 32) :
    LastAt sym sym[i] i := by
  refine ⟨hi, rfl, fun j hj hlt heq => ?_⟩
  rw [← Vector.getElem_toList (by simpa using hj), ← Vector.getElem_toList (by simpa using hi),
    h.getElem_inj_iff] at heq
  omega

/-- The 256 bytes, in rising order. -/
def allBytes : List Byte := (List.finRange 256).map BitVec.ofFin

theorem mem_allBytes (b : Byte) : b ∈ allBytes := List.mem_map.2 ⟨b.toFin, List.mem_finRange _, rfl⟩

theorem allBytes_nodup : allBytes.Nodup :=
  (List.nodup_finRange 256).map fun _ _ h => congrArg BitVec.toFin h

theorem toList_eq_map_entryAt (dt : Vector Byte 256) : dt.toList = allBytes.map (entryAt dt) := by
  rw [allBytes, List.map_map, ← List.ofFn_eq_map]
  refine List.ext_getElem (Vector.length_toList.trans List.length_ofFn.symm) fun i _ _ => ?_
  rw [Vector.getElem_toList, List.getElem_ofFn]
  rfl

/-- The valid entries of a table are those of the symbols (40_alphabet_lut.md R106). -/
theorem length_valid_entries {sym : Vector Byte 32} (h : sym.toList.Nodup) :
    ((buildTable sym).toList.filter (fun v => v ≠ sentinel)).length = 32 := by
  have hperm : (allBytes.filter ((fun v => v ≠ sentinel) ∘ entryAt (buildTable sym))).Perm sym.toList :=
    (List.perm_ext_iff_of_nodup (allBytes_nodup.filter _) h).2 fun b => by
      simpa [mem_allBytes] using entryAt_buildTable_ne_sentinel_iff sym b
  rw [toList_eq_map_entryAt, List.filter_map, List.length_map]
  exact hperm.length_eq.trans (Vector.length_toList)

/-- Settles O25: the entry of a symbol is its only index, and the accepted bytes are the 32 symbols. -/
theorem distinctAlphabetTable : Obligations.DistinctAlphabetTable := by
  refine fun sym hnd => ⟨fun i hi => entryAt_buildTable_of_lastAt (lastAt_of_nodup hnd hi), fun b hb => ?_,
    length_valid_entries hnd⟩
  obtain ⟨i, hi⟩ := exists_lastAt ((entryAt_buildTable_ne_sentinel_iff sym b).1 hb)
  obtain ⟨h32, hget, -⟩ := id hi
  exact ⟨i, h32, entryAt_buildTable_of_lastAt hi, hget⟩

/-! ## The ROM handles -/

@[simp] theorem romSlot_alpha (alpha : Vector Byte 32) : (romSlot alpha).alpha = alpha := rfl
@[simp] theorem romSlot_dt (alpha : Vector Byte 32) : (romSlot alpha).dt = buildTable alpha := rfl
@[simp] theorem romSlot_valid (alpha : Vector Byte 32) : (romSlot alpha).valid = true := rfl

theorem slotAt_zero (s : State) : slotAt s 0 = romSlot (standardAlphabet s.params) := rfl

theorem slotAt_one (s : State) : slotAt s 1 = romSlot (lowerAlphabet s.params) := rfl

theorem getElem_lowerAlphabet (p : Params) {i : Nat} (hi : i < 32) :
    (lowerAlphabet p)[i] = foldCase (standardAlphabet p)[i] := Vector.getElem_ofFn hi

theorem symbolAt_lowerAlphabet (p : Params) (v : BitVec 5) :
    symbolAt (lowerAlphabet p) v = foldCase (symbolAt (standardAlphabet p) v) := getElem_lowerAlphabet p v.isLt

/-- Settles O26: the second alphabet folds each symbol of the first. -/
theorem romHandles : Obligations.RomHandles := by
  intro s
  simp only [slotAt_zero, slotAt_one, romSlot_alpha, romSlot_dt, romSlot_valid, and_true]
  refine ⟨rfl, fun v => ?_⟩
  refine (symbolAt_lowerAlphabet s.params v).trans ?_
  simp only [foldCase, isUpper, Bool.and_eq_true, decide_eq_true_eq]
  rfl

/-! ## Case -/

/-- The lowercase form of a letter is no uppercase letter and no digit. -/
theorem lowercase_not_upper_or_digit {b : Byte} (hb : isUpper b = true) :
    isUpper (b + 0x20) = false ∧ isDigit (b + 0x20) = false := by
  revert b
  decide

/-- Folding moves an uppercase letter to its lowercase form and keeps every other byte (40_alphabet_lut.md R104). -/
theorem foldCase_cases (b : Byte) :
    (isUpper b = true ∧ foldCase b = b + 0x20) ∨ (isUpper b = false ∧ foldCase b = b) := by
  unfold foldCase
  cases h : isUpper b with
  | true => exact .inl ⟨rfl, rfl⟩
  | false => exact .inr ⟨rfl, rfl⟩

theorem isUpper_foldCase (b : Byte) : isUpper (foldCase b) = false := by
  rcases foldCase_cases b with ⟨hu, he⟩ | ⟨hu, he⟩ <;> rw [he]
  · exact (lowercase_not_upper_or_digit hu).1
  · exact hu

/-- Only a digit itself folds to it. -/
theorem eq_of_foldCase_eq_digit {b c : Byte} (hb : isDigit b = true) (h : foldCase c = b) : c = b := by
  rcases foldCase_cases c with ⟨hu, he⟩ | ⟨-, he⟩
  · obtain ⟨-, hd⟩ := lowercase_not_upper_or_digit hu
    rw [← he, h, hb] at hd
    cases hd
  · exact he.symm.trans h

theorem foldCase_of_digit {b : Byte} (hb : isDigit b = true) : foldCase b = b := by
  revert b
  decide

/-- The 28 fixed symbols are uppercase letters or digits, so that only the open ones are in question
(40_alphabet_lut.md R103). -/
theorem all_standardAlphabet (p : Params) :
    (standardAlphabet p).toList.all (fun b => isUpper b || isDigit b)
      = p.openSymbols.all (fun b => isUpper b || isDigit b) := rfl

/-- With legal parameters every symbol of the standard alphabet is an uppercase letter or a digit (00_scope.md
R11). -/
theorem upper_or_digit_of_mem {p : Params} (hp : p.legal = true) {b : Byte} (h : b ∈ (standardAlphabet p).toList) :
    isUpper b = true ∨ isDigit b = true := by
  obtain ⟨-, -, -, -, ha⟩ := (legal_iff p).1 hp
  simp only [Params.legalAlphabet, Bool.and_eq_true] at ha
  obtain ⟨⟨hopen, -⟩, -⟩ := ha
  rw [← all_standardAlphabet, List.all_eq_true] at hopen
  exact (Bool.or_eq_true _ _).mp (hopen b h)

/-- The lowercase alphabet has a digit where the standard one has it. -/
theorem lastAt_lowerAlphabet_of_digit {p : Params} {b : Byte} {i : Nat} (hb : isDigit b = true)
    (h : LastAt (standardAlphabet p) b i) : LastAt (lowerAlphabet p) b i := by
  obtain ⟨hi, hget, hlast⟩ := h
  refine ⟨hi, ?_, fun j hj hlt heq => ?_⟩
  · rw [getElem_lowerAlphabet, hget, foldCase_of_digit hb]
  · rw [getElem_lowerAlphabet] at heq
    exact hlast j hj hlt (eq_of_foldCase_eq_digit hb heq)

/-- No uppercase letter is in the lowercase alphabet. -/
theorem notMem_lowerAlphabet_of_upper (p : Params) {b : Byte} (hb : isUpper b = true) :
    b ∉ (lowerAlphabet p).toList := by
  intro h
  obtain ⟨i, hi, hget⟩ := Vector.getElem_of_mem (Vector.mem_toList_iff.1 h)
  rw [← hget, getElem_lowerAlphabet, isUpper_foldCase] at hb
  cases hb

/-- A digit of the standard alphabet has one value in both ROM handles. -/
theorem entryAt_lower_of_digit {p : Params} {b : Byte} (hb : isDigit b = true)
    (h : b ∈ (standardAlphabet p).toList) :
    entryAt (buildTable (standardAlphabet p)) b = entryAt (buildTable (lowerAlphabet p)) b := by
  obtain ⟨i, hi⟩ := exists_lastAt h
  rw [entryAt_buildTable_of_lastAt hi, entryAt_buildTable_of_lastAt (lastAt_lowerAlphabet_of_digit hb hi)]

/-- The lowercase form of a letter is not in the standard alphabet. -/
theorem notMem_standardAlphabet_of_lowercase {p : Params} (hp : p.legal = true) {b : Byte}
    (hb : isUpper b = true) : b + 0x20 ∉ (standardAlphabet p).toList := by
  intro h
  obtain ⟨hu, hd⟩ := lowercase_not_upper_or_digit hb
  rcases upper_or_digit_of_mem hp h with h | h
  · rw [hu] at h
    cases h
  · rw [hd] at h
    cases h

theorem encodeCore_lowerAlphabet (p : Params) (src : List Byte) (L : Nat) :
    encodeCore (lowerAlphabet p) src L = (encodeCore (standardAlphabet p) src L).map foldCase := by
  simp only [encodeCore, List.map_map, Function.comp_def, symbolAt_lowerAlphabet]

/-- Settles O27: every symbol of the standard alphabet is a digit, which folding keeps, or an uppercase letter,
which it moves out of the alphabet. -/
theorem caseSensitiveHandles : Obligations.CaseSensitiveHandles := by
  intro s hp
  simp only [slotAt_zero, slotAt_one, romSlot_alpha, romSlot_dt]
  refine ⟨entryAt_buildTable_ne_sentinel_iff _, entryAt_buildTable_ne_sentinel_iff _, fun b hb => ?_,
    encodeCore_lowerAlphabet s.params⟩
  rcases upper_or_digit_of_mem hp hb with hu | hd
  · exact .inr ⟨hu, entryAt_buildTable_of_notMem (notMem_lowerAlphabet_of_upper _ hu),
      entryAt_buildTable_of_notMem (notMem_standardAlphabet_of_lowercase hp hu)⟩
  · exact .inl ⟨hd, entryAt_lower_of_digit hd hb⟩

/-! ## LUT_LOAD -/

theorem toList_alphabetOf {bs : List Byte} (h : bs.length = 32) : (alphabetOf bs).toList = bs := by
  refine List.ext_getElem (by simp [h]) fun i _ hi => ?_
  simp [alphabetOf, hi]

theorem canLoad_eq_false_iff (s : State) (h : Nat) :
    canLoad s h = false ↔ s.params.numSlots ≤ h ∨ h < 2 ∨ (slotAt s h).valid = true := by
  rw [← Bool.not_eq_true, canLoad_iff, not_and_or, not_and_or, Nat.not_lt, Nat.not_le, Bool.not_eq_false]

section

variable {s : State} {h : Nat}

theorem exec_lutLoad_of_not_canLoad (hc : canLoad s h = false) :
    exec (.lutLoad h) s = .next (afterError s .badHandle 0 0 0) := by
  rw [exec, execLutLoad, hc]; rfl

theorem exec_lutLoad_of_not_fits (hc : canLoad s h = true) (hf : ¬ Fits s (srcAddr s.latch) 32) :
    exec (.lutLoad h) s = .next (afterError s .addrRange 0 0 0) := by
  rw [exec, execLutLoad, hc, (inRange_eq_false_iff s _ _).2 hf]; rfl

theorem exec_lutLoad_of_holds {syms : List Byte} (hc : canLoad s h = true) (hf : Fits s (srcAddr s.latch) 32)
    (hn : syms.length = 32) (hh : Holds s.mem (srcAddr s.latch) syms) :
    exec (.lutLoad h) s = .next (afterOk (loadSlot s h (alphabetOf syms)) 0 0 false) := by
  rw [exec, execLutLoad, hc, (inRange_iff s _ _).2 hf, readBytes_of_holds hn hh]; rfl

end

/-- LUT_LOAD changes the loadable slots alone. -/
theorem with_loadable_loadSlot (s : State) (h : Nat) (sym : Vector Byte 32) :
    { s with loadable := (loadSlot s h sym).loadable } = loadSlot s h sym := rfl

theorem regValue_slotValid (s : State) : regValue s 0x30 = slotValidWord s := rfl

/-- Settles O28: by the three answers of LUT_LOAD and the slots after its load. -/
theorem lutLoadEffect : Obligations.LutLoadEffect := by
  intro s h syms h8
  dsimp only
  rw [← canLoad_eq_false_iff, Bool.not_eq_false]
  refine ⟨decodeEncodeRoundTrip (.lutLoad h) (decide_eq_true h8), exec_lutLoad_of_not_canLoad,
    exec_lutLoad_of_not_fits, fun hc hf hn hh =>
    ⟨(loadSlot s h (alphabetOf syms)).loadable, exec_lutLoad_of_holds hc hf hn hh, ?_⟩⟩
  obtain ⟨hslots, h2, -⟩ := (canLoad_iff s h).1 hc
  have hself := slotAt_loadSlot_self s h (alphabetOf syms) h2 h8
  rw [with_loadable_loadSlot, regValue_slotValid, getLsbD_slotValidWord, usable, hself]
  dsimp only
  exact ⟨toList_alphabetOf hn, rfl, rfl, by simp [h8, hslots],
    fun k hk => slotAt_loadSlot_of_ne s h k (alphabetOf syms) h2 hk⟩

/-! ## The lookups -/

/-- Settles O29: by the check of the handle. -/
theorem tableLookupResults : Obligations.TableLookupResults := by
  refine fun s h => ⟨fun h8 => ⟨decodeEncodeRoundTrip (.symLookup h) (decide_eq_true h8),
    decodeEncodeRoundTrip (.dtLookup h) (decide_eq_true h8)⟩, fun hu => ⟨?_, ?_⟩, fun hu => ⟨?_, ?_⟩⟩
  · rw [exec, execSymLookup, hu]; rfl
  · rw [exec, execDtLookup, hu]; rfl
  · rw [exec, execSymLookup, hu]; rfl
  · rw [exec, execDtLookup, hu]; rfl

/-! ## NOP and the length commands -/

/-- A 64-bit length result in RES1:RES0 (41_encoder.md R138, R139). -/
theorem completeLength_eq_afterOk (s : State) {r : Nat} (hr : r < 2 ^ 64) :
    completeLength s r = afterOk s (BitVec.ofNat 32 (r % 2 ^ 32)) (BitVec.ofNat 32 (r / 2 ^ 32)) false := by
  have hlow : (BitVec.ofNat 64 r).extractLsb' 0 32 = BitVec.ofNat 32 (r % 2 ^ 32) := by
    refine BitVec.eq_of_toNat_eq ?_
    rw [BitVec.extractLsb'_toNat, BitVec.toNat_ofNat, BitVec.toNat_ofNat, Nat.shiftRight_zero]
    omega
  have hhigh : (BitVec.ofNat 64 r).extractLsb' 32 32 = BitVec.ofNat 32 (r / 2 ^ 32) := by
    refine BitVec.eq_of_toNat_eq ?_
    rw [BitVec.extractLsb'_toNat, BitVec.toNat_ofNat, BitVec.toNat_ofNat, Nat.shiftRight_eq_div_pow,
      Nat.mod_eq_of_lt hr]
  rw [completeLength, hlow, hhigh, completeWith_eq_afterOk]

/-- A word whose RSV and HSEL are 0 is its OPC. -/
theorem eq_and_byte {w : Word} (hr : rsvField w = 0) (hh : hselField w = 0) : w = w &&& 0xFF := by
  have hhigh : w.toNat / 2048 = 0 := by rw [← rsvField_toNat, hr]; rfl
  rw [hselField_eq_mod] at hh
  refine BitVec.eq_of_toNat_eq ?_
  rw [and_byte_eq_opcField, toNat_field _ (by decide), opcField_toNat]
  omega

/-- A word whose opcode takes no handle is illegal when it is not the opcode alone (30_encoding.md R84). -/
theorem decodeWord_error_of_handle {w : Word}
    (hc : (w &&& 0xFF) ∈ ([0x00, 0x12, 0x13, 0x31, 0x32, 0x41] : List Word)) (hw : w ≠ w &&& 0xFF) :
    ∃ why, decodeWord w = .error why := by
  rw [decodeWord_eq_error_iff, exists_selects_iff, shiftRight_eq_zero_iff_rsvField]
  rintro ⟨hrsv, -, hzero⟩
  refine hw (eq_and_byte hrsv ?_)
  rw [← toNat_shiftRight_and_seven, hzero hc]
  rfl

/-- Settles O32: by the fields of the words, and by the size of the lengths. -/
theorem nopAndLengthResults : Obligations.NopAndLengthResults := by
  refine ⟨⟨decodeEncodeRoundTrip .nop rfl, decodeEncodeRoundTrip .encLen rfl, decodeEncodeRoundTrip .decLen rfl,
    fun w hc hw => decodeWord_error_of_handle ?_ fun he => hw (he ▸ hc)⟩, fun s => ⟨rfl, ?_, ?_⟩⟩
  · exact (by decide : ([0x00, 0x12, 0x13] : List Word) ⊆ [0x00, 0x12, 0x13, 0x31, 0x32, 0x41]) hc
  · have hn := s.latch.a1.isLt
    exact congrArg Host.Outcome.next (completeLength_eq_afterOk s (r := (s.latch.a1.toNat + 4) / 5 * 8) (by omega))
  · have hn := s.latch.a1.isLt
    have hr : (s.latch.a1.toNat + 7) / 8 * 5 < 2 ^ 32 := by omega
    refine congrArg Host.Outcome.next ((completeLength_eq_afterOk s (Nat.lt_trans hr (by decide))).trans ?_)
    rw [Nat.mod_eq_of_lt hr, Nat.div_eq_of_lt hr]
    rfl

end Sys2Proof.Proofs

/-!
PROOFS. The encoder (41_encoder.md): the bits of a symbol's value and the cursor walk that computes it (O33), an
encode as a function of its stream bits (O34, O35), the decode that inverts it (O41), ENC and ENC_BITS (O30, O31).
-/

namespace Sys2Proof.Proofs

open Sys2Proof Sys2Proof.Machine Sys2Proof.Laws

/-! ## The bits of a symbol's value -/

/-- The first of five bits is the most significant (41_encoder.md R131). -/
theorem getLsbD_sum_five (f : Nat → Bool) {i : Nat} (hi : i < 5) :
    (BitVec.ofNat 5 ((List.range 5).map fun t => (f t).toNat <<< (4 - t)).sum).getLsbD i = f (4 - i) := by
  have hbits : ∀ (b0 b1 b2 b3 b4 : Bool) (i : Nat), i < 5 →
      (BitVec.ofNat 5 ([b0.toNat <<< 4, b1.toNat <<< 3, b2.toNat <<< 2, b3.toNat <<< 1, b4.toNat <<< 0].sum)).getLsbD i
        = [b0, b1, b2, b3, b4].getD (4 - i) false := by decide
  refine (hbits (f 0) (f 1) (f 2) (f 3) (f 4) i hi).trans ?_
  interval_cases i <;> rfl

theorem getLsbD_symVal (src : List Byte) (L k : Nat) {i : Nat} (hi : i < 5) :
    (symVal src L k).getLsbD i = streamBit src L (5 * k + (4 - i)) :=
  getLsbD_sum_five (fun t => streamBit src L (5 * k + t)) hi

/-- A symbol's value depends on its five stream bits alone (41_encoder.md R131). -/
theorem symVal_congr {a b : List Byte} {L L' k k' : Nat}
    (h : ∀ t, t < 5 → streamBit a L (5 * k + t) = streamBit b L' (5 * k' + t)) : symVal a L k = symVal b L' k' := by
  refine BitVec.eq_of_getLsbD_eq fun i hi => ?_
  rw [getLsbD_symVal a L k hi, getLsbD_symVal b L' k' hi]
  exact h (4 - i) (by omega)

/-- A symbol wholly beyond the declared bits has the value 0. -/
theorem symVal_of_le (src : List Byte) {L k : Nat} (h : L ≤ 5 * k) : symVal src L k = 0 := by
  refine BitVec.eq_of_getLsbD_eq fun i hi => ?_
  rw [getLsbD_symVal src L k hi, streamBit_of_le src L _ (by omega)]
  exact BitVec.getLsbD_zero.symm

/-! ## The cursor walk -/

theorem testBit_and_31 (v i : Nat) : (v &&& 31).testBit i = (decide (i < 5) && v.testBit i) := by
  rw [Nat.testBit_and, show (31 : Nat) = 2 ^ 5 - 1 from rfl, Nat.testBit_two_pow_sub_one, Bool.and_comm]

/-- The low bits that the walk clears are those at or beyond the declared count (41_encoder.md R131). -/
theorem testBit_mask_31 (v d : Nat) {i : Nat} (hi : i < 5) :
    (v &&& ((31 <<< d) &&& 31)).testBit i = (decide (d ≤ i) && v.testBit i) := by
  have h31 : Nat.testBit 31 (i - d) = true := by
    rw [show (31 : Nat) = 2 ^ 5 - 1 from rfl, Nat.testBit_two_pow_sub_one]
    exact decide_eq_true (by omega)
  rw [Nat.testBit_and, testBit_and_31, Nat.testBit_shiftLeft, h31]
  simp [hi, Bool.and_comm]

/-- The five bits of the byte pair `b0`, `b1` from bit `off` of `b0` on, first bit first: what the walk reads before
it masks (41_encoder.md R131). -/
def pairBits (b0 b1 : Byte) (off : Nat) : Nat :=
  if off ≤ 3 then (b0.toNat >>> (3 - off)) &&& 31
  else ((b0.toNat <<< (off - 3)) ||| (b1.toNat >>> (11 - off))) &&& 31

theorem testBit_pairBits (b0 b1 : Byte) {off i : Nat} (ho : off < 8) (hi : i < 5) :
    (pairBits b0 b1 off).testBit i
      = if off + (4 - i) < 8 then b0.getLsbD (7 - (off + (4 - i))) else b1.getLsbD (15 - (off + (4 - i))) := by
  rw [pairBits]
  split
  · next h3 =>
    rw [if_pos (by omega), testBit_and_31, Nat.testBit_shiftRight, BitVec.testBit_toNat,
      show 3 - off + i = 7 - (off + (4 - i)) by omega]
    simp [hi]
  · next h3 =>
    rw [testBit_and_31, Nat.testBit_or, Nat.testBit_shiftLeft, Nat.testBit_shiftRight, BitVec.testBit_toNat,
      BitVec.testBit_toNat]
    split
    · next h8 =>
      rw [BitVec.getLsbD_of_ge b1 _ (by omega), show i - (off - 3) = 7 - (off + (4 - i)) by omega]
      simp [hi, show off - 3 ≤ i by omega]
    · next h8 =>
      rw [show 11 - off + i = 15 - (off + (4 - i)) by omega]
      simp [hi, show ¬ off - 3 ≤ i by omega]

theorem symValCursor_eq (src : List Byte) (L k : Nat) : symValCursor src L k =
    if 5 * k + 5 > L then
      pairBits (src.getD (5 * k / 8) 0) (src.getD (5 * k / 8 + 1) 0) (5 * k % 8) &&& ((31 <<< (5 * k + 5 - L)) &&& 31)
    else pairBits (src.getD (5 * k / 8) 0) (src.getD (5 * k / 8 + 1) 0) (5 * k % 8) := by
  have hnext : (if 5 * k / 8 + 1 < src.length then (src.getD (5 * k / 8 + 1) 0).toNat else 0)
      = (src.getD (5 * k / 8 + 1) 0).toNat := by
    split
    · rfl
    · next h => rw [List.getD_eq_default _ _ (by omega)]; rfl
  simp only [symValCursor, pairBits, hnext]

theorem symValCursor_lt (src : List Byte) (L k : Nat) : symValCursor src L k < 2 ^ 5 := by
  have hpair (b0 b1 : Byte) (off : Nat) : pairBits b0 b1 off < 2 ^ 5 := by
    rw [pairBits]
    split
    · exact Nat.and_lt_two_pow _ (by decide)
    · exact Nat.and_lt_two_pow _ (by decide)
  rw [symValCursor_eq]
  split
  · exact Nat.lt_of_le_of_lt Nat.and_le_left (hpair _ _ _)
  · exact hpair _ _ _

theorem testBit_symValCursor (src : List Byte) (L k : Nat) {i : Nat} (hi : i < 5) :
    (symValCursor src L k).testBit i = streamBit src L (5 * k + (4 - i)) := by
  have hread : (pairBits (src.getD (5 * k / 8) 0) (src.getD (5 * k / 8 + 1) 0) (5 * k % 8)).testBit i
      = (src.getD ((5 * k + (4 - i)) / 8) 0).getLsbD (7 - (5 * k + (4 - i)) % 8) := by
    rw [testBit_pairBits _ _ (Nat.mod_lt _ (by decide)) hi]
    split
    · next h =>
      rw [show (5 * k + (4 - i)) / 8 = 5 * k / 8 by omega,
        show (5 * k + (4 - i)) % 8 = 5 * k % 8 + (4 - i) by omega]
    · next h =>
      rw [show (5 * k + (4 - i)) / 8 = 5 * k / 8 + 1 by omega,
        show 7 - (5 * k + (4 - i)) % 8 = 15 - (5 * k % 8 + (4 - i)) by omega]
  rw [symValCursor_eq]
  by_cases hj : 5 * k + (4 - i) < L
  · rw [streamBit_of_lt src hj, ← hread]
    split
    · rw [testBit_mask_31 _ _ hi, decide_eq_true (by omega), Bool.true_and]
    · rfl
  · rw [streamBit_of_le src L _ (Nat.not_lt.1 hj), if_pos (by omega), testBit_mask_31 _ _ hi,
      decide_eq_false (by omega), Bool.false_and]

/-- Settles O33: the two forms have the same five bits. -/
theorem symValFormsAgree : Obligations.SymValFormsAgree := by
  intro src L k _ _
  refine Nat.eq_of_testBit_eq fun i => ?_
  by_cases hi : i < 5
  · rw [testBit_symValCursor src L k hi, BitVec.testBit_toNat, getLsbD_symVal src L k hi]
  · have h5 : 2 ^ 5 ≤ 2 ^ i := Nat.pow_le_pow_right (by decide) (by omega)
    rw [Nat.testBit_lt_two_pow (Nat.lt_of_lt_of_le (symVal src L k).isLt h5),
      Nat.testBit_lt_two_pow (Nat.lt_of_lt_of_le (symValCursor_lt src L k) h5)]

/-! ## Stream bits -/

/-- A declared bit does not depend on how many bits beyond it are declared (41_encoder.md R130). -/
theorem streamBit_eq_of_lt (src : List Byte) {L L' j : Nat} (h : j < L) (h' : j < L') :
    streamBit src L j = streamBit src L' j := by rw [streamBit_of_lt src h, streamBit_of_lt src h']

theorem streamBit_append_left (a b : List Byte) {j : Nat} (h : j < 8 * a.length) :
    streamBit (a ++ b) (8 * (a ++ b).length) j = streamBit a (8 * a.length) j := by
  rw [streamBit_of_lt _ (by rw [List.length_append]; omega), streamBit_of_lt a h,
    List.getD_append _ _ _ _ (by omega)]

theorem streamBit_append_right (a b : List Byte) (j : Nat) :
    streamBit (a ++ b) (8 * (a ++ b).length) (8 * a.length + j) = streamBit b (8 * b.length) j := by
  rw [List.length_append]
  by_cases h : j < 8 * b.length
  · rw [streamBit_of_lt _ (by omega), streamBit_of_lt b h, List.getD_append_right _ _ _ _ (by omega),
      show (8 * a.length + j) / 8 - a.length = j / 8 by omega, Nat.mul_add_mod]
  · rw [streamBit_of_le _ _ _ (by omega), streamBit_of_le _ _ _ (by omega)]

theorem streamBit_take (l : List Byte) {n j : Nat} (h : j < 8 * (l.take n).length) :
    streamBit (l.take n) (8 * (l.take n).length) j = streamBit l (8 * l.length) j := by
  have happ := streamBit_append_left (l.take n) (l.drop n) h
  rwa [List.take_append_drop, eq_comm] at happ

/-- Byte sequences of one length with the same stream bits are the same. -/
theorem eq_of_streamBit_eq {a b : List Byte} (hlen : a.length = b.length)
    (h : ∀ j, j < 8 * a.length → streamBit a (8 * a.length) j = streamBit b (8 * b.length) j) : a = b := by
  refine List.ext_getElem hlen fun i ha hb => BitVec.eq_of_getLsbD_eq fun t ht => ?_
  have hbit := h (8 * i + (7 - t)) (by omega)
  rwa [streamBit_of_lt _ (by omega), streamBit_of_lt _ (by omega), show (8 * i + (7 - t)) / 8 = i by omega,
    show 7 - (8 * i + (7 - t)) % 8 = t by omega, List.getD_eq_getElem _ _ ha, List.getD_eq_getElem _ _ hb] at hbit

/-! ## An encode as a function of its stream bits -/

/-- Settles O34: 5 bytes are 8 whole symbols, so that the symbols of `b` start where its bits do. -/
theorem encodeConcatenates : Obligations.EncodeConcatenates := by
  intro alpha a b h5
  have hcount : ceilDiv (8 * (a ++ b).length) 5 = ceilDiv (8 * a.length) 5 + ceilDiv (8 * b.length) 5 := by
    simp only [ceilDiv_five, List.length_append]
    omega
  have hstart : 5 * ceilDiv (8 * a.length) 5 = 8 * a.length := by rw [ceilDiv_five]; omega
  simp only [encodeCore]
  rw [hcount, List.range_add, List.map_append, List.map_map]
  refine congrArg₂ (· ++ ·) ?_ ?_
  · refine List.map_congr_left fun k hk => congrArg (symbolAt alpha) (symVal_congr fun t ht => ?_)
    rw [List.mem_range] at hk
    exact streamBit_append_left a b (by omega)
  · refine List.map_congr_left fun k _ => congrArg (symbolAt alpha) (symVal_congr fun t _ => ?_)
    rw [Nat.mul_add, hstart, Nat.add_assoc]
    exact streamBit_append_right a b (5 * k + t)

/-- Settles O35: a symbol depends on its five stream bits, which are 0 beyond the declared count. -/
theorem encodeDependsOnDeclaredBits : Obligations.EncodeDependsOnDeclaredBits := by
  refine ⟨fun alpha a b L h => ?_, fun alpha src L L' k hk => ?_⟩
  · refine List.map_congr_left fun k _ => congrArg (symbolAt alpha) (symVal_congr fun t _ => ?_)
    by_cases hj : 5 * k + t < L
    · exact h _ hj
    · rw [streamBit_of_le a L _ (by omega), streamBit_of_le b L _ (by omega)]
  · have hsym : symVal src L k = symVal src L' k :=
      symVal_congr fun t ht => streamBit_eq_of_lt src (by omega) (by omega)
    rw [encodeCore_getElem? alpha src L k (by rw [ceilDiv_five]; omega),
      encodeCore_getElem? alpha src L' k (by rw [ceilDiv_five]; omega), hsym]

/-! ## Decoding what was encoded -/

/-- The value of a symbol of a distinct alphabet, in its table (40_alphabet_lut.md R106). -/
theorem entryAt_symbolAt {alpha : Vector Byte 32} (h : alpha.toList.Nodup) (v : BitVec 5) :
    entryAt (buildTable alpha) (symbolAt alpha v) = v.setWidth 8 :=
  (entryAt_buildTable_of_lastAt (lastAt_of_nodup h v.isLt)).trans (BitVec.eq_of_toNat_eq (by simp))

/-- The values of `n` symbols from symbol `i` on, as a table gives them. -/
def symVals (src : List Byte) (L i n : Nat) : List Byte :=
  (List.range n).map fun k => (symVal src L (i + k)).setWidth 8

theorem readGroup_encodeCore {alpha : Vector Byte 32} (h : alpha.toList.Nodup) (src : List Byte) {L i n : Nat}
    (hn : i + n ≤ ceilDiv L 5) :
    readGroup (buildTable alpha) (fun k => (encodeCore alpha src L)[k]?) n i = .ok (symVals src L i n) := by
  refine (readGroup_ok_iff _ _ _ _ _).2 ⟨by simp [symVals], fun k hk => ?_⟩
  rw [symVals, List.length_map, List.length_range] at hk
  refine ⟨_, encodeCore_getElem? alpha src L (i + k) (by omega), ?_, ?_⟩
  · rw [entryAt_buildTable_ne_sentinel_iff]
    exact Vector.mem_toList_iff.2 (Vector.getElem_mem _)
  · rw [entryAt_symbolAt h]
    simp [symVals]

/-- The values missing from the last group are those of symbols beyond the declared bits (42_decoder.md R162). -/
theorem padGroup_symVals (src : List Byte) (L g : Nat) :
    padGroup (symVals src L (8 * g) (min 8 (ceilDiv L 5 - 8 * g)))
      = Vector.ofFn fun j : Fin 8 => (symVal src L (8 * g + j)).setWidth 8 := by
  refine Vector.ext fun j hj => ?_
  rw [padGroup, Vector.getElem_ofFn, Vector.getElem_ofFn]
  by_cases hin : j < min 8 (ceilDiv L 5 - 8 * g)
  · rw [List.getD_eq_getElem _ _ (by simpa [symVals] using hin)]
    simp [symVals]
  · have hbeyond : L ≤ 5 * (8 * g + j) := by rw [ceilDiv_five] at hin; omega
    rw [List.getD_eq_default _ _ (by simpa [symVals] using Nat.not_lt.1 hin), symVal_of_le src hbeyond]
    rfl

/-- Combine puts the eight values' bits in a row, five of each (42_decoder.md R163). Each of the 40 places is read off
the shifts: of the values that meet in its byte, one has a bit there. -/
theorem streamBit_combine (v : Nat → BitVec 5) {j : Nat} (hj : j < 40) :
    streamBit (combine (Vector.ofFn fun k : Fin 8 => (v k).setWidth 8)) 40 j = (v (j / 5)).getLsbD (4 - j % 5) := by
  rw [streamBit_of_lt _ hj]
  interval_cases j <;> simp [combine]

/-- The bits of a whole group are those of the stream it was encoded from (42_decoder.md R171). -/
theorem streamBit_combine_symVals (src : List Byte) (L g : Nat) {j : Nat} (hj : j < 40) :
    streamBit (combine (padGroup (symVals src L (8 * g) (min 8 (ceilDiv L 5 - 8 * g))))) 40 j
      = streamBit src L (40 * g + j) := by
  rw [padGroup_symVals, streamBit_combine (fun k => symVal src L (8 * g + k)) hj,
    getLsbD_symVal _ _ _ (by omega), show 5 * (8 * g + j / 5) + (4 - (4 - j % 5)) = 40 * g + j by omega]

/-- OutCount's closed form in bit-count mode, from group `g` on (42_decoder.md R167). -/
theorem groupBytes_bits_eq_min (L bc n g : Nat) :
    groupBytes L (.bits bc) n g = min (ceilDiv bc 8 - 5 * g) (5 * n) := by
  induction n generalizing g with
  | zero => rw [groupBytes]; omega
  | succ n ih =>
    rw [groupBytes, ih (g + 1), emitCount, bitsB, ceilDiv_eight, ceilDiv_eight]
    omega

/-- The bytes that a group emits carry the bits of the stream it was encoded from (42_decoder.md R165). -/
theorem streamBit_take_combine_symVals (src : List Byte) (L g k : Nat) {out : List Byte}
    (hout : out = (combine (padGroup (symVals src L (8 * g) (min 8 (ceilDiv L 5 - 8 * g))))).take k) {j : Nat}
    (hj : j < 8 * out.length) : streamBit out (8 * out.length) j = streamBit src L (40 * g + j) := by
  have h5 : out.length ≤ 5 := by rw [hout, List.length_take, combine_length]; exact Nat.min_le_right _ _
  subst hout
  rw [streamBit_take _ hj, combine_length]
  exact streamBit_combine_symVals src L g (by omega)

/-- `n` groups from group `g` on, the last ones of the input, decode without an error to bytes whose bits are the
declared ones from bit 40g on, then 0. -/
theorem decodeGroups_encodeCore {alpha : Vector Byte 32} (h : alpha.toList.Nodup) (src : List Byte) (L n g : Nat)
    (hn : n = ceilDiv (ceilDiv L 5) 8 - g) :
    ∃ out, decodeGroups (buildTable alpha) (fun k => (encodeCore alpha src L)[k]?) (ceilDiv L 5) (.bits L) n g
        = (out, .ok) ∧ out.length = groupBytes (ceilDiv L 5) (.bits L) n g ∧
      ∀ j, j < 8 * out.length → streamBit out (8 * out.length) j = streamBit src L (40 * g + j) := by
  induction n generalizing g with
  | zero => exact ⟨[], rfl, rfl, fun j hj => absurd hj (Nat.not_lt_zero j)⟩
  | succ n ih =>
    obtain ⟨rest, hrest, hlen, hbits⟩ := ih (g + 1) (by omega)
    have hread := readGroup_encodeCore h src (L := L) (i := 8 * g) (n := min 8 (ceilDiv L 5 - 8 * g))
      (by rw [ceilDiv_eight] at hn; omega)
    obtain ⟨first, hfirst⟩ : ∃ first, first = (combine (padGroup (symVals src L (8 * g)
      (min 8 (ceilDiv L 5 - 8 * g))))).take (emitCount (.bits L) g (min 8 (ceilDiv L 5 - 8 * g))) := ⟨_, rfl⟩
    have hemit : first.length = emitCount (.bits L) g (min 8 (ceilDiv L 5 - 8 * g)) := by
      rw [hfirst, List.length_take, combine_length, Nat.min_eq_left (emitCount_le _ _ _)]
    refine ⟨first ++ rest, by rw [decodeGroups, hread, hfirst]; dsimp only; rw [hrest], ?_, fun j hj => ?_⟩
    · rw [List.length_append, hemit, hlen, groupBytes]
    · by_cases hin : j < 8 * first.length
      · rw [streamBit_append_left first rest hin]
        exact streamBit_take_combine_symVals src L g _ hfirst hin
      · obtain ⟨i, rfl⟩ := Nat.exists_eq_add_of_le (Nat.not_lt.1 hin)
        rw [List.length_append] at hj
        have hfull : first.length = 5 := by
          rw [groupBytes_bits_eq_min, ceilDiv_eight] at hlen
          rw [emitCount, bitsB, ceilDiv_eight] at hemit
          omega
        rw [streamBit_append_right, hbits i (by omega), hfull,
          show 40 * (g + 1) + i = 40 * g + (8 * 5 + i) by omega]

/-- The bit-count decode of an encode gives ceil(L/8) bytes with the declared bits, then 0 (42_decoder.md R171). -/
theorem decodeCore_bits_encodeCore {alpha : Vector Byte 32} (h : alpha.toList.Nodup) (src : List Byte) (L : Nat) :
    ∃ out, decodeCore (buildTable alpha) (fun k => (encodeCore alpha src L)[k]?) (ceilDiv L 5) (.bits L)
        = (out, .ok) ∧ out.length = ceilDiv L 8 ∧
      ∀ j, j < 8 * out.length → streamBit out (8 * out.length) j = streamBit src L j := by
  obtain ⟨out, hout, hlen, hbits⟩ := decodeGroups_encodeCore h src L _ 0 rfl
  refine ⟨out, hout, ?_, fun j hj => ?_⟩
  · rw [hlen, groupBytes_bits_eq_min, ceilDiv_eight, ceilDiv_eight, ceilDiv_five]
    omega
  · rw [hbits j hj, Nat.mul_zero, Nat.zero_add]

theorem decodeGroups_congr_mode (dt : Vector Byte 256) (sym : Nat → Option Byte) (L : Nat) {mode mode' : DecMode}
    (h : ∀ g, emitCount mode g (min 8 (L - 8 * g)) = emitCount mode' g (min 8 (L - 8 * g))) (n g : Nat) :
    decodeGroups dt sym L mode n g = decodeGroups dt sym L mode' n g := by
  induction n generalizing g with
  | zero => rfl
  | succ n ih => rw [decodeGroups, decodeGroups, ih, h]

/-- For the symbols of n whole bytes the table T counts what the 8n declared bits do (42_decoder.md R171). -/
theorem emitCount_aligned_eq_bits (n g : Nat) :
    emitCount .aligned g (min 8 (ceilDiv (8 * n) 5 - 8 * g))
      = emitCount (.bits (8 * n)) g (min 8 (ceilDiv (8 * n) 5 - 8 * g)) := by
  have hgroup : ∀ r, r ≤ 5 → tableT ((8 * r + 4) / 5) = r := by decide
  have hsyms : min 8 (ceilDiv (8 * n) 5 - 8 * g) = (8 * min 5 (n - 5 * g) + 4) / 5 := by rw [ceilDiv_five]; omega
  rw [emitCount, emitCount, hsyms, hgroup _ (Nat.min_le_left _ _), bitsB, ceilDiv_eight]
  omega

theorem decodeSeq_encodeCore {alpha : Vector Byte 32} (h : alpha.toList.Nodup) (b : List Byte) :
    decodeSeq (buildTable alpha) (encodeCore alpha b (8 * b.length)) = (b, .ok) := by
  obtain ⟨out, hout, hlen, hbits⟩ := decodeCore_bits_encodeCore h b (8 * b.length)
  obtain rfl : out = b := eq_of_streamBit_eq (by rw [hlen, ceilDiv_eight]; omega) hbits
  rw [decodeSeq, encodeCore_length, decodeCore,
    decodeGroups_congr_mode _ _ _ (emitCount_aligned_eq_bits out.length)]
  exact hout

/-- Settles O41: the bits of the decoded groups are those that were encoded; in byte-aligned mode the counts of the
groups are those of the bit-count mode. -/
theorem decodeInvertsEncode : Obligations.DecodeInvertsEncode := by
  refine fun alpha b h => ⟨decodeSeq_encodeCore h b, fun bc _ => ?_⟩
  obtain ⟨out, hout, hlen, hbits⟩ := decodeCore_bits_encodeCore h b bc
  dsimp only
  rw [encodeCore_length, hout]
  exact ⟨rfl, hlen, hbits⟩

/-! ## ENC and ENC_BITS -/

section

variable {s : State} {h n nread L : Nat}

theorem encodeTo_of_not_ranges (hr : ¬ RangesOk s (srcAddr s.latch) n (dstAddr s.latch) (ceilDiv L 5)) :
    encodeTo s h n nread L = .next (afterError s .addrRange 0 0 0) := by
  rw [encodeTo, (buffersOk_eq_false_iff s _ _ _ _).2 hr]; rfl

/-- The symbols of the bytes read go to the destination (41_encoder.md R135, R136). -/
theorem encodeTo_of_holds {src : List Byte}
    (hr : RangesOk s (srcAddr s.latch) n (dstAddr s.latch) (ceilDiv L 5)) (hn : src.length = nread)
    (hh : Holds s.mem (srcAddr s.latch) src) :
    encodeTo s h n nread L = .next { afterOk s (BitVec.ofNat 32 (ceilDiv L 5)) 0 false with
      mem := writeBytes s.mem (dstAddr s.latch) (encodeCore (slotAt s h).alpha src L) } := by
  rw [encodeTo, (buffersOk_iff s _ _ _ _).2 hr, readBytes_of_holds hn hh]; rfl

theorem exec_enc_of_not_usable (hu : usable s h = false) :
    exec (.enc h) s = .next (afterError s .badHandle 0 0 0) := by
  rw [exec, execEnc, hu]; rfl

theorem exec_enc_of_usable (hu : usable s h = true) :
    exec (.enc h) s = encodeTo s h (lengthArg s.latch) (lengthArg s.latch) (8 * lengthArg s.latch) := by
  rw [exec, execEnc, hu]; rfl

theorem exec_encBits_of_not_usable (hu : usable s h = false) :
    exec (.encBits h) s = .next (afterError s .badHandle 0 0 0) := by
  rw [exec, execEncBits, hu]; rfl

theorem exec_encBits_of_negative (hu : usable s h = true) (hbc : bitCount s.latch < 0) :
    exec (.encBits h) s = .next (afterError s .invalidArg 0 0 0) := by
  rw [exec, execEncBits, hu, if_pos hbc]; rfl

theorem exec_encBits_of_too_many (hu : usable s h = true) (hbc : bitCount s.latch > 8 * (lengthArg s.latch : Int)) :
    exec (.encBits h) s = .next (afterError s .bitRange 0 0 0) := by
  rw [exec, execEncBits, hu, if_neg (show ¬ bitCount s.latch < 0 by omega), if_pos hbc]; rfl

theorem exec_encBits_of_usable (hu : usable s h = true) (h0 : 0 ≤ bitCount s.latch)
    (hbc : bitCount s.latch ≤ 8 * (lengthArg s.latch : Int)) :
    exec (.encBits h) s = encodeTo s h (lengthArg s.latch) (ceilDiv (bitCount s.latch).toNat 8)
      (bitCount s.latch).toNat := by
  rw [exec, execEncBits, hu, if_neg (Int.not_lt.2 h0), if_neg (Int.not_lt.2 hbc)]; rfl

end

/-- Settles O30: by the check of the handle and the answers of the shared encode. -/
theorem encResult : Obligations.EncResult := by
  intro s h src hlen
  rw [hlen]
  refine ⟨fun h8 => decodeEncodeRoundTrip (.enc h) (decide_eq_true h8), exec_enc_of_not_usable,
    fun hu hr => (exec_enc_of_usable hu).trans (encodeTo_of_not_ranges hr), fun hu hr hh =>
    ⟨_, (exec_enc_of_usable hu).trans (encodeTo_of_holds hr hlen hh), encodeCore_length _ _ _,
      writeBytes_storedAt _ _ _⟩⟩

/-- Settles O31: by the checks of the handle and of the bit count and the answers of the shared encode. -/
theorem encBitsResult : Obligations.EncBitsResult := by
  intro s h src
  refine ⟨fun h8 => decodeEncodeRoundTrip (.encBits h) (decide_eq_true h8), exec_encBits_of_not_usable,
    exec_encBits_of_negative, exec_encBits_of_too_many,
    fun hu h0 hbc hr => (exec_encBits_of_usable hu h0 hbc).trans (encodeTo_of_not_ranges hr),
    fun hu h0 hbc hr hlen hh =>
    ⟨_, (exec_encBits_of_usable hu h0 hbc).trans (encodeTo_of_holds hr hlen hh), encodeCore_length _ _ _,
      writeBytes_storedAt _ _ _⟩⟩

end Sys2Proof.Proofs

/-!
PROOFS. The decoder (42_decoder.md): Combine as a 40-bit number (O36), where a decode stops and with what output
(O37), how many bytes it gives (O38), DEC and DEC_BITS (O39, O40).
-/

namespace Sys2Proof.Proofs

open Sys2Proof Sys2Proof.Machine Sys2Proof.Laws

/-! ## Combine -/

/-- A byte shifted up over a value that fits below it: their bits do not meet, so that `|` adds. -/
theorem toNat_shiftLeft_or (a : Byte) {b : Byte} {i : Nat} (hi : i ≤ 8) (hb : b.toNat < 2 ^ i) :
    (a <<< i ||| b).toNat = 2 ^ i * (a.toNat % 2 ^ (8 - i)) + b.toNat := by
  rw [Nat.two_pow_add_eq_or_of_lt hb, BitVec.toNat_or, BitVec.toNat_shiftLeft, Nat.shiftLeft_eq, Nat.mul_comm,
    ← Nat.mul_mod_mul_left, ← Nat.pow_add, Nat.add_sub_cancel' hi]

theorem toNat_shiftLeft_or_ushiftRight (a b : Byte) {i k : Nat} (hi : i ≤ 8) (hb : b.toNat / 2 ^ k < 2 ^ i) :
    (a <<< i ||| b >>> k).toNat = 2 ^ i * (a.toNat % 2 ^ (8 - i)) + b.toNat / 2 ^ k := by
  rw [← Nat.shiftRight_eq_div_pow, ← BitVec.toNat_ushiftRight] at hb ⊢
  exact toNat_shiftLeft_or a hi hb

/-- The bytes of Combine in which three values meet (42_decoder.md R163). -/
theorem toNat_shiftLeft_or_shiftLeft_or_ushiftRight (a b c : Byte) {i j k : Nat} (hi : i ≤ 8) (hj : j ≤ 8)
    (hb : b.toNat < 2 ^ (8 - j)) (hc : c.toNat / 2 ^ k < 2 ^ j) (hbc : 2 ^ j * b.toNat + c.toNat / 2 ^ k < 2 ^ i) :
    (a <<< i ||| b <<< j ||| c >>> k).toNat
      = 2 ^ i * (a.toNat % 2 ^ (8 - i)) + (2 ^ j * b.toNat + c.toNat / 2 ^ k) := by
  have hlow := toNat_shiftLeft_or_ushiftRight b c hj hc
  rw [Nat.mod_eq_of_lt hb] at hlow
  rw [BitVec.or_assoc, toNat_shiftLeft_or a hi (hlow ▸ hbc), hlow]

/-- Settles O36: in each byte the values' bits lie side by side, so that the byte is a sum, which is the slice of the
40-bit number. -/
theorem combineIsFortyBitNumber : Obligations.CombineIsFortyBitNumber := by
  intro d hd
  have h0 := hd 0 (by decide)
  have h1 := hd 1 (by decide)
  have h2 := hd 2 (by decide)
  have h3 := hd 3 (by decide)
  have h4 := hd 4 (by decide)
  have h5 := hd 5 (by decide)
  have h6 := hd 6 (by decide)
  have h7 := hd 7 (by decide)
  simp only [combine, List.map_cons, List.map_nil, List.cons.injEq, and_true]
  refine ⟨?_, ?_, ?_, ?_, ?_⟩
  · rw [toNat_shiftLeft_or_ushiftRight _ _ (by decide) (by omega)]
    omega
  · rw [toNat_shiftLeft_or_shiftLeft_or_ushiftRight _ _ _ (by decide) (by decide) (by omega) (by omega) (by omega)]
    omega
  · rw [toNat_shiftLeft_or_ushiftRight _ _ (by decide) (by omega)]
    omega
  · rw [toNat_shiftLeft_or_shiftLeft_or_ushiftRight _ _ _ (by decide) (by decide) (by omega) (by omega) (by omega)]
    omega
  · rw [toNat_shiftLeft_or _ (by decide) (by omega)]
    omega

/-! ## Where a decode stops -/

/-- A group stops at its first symbol that is not in the alphabet (42_decoder.md R161). -/
theorem readGroup_corrupt {dt : Vector Byte 256} {sym : Nat → Option Byte} {n i k : Nat} {c : Byte} (hk : k < n)
    (hbefore : ∀ j, j < k → Decodable dt sym (i + j)) (hc : sym (i + k) = some c) (hbad : entryAt dt c = sentinel) :
    readGroup dt sym n i = .error (.corrupt (i + k)) := by
  induction n generalizing i k with
  | zero => exact absurd hk (Nat.not_lt_zero k)
  | succ n ih =>
    cases k with
    | zero =>
      rw [Nat.add_zero] at hc
      simp [readGroup, hc, hbad]
    | succ k =>
      obtain ⟨b, hb, hgood⟩ := hbefore 0 (Nat.succ_pos k)
      rw [Nat.add_zero] at hb
      have hrest := ih (i := i + 1) (k := k) (by omega)
        (fun j hj => by rw [Nat.add_right_comm]; exact hbefore (j + 1) (by omega)) (by rwa [Nat.add_right_comm])
      simp [readGroup, hb, hgood, hrest, Nat.add_assoc, Nat.add_comm 1]

/-- Whole groups that decode well and then the groups after them: the length of the input changes nothing for the
first (42_decoder.md R166). -/
theorem decodeGroups_add {dt : Vector Byte 256} {sym : Nat → Option Byte} {L L' : Nat} {mode : DecMode} {n g : Nat}
    (m : Nat) (hL : 8 * (g + n) ≤ L) (hL' : 8 * (g + n) ≤ L') (hok : (decodeGroups dt sym L' mode n g).2 = .ok) :
    decodeGroups dt sym L mode (n + m) g = ((decodeGroups dt sym L' mode n g).1
      ++ (decodeGroups dt sym L mode m (g + n)).1, (decodeGroups dt sym L mode m (g + n)).2) := by
  induction n generalizing g with
  | zero => rw [Nat.zero_add]; rfl
  | succ n ih =>
    rw [decodeGroups, show min 8 (L' - 8 * g) = 8 by omega] at hok
    rw [Nat.succ_add, decodeGroups, decodeGroups, show min 8 (L - 8 * g) = 8 by omega,
      show min 8 (L' - 8 * g) = 8 by omega]
    cases hr : readGroup dt sym 8 (8 * g) with
    | error e =>
      rw [hr] at hok
      obtain ⟨k, -, -, ⟨rfl, -⟩ | ⟨rfl, -⟩⟩ := readGroup_error _ _ _ _ _ hr <;> cases hok
    | ok vs =>
      rw [hr] at hok
      dsimp only
      rw [ih (g := g + 1) (by omega) (by omega) hok, List.append_assoc, Nat.add_right_comm g 1 n, Nat.add_assoc g n 1]

/-- A decode of symbols that are all in the alphabet ends well. -/
theorem decodeCore_ok {dt : Vector Byte 256} {sym : Nat → Option Byte} {L : Nat} (mode : DecMode)
    (h : ∀ k, k < L → Decodable dt sym k) : (decodeCore dt sym L mode).2 = .ok := by
  rcases decodeGroups_end dt sym L mode (ceilDiv L 8) 0 _ _ rfl with hok | ⟨i, hi, -, -, hend⟩
  · exact hok
  · obtain ⟨b, hb, hgood⟩ := h i hi
    rcases hend with ⟨-, hnone⟩ | ⟨-, c, hc, hbad⟩
    · cases hnone.symm.trans hb
    · cases hc.symm.trans hb
      exact absurd hbad hgood

/-- Settles O37: the groups before that of the symbol decode well, and its group stops at it. -/
theorem decodeStopsAtFirstCorrupt : Obligations.DecodeStopsAtFirstCorrupt := by
  intro dt sym L i c mode hi hbefore hc hbad
  have hok : (decodeCore dt sym (8 * (i / 8)) mode).2 = .ok := decodeCore_ok mode fun k hk => hbefore k (by omega)
  have hstop : readGroup dt sym (min 8 (L - 8 * (i / 8))) (8 * (i / 8)) = .error (.corrupt (8 * (i / 8) + i % 8)) :=
    readGroup_corrupt (by omega) (fun j hj => hbefore _ (by omega)) (by rwa [Nat.div_add_mod]) hbad
  have hwhole : ceilDiv (8 * (i / 8)) 8 = i / 8 := by rw [ceilDiv_eight]; omega
  have hgroups : ceilDiv L 8 = i / 8 + (ceilDiv L 8 - (i / 8 + 1) + 1) := by rw [ceilDiv_eight]; omega
  refine ⟨?_, hok⟩
  rw [decodeCore, hwhole] at hok
  rw [decodeCore, decodeCore, hwhole, hgroups, decodeGroups_add _ (by omega) (by omega) hok, Nat.zero_add,
    decodeGroups, hstop, Nat.div_add_mod, List.append_nil]

/-! ## How many bytes a decode gives -/

theorem decodeGroups_length_of_ok {dt : Vector Byte 256} {sym : Nat → Option Byte} {L : Nat} {mode : DecMode}
    {n g : Nat} (h : (decodeGroups dt sym L mode n g).2 = .ok) :
    (decodeGroups dt sym L mode n g).1.length = groupBytes L mode n g := by
  induction n generalizing g with
  | zero => rfl
  | succ n ih =>
    rw [decodeGroups] at h ⊢
    rw [groupBytes]
    cases hr : readGroup dt sym (min 8 (L - 8 * g)) (8 * g) with
    | error e =>
      rw [hr] at h
      obtain ⟨k, -, -, ⟨rfl, -⟩ | ⟨rfl, -⟩⟩ := readGroup_error _ _ _ _ _ hr <;> cases h
    | ok vs =>
      rw [hr] at h
      rw [List.length_append, List.length_take, combine_length, Nat.min_eq_left (emitCount_le _ _ _), ih h]

theorem outCount_aligned (L : Nat) :
    outCount L .aligned = 5 * (L / 8) + [0, 1, 1, 2, 2, 3, 4, 4].getD (L % 8) 0 := by
  have htable : ∀ r, r < 8 → tableT r = [0, 1, 1, 2, 2, 3, 4, 4].getD r 0 := by decide
  rw [outCount, htable _ (Nat.mod_lt _ (by decide))]

theorem outCount_bits (L bc : Nat) : outCount L (.bits bc) = min ((bc + 7) / 8) (5 * ((L + 7) / 8)) := by
  rw [← groupBytes_eq_outCount, groupBytes_bits_eq_min, ceilDiv_eight, ceilDiv_eight, Nat.mul_zero, Nat.sub_zero]

/-- Settles O38: the groups of a clean decode emit their bytes in full, and OutCount is their sum. -/
theorem outCountIsExact : Obligations.OutCountIsExact := by
  refine fun dt sym L mode => ⟨fun hclean => ?_, decodeCore_length_le dt sym L mode, ?_, ?_⟩
  · have hok := decodeCore_ok mode hclean
    exact ⟨hok, (decodeGroups_length_of_ok hok).trans (groupBytes_eq_outCount L mode)⟩
  · rw [← groupBytes_eq_outCount, Nat.mul_comm, ← ceilDiv_eight]
    exact groupBytes_le L mode _ 0
  · cases mode with
    | aligned => exact outCount_aligned L
    | bits bc => exact outCount_bits L bc

/-! ## DEC and DEC_BITS -/

/-- The symbols given suffice to decode `L` of them: all are there, or one that ends the decode is (42_decoder.md
R161). -/
def Enough (dt : Vector Byte 256) (syms : List Byte) (L : Nat) : Prop :=
  syms.length = L ∨ (syms.length < L ∧ ∃ c ∈ syms, entryAt dt c = sentinel)

/-- A decode reads no symbol beyond those that suffice. -/
theorem lt_length_of_enough {dt : Vector Byte 256} {syms : List Byte} {L k : Nat} (he : Enough dt syms L) (hk : k < L)
    (hbefore : ∀ j, j < k → Decodable dt (fun i => syms[i]?) j) : k < syms.length := by
  rcases he with rfl | ⟨-, c, hc, hbad⟩
  · exact hk
  · obtain ⟨j, hj, rfl⟩ := List.getElem_of_mem hc
    by_contra hle
    obtain ⟨b, hb, hgood⟩ := hbefore j (by omega)
    cases (List.getElem?_eq_getElem hj).symm.trans hb
    exact hgood hbad

theorem decodeCore_of_holds {m : Memory} {a : Nat} {dt : Vector Byte 256} {syms : List Byte} {L : Nat} (mode : DecMode)
    (he : Enough dt syms L) (hh : Holds m a syms) :
    decodeCore dt (fun i => readByte m (a + i)) L mode = decodeCore dt (fun i => syms[i]?) L mode := by
  refine (decodeGroups_congr_until _ _ _ _ _ _ _ fun k hk _ hbefore => ?_).symm
  have hlt := lt_length_of_enough he hk fun j hj => hbefore j (by omega) hj
  rw [hh k hlt, List.getElem?_eq_getElem hlt]

theorem decodeCore_end_of_enough {dt : Vector Byte 256} {syms : List Byte} {L : Nat} (mode : DecMode)
    (he : Enough dt syms L) : (decodeCore dt (fun i => syms[i]?) L mode).2 = .ok ∨
      ∃ i, i < syms.length ∧ (decodeCore dt (fun i => syms[i]?) L mode).2 = .corrupt i := by
  rcases decodeGroups_end dt (fun i => syms[i]?) L mode (ceilDiv L 8) 0 _ _ rfl with
    hok | ⟨i, hi, -, hbefore, hend⟩
  · exact .inl hok
  · have hlt := lt_length_of_enough he hi fun j hj => hbefore j (by omega) hj
    rcases hend with ⟨-, hnone⟩ | ⟨hcor, -⟩
    · exact absurd (List.getElem?_eq_none_iff.1 hnone) (by omega)
    · exact .inr ⟨i, hlt, hcor⟩

section

variable {s : State} {h : Nat} {mode : DecMode}

theorem decodeTo_of_not_ranges (hr : ¬ RangesOk s (srcAddr s.latch) (lengthArg s.latch) (dstAddr s.latch)
    (outCount (lengthArg s.latch) mode)) : decodeTo s h mode = .next (afterError s .addrRange 0 0 0) := by
  rw [decodeTo, (buffersOk_eq_false_iff s _ _ _ _).2 hr]; rfl

/-- The bytes of the completed groups go to the destination, whether or not a symbol is corrupt (42_decoder.md R168,
R169). -/
theorem decodeTo_of_holds {syms : List Byte} (hr : RangesOk s (srcAddr s.latch) (lengthArg s.latch) (dstAddr s.latch)
    (outCount (lengthArg s.latch) mode)) (he : Enough (slotAt s h).dt syms (lengthArg s.latch))
    (hh : Holds s.mem (srcAddr s.latch) syms) :
    let r := decodeCore (slotAt s h).dt (fun i => syms[i]?) (lengthArg s.latch) mode
    ∃ mem', StoredAt s.mem mem' (dstAddr s.latch) r.1 ∧
      (r.2 = .ok ∨ ∃ i, i < syms.length ∧ r.2 = .corrupt i) ∧
      (r.2 = .ok → decodeTo s h mode
        = .next { afterOk s (BitVec.ofNat 32 r.1.length) 0 false with mem := mem' }) ∧
      ∀ i, r.2 = .corrupt i → decodeTo s h mode
        = .next { afterError s .corruptInput i 0 r.1.length with mem := mem' } := by
  refine ⟨_, writeBytes_storedAt _ _ _, decodeCore_end_of_enough mode he, fun hok => ?_, fun i hcor => ?_⟩
  · rw [decodeTo, (buffersOk_iff s _ _ _ _).2 hr, decodeCore_of_holds mode he hh]
    dsimp only
    rw [hok]; rfl
  · rw [decodeTo, (buffersOk_iff s _ _ _ _).2 hr, decodeCore_of_holds mode he hh]
    dsimp only
    rw [hcor]; rfl

theorem exec_dec_of_not_usable (hu : usable s h = false) :
    exec (.dec h) s = .next (afterError s .badHandle 0 0 0) := by
  rw [exec, execDec, hu]; rfl

theorem exec_dec_of_usable (hu : usable s h = true) : exec (.dec h) s = decodeTo s h .aligned := by
  rw [exec, execDec, hu]; rfl

theorem exec_decBits_of_not_usable (hu : usable s h = false) :
    exec (.decBits h) s = .next (afterError s .badHandle 0 0 0) := by
  rw [exec, execDecBits, hu]; rfl

theorem exec_decBits_of_negative (hu : usable s h = true) (hbc : bitCount s.latch < 0) :
    exec (.decBits h) s = .next (afterError s .invalidArg 0 0 0) := by
  rw [exec, execDecBits, hu, if_pos hbc]; rfl

theorem exec_decBits_of_usable (hu : usable s h = true) (h0 : 0 ≤ bitCount s.latch) :
    exec (.decBits h) s = decodeTo s h (.bits (bitCount s.latch).toNat) := by
  rw [exec, execDecBits, hu, if_neg (Int.not_lt.2 h0)]; rfl

end

/-- Settles O39: by the check of the handle and the answers of the shared decode. -/
theorem decResult : Obligations.DecResult := by
  intro s h syms
  dsimp only
  rw [← outCount_aligned]
  refine ⟨fun h8 => decodeEncodeRoundTrip (.dec h) (decide_eq_true h8), exec_dec_of_not_usable,
    fun hu hr => (exec_dec_of_usable hu).trans (decodeTo_of_not_ranges hr), fun hu hr he hh => ?_⟩
  rw [exec_dec_of_usable hu]
  exact decodeTo_of_holds hr he hh

/-- Settles O40: by the checks of the handle and of the bit count and the answers of the shared decode. -/
theorem decBitsResult : Obligations.DecBitsResult := by
  intro s h syms
  refine ⟨fun h8 => decodeEncodeRoundTrip (.decBits h) (decide_eq_true h8), exec_decBits_of_not_usable,
    exec_decBits_of_negative,
    fun hu h0 hr => (exec_decBits_of_usable hu h0).trans (decodeTo_of_not_ranges hr), fun hu h0 hr he hh => ?_⟩
  rw [exec_decBits_of_usable hu h0]
  exact decodeTo_of_holds hr he hh

end Sys2Proof.Proofs

/-!
PROOFS. Everything one step of the whole block can do, whichever agent moves, and from it what a port wait and an
idle block keep (10_state.md, 43_stream_encoder.md, O9).
-/

namespace Sys2Proof.Proofs

open Sys2Proof Sys2Proof.Machine Sys2Proof.Laws

/-! ## One step of the block -/

/-- The states that differ from `s` only in what the host can change while a command runs: the operand registers,
OVR, MEM, and the model's own fields (70_reset_and_hazards.md R295 to R298). -/
inductive HostOnly (s : State) : State → Prop where
  | intro (x0 x1 x2 x3 : Word) (o : Bool) (m : Memory) (ins : List Input) (prog : List HostMove)
      (log : List HostSeen) (d : Nat) :
      HostOnly s { s with
        arg0 := x0, arg1 := x1, arg2 := x2, arg3 := x3, status := { s.status with ovr := o }, mem := m
        inputs := ins, program := prog, hostLog := log, draws := d }

/-- The next states of the block. -/
inductive StepNext (s : State) : State → Prop where
  /-- No part of the core or of a port moves: the host reads, writes an operand register or a byte of MEM, drops a
  CMD write, clears OVR or polls, or nothing happens. -/
  | hostOnly (t : State) (ht : HostOnly s t) : StepNext s t
  /-- A soft reset (70_reset_and_hazards.md R291). -/
  | softReset (ins : List Input) (prog : List HostMove) (hr : s.resets = true) :
      StepNext s (Machine.softReset { s with inputs := ins, program := prog })
  /-- A power-on reset (70_reset_and_hazards.md R290). -/
  | powerOn (ins : List Input) (hr : s.resets = true) : StepNext s (powerOnReset { s with inputs := ins })
  /-- The acceptance of an illegal word (60_exceptions.md R258). -/
  | rejected (ins : List Input) (prog : List HostMove) (w : Word) (hop : s.nextOp = some (.regWrite 32 0x00 w))
      (hb : s.status.busy = false) :
      StepNext s (raiseError (accept { s with inputs := ins, program := prog } w) .illegalCmd)
  /-- The acceptance of a command whose step is left for later (70_reset_and_hazards.md R303). -/
  | held (ins : List Input) (prog : List HostMove) (w : Word) (i : Instr)
      (hop : s.nextOp = some (.regWrite 32 0x00 w)) (hb : s.status.busy = false) (hd : decodeWord w = .ok i) :
      StepNext s { accept { s with inputs := ins, program := prog } w with cont := some (.start i) }
  /-- The acceptance of a command with the core's step (30_encoding.md R80). -/
  | accepted (ins : List Input) (prog : List HostMove) (w : Word) (i : Instr) (t : State)
      (hop : s.nextOp = some (.regWrite 32 0x00 w)) (hb : s.status.busy = false) (hd : decodeWord w = .ok i)
      (he : exec i (accept { s with inputs := ins, program := prog } w) = .next t) : StepNext s t
  /-- The core's step of a command accepted earlier. -/
  | started (ins : List Input) (i : Instr) (t : State) (hturn : s.coreTurn = true)
      (hc : s.cont = some (.start i)) (he : exec i { s with inputs := ins, cont := none } = .next t) : StepNext s t
  /-- An answer of the sink (60_exceptions.md R262). -/
  | sinkAnswer (ins : List Input) (tx : Nat) (a : SinkAnswer) (t : State) (hin : s.inputs = .sinkAnswer tx a :: ins)
      (he : sinkStep { s with inputs := ins } tx a = .next t) : StepNext s t
  /-- An answer of the source (60_exceptions.md R263). -/
  | sourceAnswer (ins : List Input) (tx : Nat) (a : SourceAnswer) (t : State)
      (hin : s.inputs = .sourceAnswer tx a :: ins)
      (he : sourceStep { s with inputs := ins } tx a = .next t) : StepNext s t

section

variable {s t : State}

/-- The host's transaction of the next step, of an input or of the program. -/
theorem stepNext_of_hostStep {held : Bool} {op : HostOp} (ins : List Input) (prog : List HostMove)
    (hop : s.nextOp = some op) (h : hostStep held op { s with inputs := ins, program := prog } = .next t) :
    StepNext s t := by
  cases hostStep_next h with
  | cmd w _ hw =>
    rcases writeCmd_cases held w { s with inputs := ins, program := prog } with
      ⟨-, he⟩ | ⟨hb, ⟨why, -, he⟩ | ⟨i, hd, -, he⟩ | ⟨i, hd, -, he⟩⟩ <;> rw [he] at hw
    · cases hw; exact .hostOnly _ (.intro ..)
    · cases hw; exact .rejected ins prog w hop hb
    · cases hw; exact .held ins prog w i hop hb hd
    · exact .accepted ins prog w i t hop hb hd hw
  | ctrl w =>
    rcases writeCtrl_cases w { s with inputs := ins, program := prog } with ⟨hw, he⟩ | ⟨-, -, he⟩ | ⟨-, -, he⟩ <;>
      rw [he]
    · exact .softReset ins prog (resets_of_nextOp hop hw)
    · exact .hostOnly _ (.intro ..)
    · exact .hostOnly _ (.intro ..)
  | read | arg | ignored | mem => exact .hostOnly _ (.intro ..)

theorem stepNext_of_coreStep (ins : List Input) (hturn : s.coreTurn = true)
    (h : coreStep { s with inputs := ins } = .next t) : StepNext s t := by
  rcases coreStep_next h with ⟨rfl, -⟩ | ⟨i, hc, he⟩
  · exact .hostOnly _ (.intro ..)
  · exact .started ins i t hturn hc he

/-- Every next state of the block is one of those of `StepNext`. -/
theorem step_stepNext (h : step s = .next t) : StepNext s t := by
  rcases step_next h with ⟨hin, h⟩ | ⟨e, rest, hin, h⟩
  · exact stepNext_of_coreStep s.inputs (by simp [State.coreTurn, hin]) h
  cases e with
  | host op | hostHeld op => exact stepNext_of_hostStep rest s.program (by simp [State.nextOp, hin]) h
  | program held =>
    rcases programStep_cases held { s with inputs := rest } with ⟨-, he⟩ | ⟨o, prog, hpr, he⟩ | ⟨prog, -, he⟩ <;>
      rw [inputStep, he] at h
    · cases h; exact .hostOnly _ (.intro ..)
    · have hprog : s.program = .op o :: prog := hpr
      exact stepNext_of_hostStep rest prog (by simp [State.nextOp, hin, hprog]) h
    · cases h; rw [waitPoll_eq]; exact .hostOnly _ (.intro ..)
  | core => exact stepNext_of_coreStep rest (by simp [State.coreTurn, hin]) h
  | sinkAnswer tx a => exact .sinkAnswer rest tx a t hin h
  | sourceAnswer tx a => exact .sourceAnswer rest tx a t hin h
  | powerOn => cases h; exact .powerOn rest (by simp [State.resets, State.powersOn, hin])

/-! ## The results between completions -/

/-- The step from `s` to `t` keeps the result registers and STATUS.ERR (10_state.md R26, R28, R29). -/
def KeepsResults (s t : State) : Prop :=
  t.res0 = s.res0 ∧ t.res1 = s.res1 ∧ t.errOffset = s.errOffset ∧ t.ioCode = s.ioCode ∧ t.status.err = s.status.err

theorem keepsResults_sencInterior {p : List Byte} {acc : Nat} (hb : (sencInterior s p acc).status.busy = true) :
    KeepsResults s (sencInterior s p acc) := by
  rcases sencInterior_cases s p acc with ⟨-, nn, -, he⟩ | ⟨-, he⟩ <;> rw [he] at hb ⊢
  · exact ⟨rfl, rfl, rfl, rfl, rfl⟩
  · cases hb

theorem keepsResults_sencTopUp {p : List Byte} (hb : (sencTopUp s p).status.busy = true) :
    KeepsResults s (sencTopUp s p) := by
  rcases sencTopUp_cases s p with ⟨-, he⟩ | ⟨-, n, buf, -, -, ⟨-, he⟩ | ⟨-, he⟩⟩ <;> rw [he] at hb ⊢
  · exact keepsResults_sencInterior hb
  · cases hb
  · exact ⟨rfl, rfl, rfl, rfl, rfl⟩

/-- A command that has not completed has written no result. -/
theorem keepsResults_exec {i : Instr} (h : exec i s = .next t) (hb : t.status.busy = true) : KeepsResults s t := by
  cases exec_next h with
  | sencWrote p => exact keepsResults_sencTopUp hb
  | sencClosing | sdecPulled => exact ⟨rfl, rfl, rfl, rfl, rfl⟩
  | decoded _ k mode out en hi hu hr hd t ht => rcases ht with ⟨-, rfl⟩ | ⟨k, -, rfl⟩ <;> cases hb
  | failed | sticky | done | loaded | encoded | sencOpened | sencClosed | sdecOpened | sdecServed => cases hb

/-- An answer of the sink after which the command still waits has written no result. -/
theorem keepsResults_sinkStep {tx : Nat} {a : SinkAnswer} (h : sinkStep s tx a = .next t)
    (hb : t.status.busy = true) : KeepsResults s t := by
  rcases sinkStep_cases s tx a with he | ⟨-, he⟩ | ⟨-, ⟨p, n, -, he⟩ | ⟨nn, p, acc, -, he⟩ | ⟨-, he⟩⟩ <;>
    rw [he] at h <;> cases h
  · exact ⟨rfl, rfl, rfl, rfl, rfl⟩
  · cases a with
    | ok => exact keepsResults_sencInterior hb
    | err c => cases hb
  · cases a with
    | ok => exact keepsResults_sencInterior hb
    | err c => cases hb
  · cases a with
    | ok => cases hb
    | err c => cases hb

/-- An answer of the source touches neither the encoder nor SINKLOG, and the pull's answer completes SDEC_READ
(44_stream_decoder.md R222). -/
theorem sourceStep_frame {tx : Nat} {a : SourceAnswer} (h : sourceStep s tx a = .next t) :
    t.senc = s.senc ∧ t.sinkLog = s.sinkLog ∧ (t = s ∨ t.status.busy = false) := by
  have hchunk (u : State) (syms : List Byte) : (decodeChunk u syms).senc = u.senc ∧
      (decodeChunk u syms).sinkLog = u.sinkLog ∧ (decodeChunk u syms).status.busy = false := by
    rcases decodeChunk_cases u syms with ⟨i, -, he⟩ | ⟨-, he⟩ <;> rw [he] <;> exact ⟨rfl, rfl, rfl⟩
  rcases sourceStep_cases s tx a with he | he | ⟨-, he⟩ | ⟨e, -, -, -, -, he⟩ <;> rw [he] at h <;> cases h
  · exact ⟨rfl, rfl, .inl rfl⟩
  · unfold afterPull
    split
    · exact ⟨rfl, rfl, .inr rfl⟩
    · obtain ⟨hs, hl, hb⟩ := hchunk { logSourceAnswer s tx a with sdec := { s.sdec with eof := true } } a.syms
      exact ⟨hs, hl, .inr hb⟩
    · obtain ⟨hs, hl, hb⟩ := hchunk (logSourceAnswer s tx a) a.syms
      exact ⟨hs, hl, .inr hb⟩

/-- A step that leaves a command running writes no result. -/
theorem keepsResults_step (h : step s = .next t) (hb : t.status.busy = true) : KeepsResults s t := by
  cases step_stepNext h with
  | hostOnly _ ht => cases ht; exact ⟨rfl, rfl, rfl, rfl, rfl⟩
  | held => exact ⟨rfl, rfl, rfl, rfl, rfl⟩
  | softReset | powerOn | rejected => cases hb
  | accepted ins prog w i _ _ _ _ he => exact (keepsResults_exec he hb :)
  | started ins i _ _ _ he => exact (keepsResults_exec he hb :)
  | sinkAnswer ins tx a _ _ he => exact (keepsResults_sinkStep he hb :)
  | sourceAnswer ins tx a _ _ he =>
    obtain ⟨-, -, rfl | hidle⟩ := sourceStep_frame he
    · exact ⟨rfl, rfl, rfl, rfl, rfl⟩
    · rw [hidle] at hb; cases hb

/-! ## The port answers -/

/-- An answer of the sink that is not the answer to the pending transaction changes nothing. -/
theorem sinkStep_of_not_pending (h : s.Inv) {tx : Nat} {a : SinkAnswer}
    (hn : ¬ (Cont.waitsSink s.cont = true ∧ tx + 1 = s.sinkLog.length)) (he : sinkStep s tx a = .next t) : t = s := by
  have hnot : s.sinkLog[tx]?.map SinkTx.reply ≠ some .pending := fun hp => by
    obtain ⟨e, hk, hpe⟩ := Option.map_eq_some_iff.1 hp
    exact hn ((h.sink_pending tx e hk).1 hpe)
  rcases sinkStep_cases s tx a with hs | ⟨-, hs⟩ | ⟨hp, -⟩
  · rw [hs] at he; cases he
  · rw [hs] at he; cases he; rfl
  · exact absurd hp hnot

/-- An answer of the source that is not the answer to the pending pull changes nothing. -/
theorem sourceStep_of_not_pending (h : s.Inv) {tx : Nat} {a : SourceAnswer}
    (hn : ¬ (Cont.waitsSource s.cont = true ∧ tx + 1 = s.srcLog.length)) (he : sourceStep s tx a = .next t) :
    t = s := by
  rcases sourceStep_cases s tx a with hs | hs | ⟨-, hs⟩ | ⟨e, hk, hp, -⟩
  · rw [hs] at he; cases he
  · rw [hs] at he; cases he
  · rw [hs] at he; cases he; rfl
  · exact absurd ((h.source_pending tx e hk).1 hp) hn

/-- A block that waits on a port, or is idle, only lets the host's side move, but for a reset, an acceptance and the
answer to its pending transaction. -/
theorem hostOnly_of_step (h : s.Inv) (hstep : step s = .next t) (hr : s.resets = false)
    (hans : s.answersPending = false) (hheld : ∀ i, s.cont ≠ some (.start i))
    (hcmd : s.status.busy = true ∨ ∀ w : Word, s.nextOp ≠ some (.regWrite 32 0x00 w)) :
    HostOnly s t := by
  have hnoAccept {w : Word} (hop : s.nextOp = some (.regWrite 32 0x00 w)) (hb : s.status.busy = false) : False := by
    rcases hcmd with hbusy | hno
    · rw [hb] at hbusy; cases hbusy
    · exact hno w hop
  cases step_stepNext hstep with
  | hostOnly _ ht => exact ht
  | softReset _ _ hr' => rw [hr] at hr'; cases hr'
  | powerOn _ hr' => rw [hr] at hr'; cases hr'
  | rejected _ _ w hop hb => exact (hnoAccept hop hb).elim
  | held _ _ w i hop hb => exact (hnoAccept hop hb).elim
  | accepted _ _ w i _ hop hb => exact (hnoAccept hop hb).elim
  | started _ i _ _ hc => exact absurd hc (hheld i)
  | sinkAnswer ins tx a _ hin he =>
    obtain rfl := sinkStep_of_not_pending (s := { s with inputs := ins }) (inv_bystander h)
      (by simpa [State.answersPending, hin] using hans) he
    exact .intro ..
  | sourceAnswer ins tx a _ hin he =>
    obtain rfl := sourceStep_of_not_pending (s := { s with inputs := ins }) (inv_bystander h)
      (by simpa [State.answersPending, hin] using hans) he
    exact .intro ..

/-- An idle block has no transaction to be answered. -/
theorem answersPending_of_idle (hc : s.cont = none) : s.answersPending = false := by
  unfold State.answersPending
  rw [hc]
  split <;> rfl

/-- A command that waits on a port runs, and is not held. -/
theorem busy_of_waits (h : s.Inv) (hw : Cont.waitsSink s.cont = true ∨ Cont.waitsSource s.cont = true) :
    s.status.busy = true ∧ ∀ i, s.cont ≠ some (.start i) := by
  rw [h.busy_iff]
  cases hc : s.cont with
  | none => rw [hc] at hw; rcases hw with hw | hw <;> cases hw
  | some c =>
    refine ⟨rfl, fun i hi => ?_⟩
    rw [hc, hi] at hw
    rcases hw with hw | hw <;> cases hw

end

/-- Settles O9: a wait and an idle block only let the host's side move; and only a completion, which ends BUSY,
writes a result. -/
theorem portWaitEndsOnlyByAnswerOrReset : Obligations.PortWaitEndsOnlyByAnswerOrReset := by
  refine ⟨fun s t h hw hstep hr hans => ?_, fun s t hstep hb => keepsResults_step hstep hb,
    fun s t h hb hstep hr hcmd => ?_⟩
  · obtain ⟨hb, hheld⟩ := busy_of_waits h hw
    cases hostOnly_of_step h hstep hr hans hheld (.inl hb)
    exact ⟨rfl, hb, rfl, rfl, rfl, rfl, rfl, rfl, rfl, rfl, rfl, rfl⟩
  · have hc := cont_of_idle h hb
    cases hostOnly_of_step h hstep hr (answersPending_of_idle hc) (by simp [hc]) (.inr hcmd)
    exact ⟨rfl, rfl, rfl, rfl, rfl, rfl⟩

end Sys2Proof.Proofs

/-!
PROOFS. The commands of the Streaming Encoder (43_stream_encoder.md): what SENC_OPEN, SENC_WRITE and SENC_CLOSE do
in each state of the stream (O42, O43, O46), a failed sink transaction and the failed stream (O44, O45), and how
many symbols a step may send (O47).
-/

namespace Sys2Proof.Proofs

open Sys2Proof Sys2Proof.Machine Sys2Proof.Laws

/-! ## The opens -/

/-- SENC_STATE of a fresh stream on slot `h` (10_state.md R32). -/
theorem sencStateWord_opened {h : Nat} (h8 : h < 8) :
    sencStateWord ⟨.opened, BitVec.ofNat 3 h, [], 0⟩ = 0x10 ||| BitVec.ofNat 32 h <<< 8 :=
  (by decide : ∀ k < 8, sencStateWord ⟨.opened, BitVec.ofNat 3 k, [], 0⟩ = 0x10 ||| BitVec.ofNat 32 k <<< 8) h h8

/-- SDEC_STATE of a fresh decoder on slot `h` (10_state.md R36). -/
theorem sdecStateWord_opened {h : Nat} (h8 : h < 8) :
    sdecStateWord ⟨true, BitVec.ofNat 3 h, [], false⟩ = 0x20000 ||| BitVec.ofNat 32 h <<< 24 :=
  (by decide : ∀ k < 8, sdecStateWord ⟨true, BitVec.ofNat 3 k, [], false⟩ = 0x20000 ||| BitVec.ofNat 32 k <<< 24) h h8

/-- Settles O42: by the check of the handle. -/
theorem streamOpenResults : Obligations.StreamOpenResults := by
  intro s h h8
  have hslot : (BitVec.ofNat 3 h).toNat = h := by rw [BitVec.toNat_ofNat, Nat.mod_eq_of_lt h8]
  refine ⟨⟨decodeEncodeRoundTrip (.sencOpen h) (decide_eq_true h8),
    decodeEncodeRoundTrip (.sdecOpen h) (decide_eq_true h8)⟩, fun hu => ⟨?_, ?_⟩, fun hu =>
    ⟨⟨⟨.opened, BitVec.ofNat 3 h, [], 0⟩, rfl, hslot, rfl, rfl, sencStateWord_opened h8, ?_⟩,
      ⟨⟨true, BitVec.ofNat 3 h, [], false⟩, rfl, hslot, rfl, rfl, sdecStateWord_opened h8, ?_⟩⟩⟩
  · rw [exec, execSencOpen, hu]; rfl
  · rw [exec, execSdecOpen, hu]; rfl
  · rw [exec, execSencOpen, hu]; rfl
  · rw [exec, execSdecOpen, hu]; rfl

/-! ## The regions of SENC_WRITE -/

section

variable {s : State} {p : List Byte}

/-- The end of SENC_WRITE: all its bytes are accepted (43_stream_encoder.md R192 (c)). -/
theorem completeCount_setFringe (s : State) (buf : List Byte) :
    completeCount (setFringe s buf) (lengthArg s.latch)
      = { afterOk s s.latch.a1 0 false with senc := { s.senc with buf := buf } } := by
  rw [completeCount_eq, lengthArg, BitVec.ofNat_toNat, BitVec.setWidth_eq]; rfl

/-- Fewer than 5 bytes become the fringe (43_stream_encoder.md R192 (c)). -/
theorem sencInterior_of_short (h5 : p.length < 5) (acc : Nat) :
    sencInterior s p acc = { afterOk s s.latch.a1 0 false with senc := { s.senc with buf := p } } := by
  rw [sencInterior, if_neg (by omega), completeCount_setFringe]

/-- The size of the next interior group of `n` bytes (43_stream_encoder.md R192 (b)). -/
def groupSize (s : State) (n : Nat) : Nat := min s.params.encStageBytes (n - n % 5)

/-- 5 bytes or more send a group (43_stream_encoder.md R192 (b)). -/
theorem sencInterior_of_long (h5 : 5 ≤ p.length) (acc : Nat) :
    sencInterior s p acc = sinkWrite s
      (encodeCore (streamAlphabet s) (p.take (groupSize s p.length)) (8 * groupSize s p.length))
      (.sencGroup (groupSize s p.length) p acc) := by
  rw [sencInterior, if_pos h5]; rfl

theorem sencTopUp_of_no_fringe (hf : s.senc.buf = []) : sencTopUp s p = sencInterior s p 0 := by
  rw [sencTopUp, hf]; rfl

/-- A write that leaves the fringe below 5 bytes completes (43_stream_encoder.md R192). -/
theorem sencTopUp_of_short (h5 : s.senc.buf.length + p.length < 5) :
    sencTopUp s p = { afterOk s s.latch.a1 0 false with senc := { s.senc with buf := s.senc.buf ++ p } } := by
  rcases sencTopUp_cases s p with ⟨hf, he⟩ | ⟨-, t, buf, ht, hbuf, h⟩
  · rw [he, sencInterior_of_short (by omega), hf, List.nil_append]
  · rw [ht, Nat.min_eq_left (by omega), List.take_length] at hbuf
    subst hbuf
    rcases h with ⟨-, he⟩ | ⟨hge, -⟩
    · rw [he, completeCount_setFringe]
    · rw [List.length_append] at hge; omega

/-- A fringe that reaches 5 bytes is sent (43_stream_encoder.md R192 (a)). -/
theorem sencTopUp_of_full (hf : s.senc.buf ≠ []) (hfr : s.senc.buf.length ≤ 4)
    (h5 : 5 ≤ s.senc.buf.length + p.length) :
    let k := 5 - s.senc.buf.length
    sencTopUp s p = sinkWrite (setFringe s (s.senc.buf ++ p.take k))
      (encodeCore (streamAlphabet s) (s.senc.buf ++ p.take k) 40) (.sencFringe (p.drop k) k) := by
  intro k
  have hlen : (s.senc.buf ++ p.take k).length = 5 := by rw [List.length_append, List.length_take]; omega
  rcases sencTopUp_cases s p with ⟨hnil, -⟩ | ⟨-, t, buf, ht, hbuf, h⟩
  · exact absurd hnil hf
  · obtain rfl : t = k := by omega
    subst hbuf
    rcases h with ⟨hlt, -⟩ | ⟨-, he⟩
    · omega
    · rw [he, List.take_of_length_le (Nat.le_of_eq hlen)]

end

/-! ## SENC_WRITE -/

section

variable {s : State}

theorem exec_sencWrite_of_no_stream (hs : s.senc.state = .idle ∨ s.senc.state = .closed) :
    exec .sencWrite s = .next (afterError s .streamState 0 0 0) := by
  rcases hs with hs | hs <;> rw [exec, execSencWrite, hs] <;> rfl

theorem exec_sencWrite_of_failed (hs : s.senc.state = .failed) :
    exec .sencWrite s = .next (afterError s .ioError 0 s.senc.err 0) := by
  rw [exec, execSencWrite, hs]; rfl

theorem exec_sencWrite_of_not_fits (hs : s.senc.state = .opened)
    (hf : ¬ Fits s (srcAddr s.latch) (lengthArg s.latch)) :
    exec .sencWrite s = .next (afterError s .addrRange 0 0 0) := by
  rw [exec, execSencWrite, hs, (inRange_eq_false_iff s _ _).2 hf]; rfl

theorem exec_sencWrite_of_holds {p : List Byte} (hs : s.senc.state = .opened) (hp : p.length = lengthArg s.latch)
    (hf : Fits s (srcAddr s.latch) (lengthArg s.latch)) (hh : Holds s.mem (srcAddr s.latch) p) :
    exec .sencWrite s = .next (sencTopUp s p) := by
  rw [exec, execSencWrite, hs, (inRange_iff s _ _).2 hf, readBytes_of_holds hp hh]; rfl

end

/-- Settles O43: by the checks, and by the regions that the first step can end in. -/
theorem sencWriteFirstStep : Obligations.SencWriteFirstStep := by
  intro s p hp hfr
  dsimp only
  rw [hp]
  refine ⟨exec_sencWrite_of_no_stream, exec_sencWrite_of_failed, exec_sencWrite_of_not_fits, fun hs hf hh => ?_⟩
  rw [exec_sencWrite_of_holds hs hp hf hh, ← hp]
  refine ⟨fun h5 => ?_, fun h5 hne =>
    ⟨.sencFringe (p.drop (5 - s.senc.buf.length)) (5 - s.senc.buf.length), ?_, rfl⟩, fun h5 hnil =>
    ⟨.sencGroup (groupSize s p.length) p 0, ?_, rfl⟩⟩
  · rw [sencTopUp_of_short h5]
  · rw [sencTopUp_of_full hne hfr h5]; rfl
  · rw [sencTopUp_of_no_fringe hnil, sencInterior_of_long h5]; rfl

/-! ## SENC_CLOSE -/

section

variable {s : State}

theorem exec_sencClose_of_idle (hs : s.senc.state = .idle) :
    exec .sencClose s = .next (afterError s .streamState 0 0 0) := by
  rw [exec, execSencClose, hs]; rfl

theorem exec_sencClose_of_closed (hs : s.senc.state = .closed) :
    exec .sencClose s = .next (afterOk s 0 0 false) := by
  rw [exec, execSencClose, hs]; rfl

theorem exec_sencClose_of_failed (hs : s.senc.state = .failed) :
    exec .sencClose s = .next (afterError s .ioError 0 s.senc.err 0) := by
  rw [exec, execSencClose, hs]; rfl

theorem exec_sencClose_of_no_fringe (hs : s.senc.state = .opened) (hb : s.senc.buf = []) :
    exec .sencClose s = .next { afterOk s 0 0 false with senc := { s.senc with state := .closed } } := by
  rw [exec, execSencClose, hs, hb]; rfl

/-- The final fringe is sent (43_stream_encoder.md R198). -/
theorem exec_sencClose_of_fringe (hs : s.senc.state = .opened) (hb : s.senc.buf ≠ []) :
    exec .sencClose s = .next (sinkWrite s
      (encodeCore (streamAlphabet s) s.senc.buf (8 * s.senc.buf.length)) .sencClose) := by
  rw [exec, execSencClose, hs]
  exact if_neg (by simpa using hb)

end

/-! ## The sink's answers -/

section

variable {s : State} {tx : Nat} (hp : s.sinkLog[tx]?.map SinkTx.reply = some .pending)

include hp

theorem sinkStep_sencFringe {p : List Byte} {t : Nat} (hc : s.cont = some (.sencFringe p t)) (a : SinkAnswer) :
    sinkStep s tx a = .next (afterFringe (logSinkAnswer s tx a) p t a) := by
  rw [sinkStep, hp, hc]

theorem sinkStep_sencGroup {nn acc : Nat} {p : List Byte} (hc : s.cont = some (.sencGroup nn p acc))
    (a : SinkAnswer) : sinkStep s tx a = .next (afterGroup (logSinkAnswer s tx a) nn p acc a) := by
  rw [sinkStep, hp, hc]

theorem sinkStep_sencClose (hc : s.cont = some .sencClose) (a : SinkAnswer) :
    sinkStep s tx a = .next (afterClose (logSinkAnswer s tx a) a) := by
  rw [sinkStep, hp, hc]

end

/-- `s` with the transaction of `syms` in SINKLOG, answered `a`. -/
def withSent (s : State) (syms : List Byte) (a : SinkAnswer) : State :=
  { s with sinkLog := s.sinkLog ++ [{ syms := syms, reply := .answered a }] }

/-- The transaction that a command has just made is pending. -/
theorem pending_sinkWrite (s : State) (syms : List Byte) (c : Cont) :
    (sinkWrite s syms c).sinkLog[s.sinkLog.length]?.map SinkTx.reply = some .pending := by
  simp

/-- The answer to the transaction that a command has just made. -/
theorem logSinkAnswer_sinkWrite (s : State) (syms : List Byte) (c : Cont) (a : SinkAnswer) :
    logSinkAnswer (sinkWrite s syms c) s.sinkLog.length a = { withSent s syms a with cont := some c } := by
  rw [logSinkAnswer, sinkWrite_sinkLog, modify_last]; rfl

/-- Settles O46: by the state of the stream, and by the answer to the transaction just made. -/
theorem sencCloseResult : Obligations.SencCloseResult := by
  refine ⟨⟨decodeEncodeRoundTrip .sencClose rfl, fun w hc hw =>
    decodeWord_error_of_handle (by rw [hc]; decide) (by rwa [hc])⟩, fun s c =>
    ⟨exec_sencClose_of_idle, exec_sencClose_of_closed, exec_sencClose_of_failed, exec_sencClose_of_no_fringe,
      fun hs hb => ⟨_, exec_sencClose_of_fringe hs hb, rfl, ?_, ?_⟩⟩⟩
  · rw [sinkStep_sencClose (pending_sinkWrite s _ _) rfl, logSinkAnswer_sinkWrite]; rfl
  · rw [sinkStep_sencClose (pending_sinkWrite s _ _) rfl, logSinkAnswer_sinkWrite]; rfl

/-! ## A failed sink transaction -/

/-- A command that waits for the sink has made the last transaction of SINKLOG, which is pending. -/
theorem sinkLog_of_waitsSink {s : State} (h : s.Inv) (hw : Cont.waitsSink s.cont = true) :
    ∃ log syms, s.sinkLog = log ++ [{ syms := syms, reply := .pending }] := by
  obtain ⟨log, ⟨syms, reply⟩, hlog⟩ : ∃ log e, s.sinkLog = log ++ [e] :=
    ⟨_, _, (List.dropLast_concat_getLast (h.sink_waits hw)).symm⟩
  have hreply := (h.sink_pending log.length ⟨syms, reply⟩ (by simp [hlog])).2 ⟨hw, by simp [hlog]⟩
  exact ⟨log, syms, by rw [hlog, ← hreply]⟩

/-- What an ERR answer to the pending transaction does (43_stream_encoder.md R197): the accepted bytes are those of
the interior groups before it (R193). -/
theorem sinkStep_err {s : State} (h : s.Inv) (c : Word) {tx : Nat}
    (hp : s.sinkLog[tx]?.map SinkTx.reply = some .pending) (hw : Cont.waitsSink s.cont = true) :
    ∃ count, sinkStep s tx (.err c) = .next (failStream (setFringe (logSinkAnswer s tx (.err c)) []) c count) ∧
      (∀ p t, s.cont = some (.sencFringe p t) → count = 0) ∧ (s.cont = some .sencClose → count = 0) ∧
      ∀ nn p acc, s.cont = some (.sencGroup nn p acc) → count + p.length = s.latch.a1.toNat := by
  cases hc : s.cont with
  | none => rw [hc] at hw; cases hw
  | some k =>
    cases k with
    | start | sdecPull => rw [hc] at hw; cases hw
    | sencFringe p t =>
      exact ⟨0, sinkStep_sencFringe hp hc _, fun _ _ _ => rfl, nofun, nofun⟩
    | sencGroup nn p acc =>
      obtain ⟨-, -, hbuf, -, -, -, -, hlen⟩ := h.cont_ok _ hc
      have hfringe : setFringe (logSinkAnswer s tx (.err c)) [] = logSinkAnswer s tx (.err c) := by
        rw [← hbuf]; rfl
      refine ⟨acc, ?_, nofun, nofun, fun _ _ _ heq => ?_⟩
      · rw [sinkStep_sencGroup hp hc, hfringe]; rfl
      · cases heq; exact hlen
    | sencClose => exact ⟨0, sinkStep_sencClose hp hc _, nofun, fun _ => rfl, nofun⟩

/-- Settles O44: the pending transaction is the last of SINKLOG, and its ERR answer fails the stream. -/
theorem sinkErrorFailsStream : Obligations.SinkErrorFailsStream := by
  intro s c h hw
  obtain ⟨log, syms, hlog⟩ := sinkLog_of_waitsSink h hw
  have hlast : s.sinkLog.length - 1 = log.length := by simp [hlog]
  rw [hlast]
  obtain ⟨count, hstep, hcount⟩ := sinkStep_err h c (tx := log.length) (by simp [hlog]) hw
  refine ⟨count, log ++ [{ syms := syms, reply := .answered (.err c) }], ?_, by simp [hlog], by simp,
    by simp [hlog], hcount⟩
  rw [hstep, logSinkAnswer, hlog, modify_last]; rfl

/-! ## The failed stream -/

section

variable {s t : State}

/-- No command but SENC_OPEN changes a failed stream (43_stream_encoder.md R197). -/
theorem exec_senc_of_failed {i : Instr} (he : exec i s = .next t) (hs : s.senc.state = .failed)
    (hi : ∀ h, i ≠ .sencOpen h) : t.senc = s.senc := by
  cases exec_next he with
  | sencOpened h => exact absurd rfl (hi h)
  | sencWrote p ho | sencClosed ho => rw [hs] at ho; cases ho
  | decoded _ k mode out en _ _ _ _ t ht => rcases ht with ⟨-, rfl⟩ | ⟨k, -, rfl⟩ <;> rfl
  | failed | sticky | done | loaded | encoded | sencClosing | sdecOpened | sdecPulled | sdecServed => rfl

/-- A failed stream has no command that waits for the sink. -/
theorem not_waitsSink_of_failed (h : s.Inv) (hs : s.senc.state = .failed) : Cont.waitsSink s.cont = false := by
  cases hc : s.cont with
  | none => rfl
  | some c =>
    cases c with
    | start | sdecPull => rfl
    | sencFringe | sencGroup | sencClose =>
      obtain ⟨-, ho, -⟩ := h.cont_ok _ hc
      rw [hs] at ho; cases ho

theorem step_senc_of_failed (h : s.Inv) (hs : s.senc.state = .failed) (hstep : step s = .next t)
    (hr : s.resets = false) (hopen : ∀ k, ¬ s.runs (.sencOpen k)) : t.senc = s.senc := by
  cases step_stepNext hstep with
  | hostOnly _ ht => cases ht; rfl
  | rejected | held => rfl
  | softReset _ _ hr' => rw [hr] at hr'; cases hr'
  | powerOn _ hr' => rw [hr] at hr'; cases hr'
  | accepted ins prog w i _ hop _ hd he =>
    exact (exec_senc_of_failed he hs fun k hi => hopen k (.inl ⟨w, hop, hi ▸ hd⟩) :)
  | started ins i _ hturn hc he =>
    exact (exec_senc_of_failed he hs fun k hi => hopen k (.inr ⟨hturn, hi ▸ hc⟩) :)
  | sinkAnswer ins tx a _ hin he =>
    rw [sinkStep_of_not_pending (s := { s with inputs := ins }) (inv_bystander h)
      (by simp [not_waitsSink_of_failed h hs]) he]
  | sourceAnswer ins tx a _ hin he =>
    obtain ⟨hsenc, -⟩ := sourceStep_frame he
    exact hsenc

end

/-- Settles O45: a failed stream answers with its error, and only SENC_OPEN and a reset leave it. -/
theorem encoderErrorIsSticky : Obligations.EncoderErrorIsSticky :=
  ⟨fun _ hs => ⟨exec_sencWrite_of_failed hs, exec_sencClose_of_failed hs⟩,
    fun _ _ h hs hstep hr hopen => step_senc_of_failed h hs hstep hr hopen⟩

/-! ## The sizes of the sink transactions -/

/-- A transaction of `size` symbols in a state whose command is then `c` is one of those of 43_stream_encoder.md
R194. -/
def LegalSize (stage : Nat) (c : Option Cont) (size : Nat) : Prop :=
  size = 8 ∨ (∃ nn, nn % 5 = 0 ∧ 5 ≤ nn ∧ nn ≤ stage ∧ size = 8 * nn / 5) ∨
    (c = some .sencClose ∧ size ∈ ([2, 4, 5, 7] : List Nat))

/-- `t` has at most one transaction more than the `n` before, and that one is of a legal size. -/
def SendsLegal (stage n : Nat) (t : State) : Prop :=
  t.sinkLog.length ≤ n + 1 ∧ ∀ e : SinkTx, t.sinkLog[n]? = some e → LegalSize stage t.cont e.syms.length

section

variable {s t : State} {n : Nat}

theorem sendsLegal_of_le (stage : Nat) (h : t.sinkLog.length ≤ n) : SendsLegal stage n t :=
  ⟨Nat.le_succ_of_le h, fun e he => by rw [List.getElem?_eq_none h] at he; cases he⟩

theorem sendsLegal_sinkWrite {stage : Nat} {syms : List Byte} {c : Cont} (hn : s.sinkLog.length = n)
    (hsize : LegalSize stage (some c) syms.length) : SendsLegal stage n (sinkWrite s syms c) := by
  subst hn
  refine ⟨by simp, fun e he => ?_⟩
  obtain rfl : { syms := syms, reply := .pending } = e := by simpa using he
  exact hsize

theorem sendsLegal_sencInterior (hp : s.params.legal = true) (hn : s.sinkLog.length = n) (p : List Byte)
    (acc : Nat) : SendsLegal s.params.encStageBytes n (sencInterior s p acc) := by
  obtain ⟨hmod, hmin, -⟩ := legal_encStage hp
  rcases sencInterior_cases s p acc with ⟨h5, nn, hnn, he⟩ | ⟨-, he⟩ <;> rw [he]
  · refine sendsLegal_sinkWrite hn (.inr (.inl ⟨nn, by omega, by omega, by omega, ?_⟩))
    rw [encodeCore_length, ceilDiv_five]
    omega
  · exact sendsLegal_of_le _ (Nat.le_of_eq hn)

theorem sendsLegal_sencTopUp (hp : s.params.legal = true) (p : List Byte) :
    SendsLegal s.params.encStageBytes s.sinkLog.length (sencTopUp s p) := by
  rcases sencTopUp_cases s p with ⟨-, he⟩ | ⟨-, k, buf, -, -, ⟨-, he⟩ | ⟨-, he⟩⟩ <;> rw [he]
  · exact sendsLegal_sencInterior hp rfl p 0
  · exact sendsLegal_of_le _ (Nat.le_refl _)
  · exact sendsLegal_sinkWrite rfl (.inl (encodeCore_length _ _ _))

/-- The final fringe of 1 to 4 bytes is sent as 2, 4, 5 or 7 symbols (43_stream_encoder.md R198). -/
theorem length_final_fringe {buf : List Byte} (hb : buf ≠ []) (hlen : buf.length ≤ 4) (alpha : Vector Byte 32) :
    (encodeCore alpha buf (8 * buf.length)).length ∈ ([2, 4, 5, 7] : List Nat) := by
  have hpos := List.length_pos_iff.2 hb
  rw [encodeCore_length, ceilDiv_five]
  simp only [List.mem_cons, List.not_mem_nil, or_false]
  omega

/-- A command makes at most one sink transaction in its first step. -/
theorem sendsLegal_exec {i : Instr} (h : Running s i) (he : exec i s = .next t) :
    SendsLegal s.params.encStageBytes s.sinkLog.length t := by
  cases exec_next he with
  | sencWrote p => exact sendsLegal_sencTopUp h.params_legal p
  | sencClosing ho hb => exact sendsLegal_sinkWrite rfl (.inr (.inr ⟨rfl, length_final_fringe hb h.fringe _⟩))
  | decoded _ k mode out en _ _ _ _ t ht =>
    rcases ht with ⟨-, rfl⟩ | ⟨k, -, rfl⟩ <;> exact sendsLegal_of_le _ (Nat.le_refl _)
  | failed | sticky | done | loaded | encoded | sencOpened | sencClosed | sdecOpened | sdecPulled | sdecServed =>
    exact sendsLegal_of_le _ (Nat.le_refl _)

/-- A command makes at most one sink transaction after an answer of the sink. -/
theorem sendsLegal_sinkStep {tx : Nat} {a : SinkAnswer} (he : sinkStep s tx a = .next t)
    (hp : s.params.legal = true) : SendsLegal s.params.encStageBytes s.sinkLog.length t := by
  have hlog : (logSinkAnswer s tx a).sinkLog.length = s.sinkLog.length := by simp
  rcases sinkStep_cases s tx a with hs | ⟨-, hs⟩ | ⟨-, ⟨p, k, -, hs⟩ | ⟨nn, p, acc, -, hs⟩ | ⟨-, hs⟩⟩ <;>
    rw [hs] at he <;> cases he
  · exact sendsLegal_of_le _ (Nat.le_refl _)
  · cases a with
    | ok => exact sendsLegal_sencInterior (s := setFringe (logSinkAnswer s tx .ok) []) hp hlog p k
    | err c => exact sendsLegal_of_le _ (Nat.le_of_eq hlog)
  · cases a with
    | ok => exact sendsLegal_sencInterior (s := logSinkAnswer s tx .ok) hp hlog _ _
    | err c => exact sendsLegal_of_le _ (Nat.le_of_eq hlog)
  · cases a with
    | ok => exact sendsLegal_of_le _ (Nat.le_of_eq hlog)
    | err c => exact sendsLegal_of_le _ (Nat.le_of_eq hlog)

end

/-- Settles O47: a transaction is made by the first step of a command or after an answer of the sink. -/
theorem sinkTransactionSizes : Obligations.SinkTransactionSizes := by
  intro s t h hstep
  change SendsLegal s.params.encStageBytes s.sinkLog.length t
  cases step_stepNext hstep with
  | hostOnly _ ht => cases ht; exact sendsLegal_of_le _ (Nat.le_refl _)
  | rejected | held => exact sendsLegal_of_le _ (Nat.le_refl _)
  | softReset => exact sendsLegal_of_le _ (by simp)
  | powerOn => exact sendsLegal_of_le _ (Nat.zero_le _)
  | accepted ins prog w i _ hop hb hd he =>
    exact (sendsLegal_exec
      (running_accept (s := { s with inputs := ins, program := prog }) (inv_bystander h) hb hd) he :)
  | started ins i _ hturn hc he =>
    exact (sendsLegal_exec (running_start (s := { s with inputs := ins }) (inv_bystander h) hc) he :)
  | sinkAnswer ins tx a _ hin he => exact (sendsLegal_sinkStep he h.params_legal :)
  | sourceAnswer ins tx a _ hin he =>
    obtain ⟨-, hlog, -⟩ := sourceStep_frame he
    exact sendsLegal_of_le _ (Nat.le_of_eq (congrArg List.length hlog))

end Sys2Proof.Proofs

/-!
PROOFS. The text that a stream sends (43_stream_encoder.md): under OK answers SENC_WRITE sends the whole 5-byte
groups of the fringe and its bytes and keeps the rest (O48), so that the writes and a close send the text of one
encode (O49).
-/

namespace Sys2Proof.Proofs

open Sys2Proof Sys2Proof.Machine Sys2Proof.Laws

/-! ## Whole groups and the rest -/

/-- The whole 5-byte groups of a byte sequence. -/
def wholeGroups (b : List Byte) : List Byte := b.take (5 * (b.length / 5))

/-- What is left of a byte sequence after its whole 5-byte groups. -/
def restBytes (b : List Byte) : List Byte := b.drop (5 * (b.length / 5))

theorem wholeGroups_append_restBytes (b : List Byte) : wholeGroups b ++ restBytes b = b := List.take_append_drop _ _

theorem length_wholeGroups (b : List Byte) : (wholeGroups b).length = 5 * (b.length / 5) := by
  rw [wholeGroups, List.length_take]; omega

theorem length_restBytes_lt (b : List Byte) : (restBytes b).length < 5 := by
  rw [restBytes, List.length_drop]; omega

theorem wholeGroups_of_short {b : List Byte} (h : b.length < 5) : wholeGroups b = [] :=
  List.length_eq_zero_iff.1 (by rw [length_wholeGroups]; omega)

theorem restBytes_of_short {b : List Byte} (h : b.length < 5) : restBytes b = b := by
  rw [restBytes, Nat.div_eq_of_lt h]; rfl

section

variable {a : List Byte} (ha : a.length % 5 = 0) (b : List Byte)

include ha

theorem groups_append_length : 5 * ((a ++ b).length / 5) = a.length + 5 * (b.length / 5) := by
  rw [List.length_append]; omega

theorem wholeGroups_append : wholeGroups (a ++ b) = a ++ wholeGroups b := by
  rw [wholeGroups, groups_append_length ha, List.take_length_add_append, wholeGroups]

theorem restBytes_append : restBytes (a ++ b) = restBytes b := by
  rw [restBytes, groups_append_length ha, List.drop_length_add_append, restBytes]

end

/-- A later write meets the rest of the earlier bytes (43_stream_encoder.md R192 (a)). -/
theorem groups_restBytes_append (b c : List Byte) :
    wholeGroups (b ++ c) = wholeGroups b ++ wholeGroups (restBytes b ++ c) ∧
    restBytes (b ++ c) = restBytes (restBytes b ++ c) := by
  have hwhole : (wholeGroups b).length % 5 = 0 := by rw [length_wholeGroups, Nat.mul_mod_right]
  have hsplit : b ++ c = wholeGroups b ++ (restBytes b ++ c) := by
    rw [← List.append_assoc, wholeGroups_append_restBytes]
  rw [hsplit, wholeGroups_append hwhole, restBytes_append hwhole]
  exact ⟨rfl, rfl⟩

/-- The text that ENC makes of a byte sequence (41_encoder.md R132, R135). -/
def encodeAll (alpha : Vector Byte 32) (b : List Byte) : List Byte := encodeCore alpha b (8 * b.length)

theorem encodeAll_append (alpha : Vector Byte 32) {a : List Byte} (b : List Byte) (ha : a.length % 5 = 0) :
    encodeAll alpha (a ++ b) = encodeAll alpha a ++ encodeAll alpha b := encodeConcatenates alpha a b ha

theorem encodeAll_wholeGroups_append (alpha : Vector Byte 32) (b c : List Byte) :
    encodeAll alpha (wholeGroups b ++ c) = encodeAll alpha (wholeGroups b) ++ encodeAll alpha c :=
  encodeAll_append alpha c (by rw [length_wholeGroups, Nat.mul_mod_right])

theorem okText_cons (syms : List Byte) (log : List SinkTx) :
    okText ({ syms := syms, reply := .answered .ok } :: log) = syms ++ okText log := rfl

theorem okText_singleton (syms : List Byte) : okText [{ syms := syms, reply := .answered .ok }] = syms :=
  List.append_nil syms

theorem okText_append (l l' : List SinkTx) : okText (l ++ l') = okText l ++ okText l' := List.flatMap_append

/-! ## The end of a write -/

/-- `u` is where a SENC_WRITE that begins in `s` ends when the sink accepts every transaction, `b` being the fringe
and the bytes of the write, after at most `n` transactions (43_stream_encoder.md R192). -/
def EndsStreaming (s : State) (n : Nat) (b : List Byte) (u : State) : Prop :=
  ∃ new, u = { afterOk s s.latch.a1 0 false with
      senc := { s.senc with buf := restBytes b }, sinkLog := s.sinkLog ++ new } ∧
    (∀ e ∈ new, e.reply = .answered .ok) ∧ new.length ≤ n ∧
    okText new = encodeAll (streamAlphabet s) (wholeGroups b)

/-- `s` with the fringe `f`, after the sink has accepted the transaction of `syms` that command `c` waited on. -/
def afterSent (s : State) (syms f : List Byte) (c : Cont) : State :=
  { setFringe (withSent s syms .ok) f with cont := some c }

section

variable {s u : State} {n : Nat}

theorem endsStreaming_mono {m : Nat} {b : List Byte} (h : EndsStreaming s n b u) (hnm : n ≤ m) :
    EndsStreaming s m b u := by
  obtain ⟨new, hu, hok, hn, htext⟩ := h
  exact ⟨new, hu, hok, Nat.le_trans hn hnm, htext⟩

/-- Fewer than 5 bytes are kept as the fringe. -/
theorem endsStreaming_of_short {b : List Byte} (h5 : b.length < 5) (n : Nat) :
    EndsStreaming s n b { afterOk s s.latch.a1 0 false with senc := { s.senc with buf := b } } := by
  refine ⟨[], ?_, nofun, Nat.zero_le n, ?_⟩
  · rw [restBytes_of_short h5, List.append_nil]; rfl
  · rw [wholeGroups_of_short h5]; rfl

/-- Whole groups sent before the rest of the write. -/
theorem endsStreaming_of_afterSent {a b f : List Byte} {c : Cont} (ha : a.length % 5 = 0)
    (h : EndsStreaming (afterSent s (encodeAll (streamAlphabet s) a) f c) n b u) :
    EndsStreaming s (n + 1) (a ++ b) u := by
  obtain ⟨new, hu, hok, hn, htext⟩ := h
  refine ⟨{ syms := encodeAll (streamAlphabet s) a, reply := .answered .ok } :: new, ?_,
    List.forall_mem_cons.2 ⟨rfl, hok⟩, Nat.succ_le_succ hn, ?_⟩
  · rw [hu, restBytes_append ha, List.append_cons]; rfl
  · rw [okText_cons, htext, wholeGroups_append ha, encodeAll_append _ _ ha]; rfl

/-- The sink accepts the transaction that a command has just made. -/
theorem sinkOk_sinkWrite {syms : List Byte} {c : Cont} {t : State}
    (hstep : sinkStep (sinkWrite s syms c) s.sinkLog.length .ok = .next t) (h : SinkOk t u) :
    SinkOk (sinkWrite s syms c) u := by
  refine .answer _ t u (by simp) ?_ h
  rwa [sinkWrite_sinkLog, List.length_append, List.length_singleton, Nat.add_sub_cancel]

/-- The accepted fringe lets the write go on with its other bytes (43_stream_encoder.md R192 (a)). -/
theorem sinkStep_fringe_ok (s : State) (f syms p : List Byte) (k : Nat) :
    sinkStep (sinkWrite (setFringe s f) syms (.sencFringe p k)) (setFringe s f).sinkLog.length .ok
      = .next (sencInterior (afterSent s syms [] (.sencFringe p k)) p k) := by
  rw [sinkStep_sencFringe (pending_sinkWrite (setFringe s f) _ _) rfl, logSinkAnswer_sinkWrite]; rfl

/-- The accepted group lets the write go on with the bytes after it (43_stream_encoder.md R192 (b)). -/
theorem sinkStep_group_ok (s : State) (syms p : List Byte) (nn acc : Nat) :
    sinkStep (sinkWrite s syms (.sencGroup nn p acc)) s.sinkLog.length .ok
      = .next (sencInterior (afterSent s syms s.senc.buf (.sencGroup nn p acc)) (p.drop nn) (acc + nn)) := by
  rw [sinkStep_sencGroup (pending_sinkWrite s _ _) rfl, logSinkAnswer_sinkWrite]; rfl

/-- A group takes one transaction off those still to come. -/
theorem ceilDiv_sub_group {w b g : Nat} (hg : g = b ∨ g = w) (h0 : 0 < g) (hgw : g ≤ w) (hgb : g ≤ b) :
    ceilDiv (w - g) b + 1 ≤ ceilDiv w b := by
  unfold ceilDiv
  rcases hg with rfl | rfl
  · rw [show w - g + g - 1 = w - 1 by omega, show w + g - 1 = w - 1 + g by omega, Nat.add_div_right _ h0]
  · rw [Nat.sub_self, Nat.div_eq_of_lt (by omega), Nat.le_div_iff_mul_le (by omega)]
    omega

/-- Regions (b) and (c) under OK answers: group after group, then the new fringe (43_stream_encoder.md R192). -/
theorem sencInterior_streams (hmin : 5 ≤ s.params.encStageBytes) (hmod : s.params.encStageBytes % 5 = 0)
    (p : List Byte) (acc : Nat) : ∃ u, SinkOk (sencInterior s p acc) u ∧
      EndsStreaming s (ceilDiv (5 * (p.length / 5)) s.params.encStageBytes) p u := by
  induction hn : p.length using Nat.strong_induction_on generalizing s p acc with
  | _ n ih =>
    subst hn
    rcases Nat.lt_or_ge p.length 5 with h5 | h5
    · rw [sencInterior_of_short h5]
      exact ⟨_, .ended _ rfl, endsStreaming_of_short h5 _⟩
    · have hsize : 5 ≤ groupSize s p.length ∧ groupSize s p.length % 5 = 0 ∧ groupSize s p.length ≤ p.length ∧
          (groupSize s p.length = s.params.encStageBytes ∨ groupSize s p.length = 5 * (p.length / 5)) ∧
          groupSize s p.length ≤ s.params.encStageBytes := by
        unfold groupSize; omega
      rw [sencInterior_of_long h5]
      generalize groupSize s p.length = g at hsize ⊢
      obtain ⟨hg5, hg0, hgp, hg, hgs⟩ := hsize
      have htake : (p.take g).length = g := List.length_take_of_le hgp
      have hdrop : (p.drop g).length = p.length - g := List.length_drop
      obtain ⟨u, hu, hends⟩ := ih (p.drop g).length (by omega)
        (s := afterSent s (encodeAll (streamAlphabet s) (p.take g)) s.senc.buf (.sencGroup g p acc)) hmin hmod
        (p.drop g) (acc + g) rfl
      have hsent := endsStreaming_of_afterSent (by rw [htake, hg0]) hends
      rw [List.take_append_drop, hdrop, show 5 * ((p.length - g) / 5) = 5 * (p.length / 5) - g by omega] at hsent
      have htext : encodeCore (streamAlphabet s) (p.take g) (8 * g) = encodeAll (streamAlphabet s) (p.take g) := by
        rw [encodeAll, htake]
      rw [htext]
      exact ⟨u, sinkOk_sinkWrite (sinkStep_group_ok s _ p g acc) hu,
        endsStreaming_mono hsent (ceilDiv_sub_group hg (by omega) (by omega) hgs)⟩

/-- SENC_WRITE under OK answers, from its first step on (43_stream_encoder.md R192). -/
theorem sencTopUp_streams (hmin : 5 ≤ s.params.encStageBytes) (hmod : s.params.encStageBytes % 5 = 0)
    (hfr : s.senc.buf.length ≤ 4) (p : List Byte) : ∃ u, SinkOk (sencTopUp s p) u ∧
      EndsStreaming s (ceilDiv p.length s.params.encStageBytes + 1) (s.senc.buf ++ p) u := by
  have hbound {k : Nat} (hk : k ≤ p.length) :
      ceilDiv (5 * (k / 5)) s.params.encStageBytes ≤ ceilDiv p.length s.params.encStageBytes :=
    Nat.div_le_div_right (by omega)
  rcases Nat.lt_or_ge (s.senc.buf.length + p.length) 5 with h5 | h5
  · rw [sencTopUp_of_short h5]
    exact ⟨_, .ended _ rfl, endsStreaming_of_short (by rwa [List.length_append]) _⟩
  by_cases hf : s.senc.buf = []
  · obtain ⟨u, hu, hends⟩ := sencInterior_streams hmin hmod p 0
    rw [sencTopUp_of_no_fringe hf, hf, List.nil_append]
    exact ⟨u, hu, endsStreaming_mono hends (Nat.le_succ_of_le (hbound (Nat.le_refl _)))⟩
  · rw [sencTopUp_of_full hf hfr h5]
    generalize hk : 5 - s.senc.buf.length = k
    have hlen : (s.senc.buf ++ p.take k).length = 5 := by rw [List.length_append, List.length_take]; omega
    have hdrop : (p.drop k).length ≤ p.length := by rw [List.length_drop]; omega
    obtain ⟨u, hu, hends⟩ := sencInterior_streams
      (s := afterSent s (encodeAll (streamAlphabet s) (s.senc.buf ++ p.take k)) [] (.sencFringe (p.drop k) k))
      hmin hmod (p.drop k) k
    have hsent := endsStreaming_of_afterSent (by rw [hlen]) hends
    rw [List.append_assoc, List.take_append_drop] at hsent
    have htext : encodeCore (streamAlphabet s) (s.senc.buf ++ p.take k) 40
        = encodeAll (streamAlphabet s) (s.senc.buf ++ p.take k) := by rw [encodeAll, hlen]
    rw [htext]
    exact ⟨u, sinkOk_sinkWrite (sinkStep_fringe_ok s _ _ _ _) hu,
      endsStreaming_mono hsent (Nat.succ_le_succ (hbound hdrop))⟩

end

/-- Settles O48: by the end of the regions of SENC_WRITE. -/
theorem sencWriteStreamsAllBytes : Obligations.SencWriteStreamsAllBytes := by
  intro s p hs hfr _ hmin hmod hp hf hh
  rw [hp] at hf
  obtain ⟨u, hu, new, hend, hok, hn, htext⟩ := sencTopUp_streams hmin hmod hfr p
  refine ⟨_, u, new, exec_sencWrite_of_holds hs hp hf hh, hu, hend, hok, by rwa [Nat.add_comm], htext.trans ?_⟩
  rw [encodeAll, length_wholeGroups]; rfl

/-! ## A stream of writes -/

/-- The state that the OK answers lead to is the only one. -/
theorem sinkOk_unique {s t u : State} (ht : SinkOk s t) (hu : SinkOk s u) : t = u := by
  induction ht with
  | ended s hc =>
    cases hu with
    | ended => rfl
    | answer _ _ _ hne => exact absurd hc hne
  | answer s s' t hne hstep _ ih =>
    cases hu with
    | ended _ hc => exact absurd hc hne
    | answer _ s'' _ _ hstep' hrest =>
      rw [hstep] at hstep'
      cases hstep'
      exact ih hrest

/-- `t` is the idle block after the bytes `b` were written to the fresh stream of `s`: their whole groups are sent
and the rest is the fringe. -/
structure Streamed (s : State) (b : List Byte) (t : State) : Prop where
  senc : t.senc = { s.senc with buf := restBytes b }
  cont : t.cont = none
  params : t.params = s.params
  slot : slotAt t s.senc.slot.toNat = slotAt s s.senc.slot.toNat
  log : ∃ new, t.sinkLog = s.sinkLog ++ new ∧ (∀ e ∈ new, e.reply = .answered .ok) ∧
    okText new = encodeAll (streamAlphabet s) (wholeGroups b)

theorem streamed_nil {s : State} (hb : s.senc.buf = []) (hc : s.cont = none) : Streamed s [] s where
  senc := by
    have hrest : restBytes [] = s.senc.buf := hb.symm
    rw [hrest]
  cont := hc
  params := rfl
  slot := rfl
  log := ⟨[], (List.append_nil _).symm, nofun, rfl⟩

section

variable {s t : State} {b : List Byte} (h : Streamed s b t)

include h

theorem streamed_sameStream {t0 : State} (hsame : SameStream t t0) : Streamed s b t0 := by
  obtain ⟨hsenc, hlog, hparams, hslot, hcont⟩ := hsame
  have hslots : t.senc.slot = s.senc.slot := by rw [h.senc]
  rw [hslots] at hslot
  exact { senc := hsenc.trans h.senc, cont := hcont, params := hparams.trans h.params, slot := hslot.trans h.slot
          log := by rw [hlog]; exact h.log }

theorem streamed_alphabet : streamAlphabet t = streamAlphabet s := by
  rw [streamAlphabet, h.senc, h.slot, streamAlphabet]

theorem streamed_buf : t.senc.buf = restBytes b := congrArg Senc.buf h.senc

theorem streamed_opened (hs : s.senc.state = .opened) : t.senc.state = .opened :=
  (congrArg Senc.state h.senc).trans hs

/-- One more write, all of whose transactions the sink accepts. -/
theorem streamed_write {c : List Byte} {n : Nat} {u : State} (hend : EndsStreaming t n (t.senc.buf ++ c) u) :
    Streamed s (b ++ c) u := by
  obtain ⟨hwhole, hrest⟩ := groups_restBytes_append b c
  obtain ⟨new, hlog, hok, htext⟩ := h.log
  obtain ⟨new', rfl, hok', -, htext'⟩ := hend
  rw [streamed_buf h, streamed_alphabet h] at htext'
  exact {
    senc := by rw [hrest, streamed_buf h, h.senc]
    cont := rfl
    params := h.params
    slot := h.slot
    log := by
      refine ⟨new ++ new', by rw [hlog, List.append_assoc], fun e he => ?_, ?_⟩
      · exact (List.mem_append.1 he).elim (hok e) (hok' e)
      · rw [okText_append, htext, htext', hwhole, encodeAll_wholeGroups_append] }

/-- The close sends the rest (43_stream_encoder.md R198). -/
theorem streamed_close (hs : s.senc.state = .opened) {t1 u : State} (hexec : exec .sencClose t = .next t1)
    (hu : SinkOk t1 u) : u.senc.state = .closed ∧ ∃ new, u.sinkLog = s.sinkLog ++ new ∧
      (∀ e ∈ new, e.reply = .answered .ok) ∧ okText new = encodeAll (streamAlphabet s) b := by
  have hopen := streamed_opened h hs
  obtain ⟨new, hlog, hok, htext⟩ := h.log
  by_cases hb : t.senc.buf = []
  · rw [exec_sencClose_of_no_fringe hopen hb] at hexec
    cases hexec
    obtain rfl := sinkOk_unique (.ended _ rfl) hu
    refine ⟨rfl, new, hlog, hok, ?_⟩
    have hwhole := wholeGroups_append_restBytes b
    rw [← streamed_buf h, hb, List.append_nil] at hwhole
    rw [htext, hwhole]
  · rw [exec_sencClose_of_fringe hopen hb] at hexec
    cases hexec
    have hstep := sinkStep_sencClose (pending_sinkWrite t
      (encodeCore (streamAlphabet t) t.senc.buf (8 * t.senc.buf.length)) .sencClose) rfl .ok
    obtain rfl := sinkOk_unique (sinkOk_sinkWrite hstep (.ended _ rfl)) hu
    refine ⟨rfl, new ++ [{ syms := encodeAll (streamAlphabet s) (restBytes b), reply := .answered .ok }], ?_,
      fun e he => ?_, ?_⟩
    · rw [logSinkAnswer_sinkWrite, ← streamed_buf h, ← streamed_alphabet h, ← List.append_assoc, ← hlog]; rfl
    · rcases List.mem_append.1 he with he | he
      · exact hok e he
      · rw [List.mem_singleton.1 he]
    · rw [okText_append, htext, okText_singleton, ← encodeAll_wholeGroups_append, wholeGroups_append_restBytes]

end

/-- The writes send the whole groups of their bytes (43_stream_encoder.md R192, R201). -/
theorem streamed_of_writesOk {s t : State} {cs : List (List Byte)} (hs : s.senc.state = .opened)
    (hb : s.senc.buf = []) (hc : s.cont = none) (hmin : 5 ≤ s.params.encStageBytes)
    (hmod : s.params.encStageBytes % 5 = 0) (h : WritesOk s cs t) : Streamed s cs.flatten t := by
  induction h with
  | none => exact streamed_nil hb hc
  | write cs c t t0 t1 t' _ hsame hlen hf hh hexec hsink ih =>
    have h0 := streamed_sameStream ih hsame
    have hfr : t0.senc.buf.length ≤ 4 := by
      rw [streamed_buf h0]; exact Nat.le_of_lt_succ (length_restBytes_lt _)
    rw [← hlen] at hf
    rw [exec_sencWrite_of_holds (streamed_opened h0 hs) hlen.symm hf hh] at hexec
    cases hexec
    obtain ⟨u, hu, hend⟩ := sencTopUp_streams (h0.params ▸ hmin) (h0.params ▸ hmod) hfr c
    rw [sinkOk_unique hsink hu, List.flatten_append, List.flatten_singleton]
    exact streamed_write h0 hend

/-- Settles O49: the writes send the whole groups and the close the rest. -/
theorem streamingEncodeEqualsEnc : Obligations.StreamingEncodeEqualsEnc := by
  intro s t t0 t1 u cs hs hb hc hmin hmod hwrites hsame hexec hsink
  have h0 := streamed_sameStream (streamed_of_writesOk hs hb hc hmin hmod hwrites) hsame
  exact streamed_close h0 hs hexec hsink

end Sys2Proof.Proofs

/-!
PROOFS. The Streaming Decoder (44_stream_decoder.md): SDEC_READ up to its completion or its pull (O50, O51), the
rest of it after the source's answer (O52), the exhausted decoder (O53), and the bytes that a stream of reads
delivers (O54).
-/

namespace Sys2Proof.Proofs

open Sys2Proof Sys2Proof.Machine Sys2Proof.Laws

/-! ## SDEC_READ -/

section

variable {s : State}

theorem exec_sdecRead_of_closed (ho : s.sdec.isOpen = false) :
    exec .sdecRead s = .next (afterError s .streamState 0 0 0) := by
  rw [exec, execSdecRead, ho]; rfl

theorem exec_sdecRead_of_not_fits (ho : s.sdec.isOpen = true)
    (hf : ¬ Fits s (dstAddr s.latch) (lengthArg s.latch)) :
    exec .sdecRead s = .next (afterError s .addrRange 0 0 0) := by
  rw [exec, execSdecRead, ho, (inRange_eq_false_iff s _ _).2 hf]; rfl

theorem exec_sdecRead_of_pull (ho : s.sdec.isOpen = true) (hf : Fits s (dstAddr s.latch) (lengthArg s.latch))
    (hn : needsPull s = true) : exec .sdecRead s = .next (sourcePull s s.params.decChunk .sdecPull) := by
  rw [exec, execSdecRead, ho, (inRange_iff s _ _).2 hf, hn]; rfl

theorem exec_sdecRead_of_no_pull (ho : s.sdec.isOpen = true) (hf : Fits s (dstAddr s.latch) (lengthArg s.latch))
    (hn : needsPull s = false) : exec .sdecRead s = .next (sdecDeliver s) := by
  rw [exec, execSdecRead, ho, (inRange_iff s _ _).2 hf, hn]; rfl

end

/-- A read of no bytes, of a buffer that holds some, or after the source's end makes no pull (44_stream_decoder.md
R223). -/
theorem needsPull_eq_false_iff (s : State) :
    needsPull s = false ↔ lengthArg s.latch = 0 ∨ s.sdec.buf ≠ [] ∨ s.sdec.eof = true := by
  rw [← Bool.not_eq_true, needsPull_iff, not_and_or, not_and_or, Nat.not_lt, Nat.le_zero, Bool.not_eq_false]

/-- Everything SDEC_READ can do in its first step (44_stream_decoder.md R222). -/
theorem exec_sdecRead_cases (s : State) :
    (∃ e, e ≠ .ok ∧ exec .sdecRead s = .next (afterError s e 0 0 0)) ∨
    (needsPull s = true ∧ exec .sdecRead s = .next (sourcePull s s.params.decChunk .sdecPull)) ∨
    (needsPull s = false ∧ exec .sdecRead s = .next (sdecDeliver s)) := by
  cases ho : s.sdec.isOpen with
  | false => exact .inl ⟨.streamState, nofun, exec_sdecRead_of_closed ho⟩
  | true =>
    by_cases hf : Fits s (dstAddr s.latch) (lengthArg s.latch)
    · cases hn : needsPull s with
      | true => exact .inr (.inl ⟨rfl, exec_sdecRead_of_pull ho hf hn⟩)
      | false => exact .inr (.inr ⟨rfl, exec_sdecRead_of_no_pull ho hf hn⟩)
    · exact .inl ⟨.addrRange, nofun, exec_sdecRead_of_not_fits ho hf⟩

/-- The buffer is empty after a delivery exactly when the read asked for all of it (44_stream_decoder.md R226). -/
theorem eofFlag_drop (d : Sdec) (n : Nat) :
    eofFlag { d with buf := d.buf.drop (min n d.buf.length) } = (d.eof && decide (d.buf.length ≤ n)) := by
  have hempty : (d.buf.drop (min n d.buf.length)).isEmpty = decide (d.buf.length ≤ n) := by
    rw [Bool.eq_iff_iff, List.isEmpty_iff, List.drop_eq_nil_iff, decide_eq_true_iff]; omega
  rw [← hempty]; rfl

/-- The delivery of SDEC_READ, field by field (44_stream_decoder.md R225, R226). -/
theorem sdecDeliver_eq (s : State) :
    let d := min (lengthArg s.latch) s.sdec.buf.length
    sdecDeliver s = { afterOk s (BitVec.ofNat 32 d) 0
        (s.sdec.eof && decide (s.sdec.buf.length ≤ lengthArg s.latch)) with
      mem := writeBytes s.mem (dstAddr s.latch) (s.sdec.buf.take d)
      sdec := { s.sdec with buf := s.sdec.buf.drop d } } := by
  intro d
  rw [← eofFlag_drop]; rfl

/-- Settles O50: by the two checks, and by the pull's condition. -/
theorem sdecReadPulls : Obligations.SdecReadPulls := by
  refine fun s => ⟨exec_sdecRead_of_closed, exec_sdecRead_of_not_fits, fun ho hf hn hb he => ?_, fun ho hf hn => ?_⟩
  · exact exec_sdecRead_of_pull ho hf ((needsPull_iff s).2 ⟨hn, hb, he⟩)
  · exact ⟨_, exec_sdecRead_of_no_pull ho hf ((needsPull_eq_false_iff s).2 hn), rfl, rfl⟩

/-- Settles O51: the read is a delivery. -/
theorem sdecReadServesBuffer : Obligations.SdecReadServesBuffer := by
  intro s ho hf hn
  refine ⟨_, writeBytes_storedAt _ _ _, ?_⟩
  rw [exec_sdecRead_of_no_pull ho hf ((needsPull_eq_false_iff s).2 hn), sdecDeliver_eq]; rfl

/-! ## The source's answers -/

section

variable {s : State}

/-- An answer of the source that is no ERR is decoded, with its EOF noted (44_stream_decoder.md R222). A pull finds
eof at 0. -/
theorem afterPull_of_read (he : s.sdec.eof = false) {a : SourceAnswer} (ha : a.st = .ok ∨ a.st = .eof) :
    afterPull s a = decodeChunk { s with sdec := { s.sdec with eof := decide (a.st = .eof) } } a.syms := by
  rcases ha with ha | ha <;> rw [afterPull, ha]
  · change _ = decodeChunk { s with sdec := { s.sdec with eof := false } } a.syms
    rw [← he]
  · rfl

/-- Everything the source's answer to a pull can do (44_stream_decoder.md R222, R228). -/
theorem afterPull_cases (he : s.sdec.eof = false) (a : SourceAnswer) :
    let r := decodeSeq (slotAt s s.sdec.slot.toNat).dt a.syms
    let d := { s.sdec with eof := decide (a.st = .eof) }
    (∃ c, a.st = .err c ∧ afterPull s a = raiseError s .ioError { code := c }) ∨
    ((a.st = .ok ∨ a.st = .eof) ∧
      ((∃ i, r.2 = .corrupt i ∧ afterPull s a = raiseError { s with sdec := d } .corruptInput { offset := i }) ∨
       (r.2 = .ok ∧ afterPull s a = sdecDeliver { s with sdec := { d with buf := r.1 } }))) := by
  intro r d
  have hread (ha : a.st = .ok ∨ a.st = .eof) :=
    afterPull_of_read he ha ▸ decodeChunk_cases { s with sdec := d } a.syms
  cases ha : a.st with
  | err c => exact .inl ⟨c, rfl, by rw [afterPull, ha]⟩
  | ok => exact .inr ⟨.inl rfl, hread (.inl ha)⟩
  | eof => exact .inr ⟨.inr rfl, hread (.inr ha)⟩

/-- The answer to the pull that SDEC_READ waits on lets the read go on (60_exceptions.md R263). -/
theorem sourceStep_sdecPull {tx : Nat} {e : SourceTx} (hk : s.srcLog[tx]? = some e) (hp : e.reply = .pending)
    (hc : s.cont = some .sdecPull) {a : SourceAnswer} (hlen : a.syms.length ≤ e.max) :
    sourceStep s tx a = .next (afterPull (logSourceAnswer s tx a) a) := by
  rw [sourceStep, hk]
  dsimp only
  rw [if_neg (Nat.not_lt.2 hlen), hp, hc]

/-- A command that waits for the source has made the last pull of SRCLOG, which is pending. -/
theorem srcLog_of_waitsSource (h : s.Inv) (hw : Cont.waitsSource s.cont = true) :
    ∃ log, s.srcLog = log ++ [{ max := s.params.decChunk, reply := .pending }] := by
  obtain ⟨log, ⟨max, reply⟩, hlog⟩ : ∃ log e, s.srcLog = log ++ [e] :=
    ⟨_, _, (List.dropLast_concat_getLast (h.source_waits hw)).symm⟩
  have hreply := (h.source_pending log.length ⟨max, reply⟩ (by simp [hlog])).2 ⟨hw, by simp [hlog]⟩
  have hmax := h.source_max ⟨max, reply⟩ (by simp [hlog])
  exact ⟨log, by rw [hlog, ← hreply, ← hmax]⟩

end

/-- Settles O52: the pending pull is the last of SRCLOG, and its answer ends the read in one of three ways. -/
theorem sourceAnswerEffect : Obligations.SourceAnswerEffect := by
  intro s a h hc hlen
  obtain ⟨-, -, -, heof, -, -⟩ := h.cont_ok _ hc
  obtain ⟨log, hlog⟩ := srcLog_of_waitsSource h (by rw [hc]; rfl)
  have hlast : s.srcLog.length - 1 = log.length := by simp [hlog]
  obtain ⟨log', hlog'⟩ : ∃ log', log' = log ++ [{ max := s.params.decChunk, reply := .answered a }] := ⟨_, rfl⟩
  have hanswered : logSourceAnswer s log.length a = { s with srcLog := log' } := by
    rw [logSourceAnswer, hlog, modify_last, hlog']
  have hmax : log'.map SourceTx.max = s.srcLog.map SourceTx.max := by simp [hlog, hlog']
  have hreply : log'.getLast?.map SourceTx.reply = some (.answered a) := by simp [hlog']
  have hbefore : log'.dropLast = s.srcLog.dropLast := by simp [hlog, hlog']
  intro r eof
  rw [hlast, sourceStep_sdecPull (e := ⟨s.params.decChunk, .pending⟩) (by simp [hlog]) rfl hc hlen, hanswered]
  rcases afterPull_cases (s := { s with srcLog := log' }) heof a with
    ⟨c, hst, he⟩ | ⟨hst, ⟨i, hr, he⟩ | ⟨hr, he⟩⟩ <;> rw [he]
  · refine ⟨_, log', rfl, rfl, hmax, hreply, hbefore, fun c' hst' => ?_, fun hst' => ?_, fun hst' => ?_⟩
    · cases hst.symm.trans hst'; rfl
    · simp [hst] at hst'
    · simp [hst] at hst'
  · refine ⟨_, log', rfl, rfl, hmax, hreply, hbefore, fun c' hst' => ?_, fun _ i' hr' => ?_, fun _ hr' => ?_⟩
    · simp [hst'] at hst
    · cases hr.symm.trans hr'; rfl
    · cases hr.symm.trans hr'
  · refine ⟨_, log', rfl, rfl, hmax, hreply, hbefore, fun c' hst' => ?_, fun _ i' hr' => ?_, fun _ _ => ?_⟩
    · simp [hst'] at hst
    · cases hr.symm.trans hr'
    · rw [sdecDeliver_eq]
      exact ⟨writeBytes_storedAt _ _ _, rfl⟩

/-! ## The exhausted decoder -/

section

variable {s t : State}

theorem sdec_sencInterior (s : State) (p : List Byte) (acc : Nat) : (sencInterior s p acc).sdec = s.sdec := by
  rcases sencInterior_cases s p acc with ⟨-, nn, -, he⟩ | ⟨-, he⟩ <;> rw [he] <;> rfl

theorem sdec_sencTopUp (s : State) (p : List Byte) : (sencTopUp s p).sdec = s.sdec := by
  rcases sencTopUp_cases s p with ⟨-, he⟩ | ⟨-, k, buf, -, -, ⟨-, he⟩ | ⟨-, he⟩⟩ <;> rw [he]
  · exact sdec_sencInterior s p 0
  · rfl
  · rfl

/-- An answer of the sink leaves the decoder alone. -/
theorem sinkStep_sdec {tx : Nat} {a : SinkAnswer} (h : sinkStep s tx a = .next t) : t.sdec = s.sdec := by
  rcases sinkStep_cases s tx a with he | ⟨-, he⟩ | ⟨-, ⟨p, k, -, he⟩ | ⟨nn, p, acc, -, he⟩ | ⟨-, he⟩⟩ <;>
    rw [he] at h <;> cases h
  · rfl
  · cases a with
    | ok => exact sdec_sencInterior _ p k
    | err c => rfl
  · cases a with
    | ok => exact sdec_sencInterior _ (p.drop nn) (acc + nn)
    | err c => rfl
  · cases a with
    | ok => rfl
    | err c => rfl

/-- A delivery of an empty buffer leaves it empty (44_stream_decoder.md R225). -/
theorem sdec_sdecDeliver_of_empty (hb : s.sdec.buf = []) : (sdecDeliver s).sdec = s.sdec := by
  rw [sdecDeliver_eq]
  dsimp only
  rw [hb, List.drop_nil, ← hb]

/-- No command but SDEC_OPEN changes a decoder with an empty buffer in its first step (44_stream_decoder.md R222):
SDEC_READ has nothing to deliver, and a pull changes the decoder only with its answer. -/
theorem exec_sdec_of_empty {i : Instr} (he : exec i s = .next t) (hb : s.sdec.buf = [])
    (hi : ∀ h, i ≠ .sdecOpen h) : t.sdec = s.sdec := by
  cases exec_next he with
  | sdecOpened h => exact absurd rfl (hi h)
  | sdecServed => exact sdec_sdecDeliver_of_empty hb
  | sencWrote p => exact sdec_sencTopUp s p
  | decoded _ k mode out en _ _ _ _ t ht => rcases ht with ⟨-, rfl⟩ | ⟨k, -, rfl⟩ <;> rfl
  | failed | sticky | done | loaded | encoded | sencOpened | sencClosed | sencClosing | sdecPulled => rfl

/-- A decoder whose source has ended has no pull to be answered. -/
theorem not_waitsSource_of_eof (h : s.Inv) (heof : s.sdec.eof = true) : Cont.waitsSource s.cont = false := by
  cases hc : s.cont with
  | none => rfl
  | some c =>
    cases c with
    | start | sencFringe | sencGroup | sencClose => rfl
    | sdecPull =>
      obtain ⟨-, -, -, hno, -⟩ := h.cont_ok _ hc
      rw [heof] at hno; cases hno

end

/-- Settles O53: a command finds the buffer empty, and with eof at 1 no pull waits for an answer. -/
theorem exhaustedStaysExhausted : Obligations.ExhaustedStaysExhausted := by
  intro s t h heof hb hstep hr hopen
  cases step_stepNext hstep with
  | hostOnly _ ht => cases ht; rfl
  | rejected | held => rfl
  | softReset _ _ hr' => rw [hr] at hr'; cases hr'
  | powerOn _ hr' => rw [hr] at hr'; cases hr'
  | accepted ins prog w i _ hop _ hd he =>
    exact (exec_sdec_of_empty he hb fun k hi => hopen k (.inl ⟨w, hop, hi ▸ hd⟩) :)
  | started ins i _ hturn hc he =>
    exact (exec_sdec_of_empty he hb fun k hi => hopen k (.inr ⟨hturn, hi ▸ hc⟩) :)
  | sinkAnswer ins tx a _ hin he => exact (sinkStep_sdec he :)
  | sourceAnswer ins tx a _ hin he =>
    rw [sourceStep_of_not_pending (s := { s with inputs := ins }) (inv_bystander h)
      (by simp [not_waitsSource_of_eof h heof]) he]

/-! ## A chunk after whole groups -/

/-- The groups of a chunk that stands `8k` symbols into the input decode as they do at its beginning. -/
theorem decodeGroups_shift {dt : Vector Byte 256} {sym sym' : Nat → Option Byte} {k : Nat} (L n g : Nat)
    (h : ∀ i, sym' (8 * k + i) = sym i) :
    (decodeGroups dt sym' (8 * k + L) .aligned n (k + g)).1 = (decodeGroups dt sym L .aligned n g).1 := by
  induction n generalizing g with
  | zero => rfl
  | succ n ih =>
    have hsize : min 8 (8 * k + L - 8 * (k + g)) = min 8 (L - 8 * g) := by omega
    have hread := readGroup_congr dt sym' sym (min 8 (L - 8 * g)) (8 * (k + g)) (8 * g)
      fun j _ => by rw [Nat.mul_add, Nat.add_assoc]; exact h _
    rw [decodeGroups, decodeGroups, hsize]
    cases hr : readGroup dt sym (min 8 (L - 8 * g)) (8 * g) with
    | ok vs =>
      rw [(hread vs).2 hr]
      exact congrArg ((combine (padGroup vs)).take (tableT (min 8 (L - 8 * g))) ++ ·) (ih (g + 1))
    | error e =>
      cases hr' : readGroup dt sym' (min 8 (L - 8 * g)) (8 * (k + g)) with
      | ok vs => cases hr.symm.trans ((hread vs).1 hr')
      | error e' => rfl

/-- Whole groups that decode well may be decoded on their own (44_stream_decoder.md R230). -/
theorem decodeSeq_append {dt : Vector Byte 256} {x : List Byte} (y : List Byte) (hx : x.length % 8 = 0)
    (hok : (decodeSeq dt x).2 = .ok) :
    (decodeSeq dt (x ++ y)).1 = (decodeSeq dt x).1 ++ (decodeSeq dt y).1 := by
  obtain ⟨k, hk⟩ : ∃ k, x.length = 8 * k := ⟨x.length / 8, by omega⟩
  have hwhole : ceilDiv x.length 8 = k := by rw [ceilDiv_eight]; omega
  have hgroups : ceilDiv (x ++ y).length 8 = k + ceilDiv y.length 8 := by
    rw [List.length_append, ceilDiv_eight, ceilDiv_eight]; omega
  have hfirst : decodeSeq dt x = decodeGroups dt (fun i => (x ++ y)[i]?) x.length .aligned k 0 := by
    rw [decodeSeq, decodeCore, hwhole]
    exact decodeGroups_congr_until _ _ _ _ _ _ _ fun i hi _ _ => (List.getElem?_append_left hi).symm
  have hrest := decodeGroups_shift (dt := dt) (sym := fun i => y[i]?) (sym' := fun i => (x ++ y)[i]?) (k := k)
    y.length (ceilDiv y.length 8) 0 fun i => by
      rw [List.getElem?_append_right (by omega), hk, Nat.add_sub_cancel_left]
  rw [hfirst] at hok ⊢
  rw [decodeSeq, decodeCore, hgroups, decodeGroups_add _ (by rw [List.length_append]; omega) (by omega) hok,
    List.length_append, hk, Nat.add_comm 0 k, hrest]
  rfl

/-- The bytes that the answers' chunks decode to, each on its own (44_stream_decoder.md R224). -/
def decodedChunks (dt : Vector Byte 256) (as : List SourceAnswer) : List Byte :=
  as.flatMap fun a => (decodeSeq dt a.syms).1

theorem decodedChunks_concat (dt : Vector Byte 256) (as : List SourceAnswer) (a : SourceAnswer) :
    decodedChunks dt (as ++ [a]) = decodedChunks dt as ++ (decodeSeq dt a.syms).1 := by
  rw [decodedChunks, List.flatMap_append, List.flatMap_singleton]; rfl

/-- The source keeps whole groups together (70_reset_and_hazards.md R300). -/
def WholeGroupsBeforeSymbols (as : List SourceAnswer) : Prop :=
  as.Pairwise fun a a' => a'.syms ≠ [] → a.syms.length % 8 = 0

/-- Chunks that decode well give what their text does (44_stream_decoder.md R230). -/
theorem decodedChunks_eq {dt : Vector Byte 256} {as : List SourceAnswer} (h8 : WholeGroupsBeforeSymbols as)
    (hok : ∀ a ∈ as, (decodeSeq dt a.syms).2 = .ok) :
    decodedChunks dt as = (decodeSeq dt (as.flatMap SourceAnswer.syms)).1 := by
  induction as with
  | nil => rfl
  | cons a as ih =>
    obtain ⟨ha, has⟩ := List.pairwise_cons.1 h8
    obtain ⟨haok, hasok⟩ := List.forall_mem_cons.1 hok
    rw [decodedChunks, List.flatMap_cons, List.flatMap_cons, ← decodedChunks, ih has hasok]
    by_cases hend : as.flatMap SourceAnswer.syms = []
    · rw [hend, List.append_nil]
      exact List.append_nil _
    · obtain ⟨a', ha', hne⟩ : ∃ a' ∈ as, a'.syms ≠ [] := by simpa using hend
      exact (decodeSeq_append _ (ha a' ha' hne) haok).symm

/-! ## A stream of reads -/

/-- `t` is a block whose decoder, the one of `s`, has decoded the answers `as` and delivered the bytes `out`; the
other decoded bytes stand in its buffer. -/
structure Delivered (s : State) (as : List SourceAnswer) (out : List Byte) (t : State) : Prop where
  slotNumber : t.sdec.slot = s.sdec.slot
  slot : slotAt t s.sdec.slot.toNat = slotAt s s.sdec.slot.toNat
  clean : ∀ a ∈ as, (decodeSeq (slotAt s s.sdec.slot.toNat).dt a.syms).2 = .ok
  bytes : out ++ t.sdec.buf = decodedChunks (slotAt s s.sdec.slot.toNat).dt as

/-- MEM holds one byte at an address. -/
theorem holds_unique {m : Memory} {a : Nat} {x y : List Byte} (hx : Holds m a x) (hy : Holds m a y)
    (hlen : x.length = y.length) : x = y :=
  List.ext_getElem hlen fun k hk hk' => Option.some.inj ((hx k hk).symm.trans (hy k hk'))

section

variable {s t : State} {as : List SourceAnswer} {out : List Byte} (h : Delivered s as out t)

include h

theorem delivered_sameDecoder {t0 : State} (hsame : SameDecoder t t0) : Delivered s as out t0 := by
  obtain ⟨hsdec, -, -, hslot, -⟩ := hsame
  rw [h.slotNumber] at hslot
  exact { slotNumber := hsdec ▸ h.slotNumber, slot := hslot.trans h.slot, clean := h.clean, bytes := hsdec ▸ h.bytes }

/-- A delivery moves bytes from the buffer's front to MEM (44_stream_decoder.md R225). -/
theorem delivered_deliver {d : List Byte} (hlen : d.length = (sdecDeliver t).res0.toNat)
    (hd : Holds (sdecDeliver t).mem (dstAddr t.latch) d) : Delivered s as (out ++ d) (sdecDeliver t) := by
  rw [sdecDeliver_eq] at hlen hd ⊢
  have hcount : d.length = min (lengthArg t.latch) t.sdec.buf.length := by
    refine hlen.trans (Nat.mod_eq_of_lt ?_)
    exact Nat.lt_of_le_of_lt (Nat.min_le_left _ _) t.latch.a1.isLt
  obtain ⟨hstored, -⟩ := writeBytes_storedAt t.mem (dstAddr t.latch)
    (t.sdec.buf.take (min (lengthArg t.latch) t.sdec.buf.length))
  obtain rfl := holds_unique hd hstored (by rw [hcount, List.length_take]; omega)
  exact {
    slotNumber := h.slotNumber
    slot := h.slot
    clean := h.clean
    bytes := by dsimp only; rw [List.append_assoc, List.take_append_drop, h.bytes] }

/-- An empty buffer takes the bytes of a chunk that decodes well (44_stream_decoder.md R224). -/
theorem delivered_refill (hb : t.sdec.buf = []) {a : SourceAnswer} {log : List SourceTx} {c : Option Cont} {eof : Bool}
    (hok : (decodeSeq (slotAt t t.sdec.slot.toNat).dt a.syms).2 = .ok) :
    Delivered s (as ++ [a]) out { t with
      srcLog := log, cont := c
      sdec := { t.sdec with eof := eof, buf := (decodeSeq (slotAt t t.sdec.slot.toNat).dt a.syms).1 } } := by
  have hbytes := h.bytes
  rw [hb, List.append_nil] at hbytes
  rw [h.slotNumber, h.slot] at hok ⊢
  exact {
    slotNumber := h.slotNumber
    slot := h.slot
    clean := List.forall_mem_append.2 ⟨h.clean, List.forall_mem_singleton.2 hok⟩
    bytes := by rw [decodedChunks_concat, hbytes] }

end

/-- A read that reports EOF has emptied the buffer (44_stream_decoder.md R226). -/
theorem buf_of_eof_sdecDeliver {s : State} (he : (sdecDeliver s).status.eof = true) : (sdecDeliver s).sdec.buf = [] := by
  rw [sdecDeliver_eq] at he ⊢
  obtain ⟨-, hle⟩ := Bool.and_eq_true_iff.1 he
  exact List.drop_eq_nil_iff.2 (by have := of_decide_eq_true hle; omega)

/-- The source's answer to the pull that SDEC_READ has just made, when the read then completes OK. -/
theorem sourceStep_sourcePull_ok {s t : State} {n : Nat} {a : SourceAnswer} (he : s.sdec.eof = false)
    (h : sourceStep (sourcePull s n .sdecPull) ((sourcePull s n .sdecPull).srcLog.length - 1) a = .next t)
    (hok : t.status.err = .ok) :
    ∃ log, (decodeSeq (slotAt s s.sdec.slot.toNat).dt a.syms).2 = .ok ∧
      t = sdecDeliver { s with
        srcLog := log, cont := some .sdecPull
        sdec := { s.sdec with
          eof := decide (a.st = .eof), buf := (decodeSeq (slotAt s s.sdec.slot.toNat).dt a.syms).1 } } := by
  rcases sourceStep_cases (sourcePull s n .sdecPull) ((sourcePull s n .sdecPull).srcLog.length - 1) a with
    hs | hs | ⟨hab, -⟩ | ⟨e, -, -, -, -, hs⟩
  · rw [hs] at h; cases h
  · rw [hs] at h; cases h
  · simp at hab
  · rw [hs] at h
    cases h
    rcases afterPull_cases (s := logSourceAnswer (sourcePull s n .sdecPull) _ a) he a with
      ⟨c, -, ha⟩ | ⟨-, ⟨i, -, ha⟩ | ⟨hr, ha⟩⟩ <;> rw [ha] at hok ⊢
    · cases hok
    · cases hok
    · exact ⟨_, hr, rfl⟩

/-- The reads deliver the decoded chunks in order, and one that reports EOF the last of their bytes
(44_stream_decoder.md R230). -/
theorem delivered_of_readsOk {s t : State} {as : List SourceAnswer} {out : List Byte} (hb : s.sdec.buf = [])
    (h : ReadsOk s as out t) : Delivered s as out t ∧ (t.status.eof = true → t.sdec.buf = []) := by
  induction h with
  | none => exact ⟨{ slotNumber := rfl, slot := rfl, clean := nofun, bytes := hb }, fun _ => hb⟩
  | served as out d t t0 t' _ hsame _ hexec hc hok hlen hd ih =>
    have h0 := delivered_sameDecoder ih.1 hsame
    rcases exec_sdecRead_cases t0 with ⟨e, hne, he⟩ | ⟨-, he⟩ | ⟨-, he⟩ <;> rw [he] at hexec <;> cases hexec
    · exact absurd hok hne
    · cases hc
    · exact ⟨delivered_deliver h0 hlen hd, buf_of_eof_sdecDeliver⟩
  | pulled as a out d t t0 t1 t' _ hsame _ hexec hc hstep hok hlen hd ih =>
    have h0 := delivered_sameDecoder ih.1 hsame
    rcases exec_sdecRead_cases t0 with ⟨e, -, he⟩ | ⟨hn, he⟩ | ⟨-, he⟩ <;> rw [he] at hexec <;> cases hexec
    · cases hc
    · obtain ⟨-, hempty, heof⟩ := (needsPull_iff t0).1 hn
      obtain ⟨log, hclean, rfl⟩ := sourceStep_sourcePull_ok heof hstep hok
      exact ⟨delivered_deliver (delivered_refill h0 hempty hclean) hlen hd, buf_of_eof_sdecDeliver⟩
    · cases hc

/-- Settles O54: at EOF the delivered bytes are the decoded chunks, and these are the decode of the whole text. -/
theorem streamingDecodeDelivers : Obligations.StreamingDecodeDelivers := by
  intro s t b out as slot _ hb _ _ hnodup hdt _ htext h8 hreads heof
  obtain ⟨hdel, hempty⟩ := delivered_of_readsOk hb hreads
  have hwhole : WholeGroupsBeforeSymbols as := List.pairwise_iff_getElem.2 fun k j hk hj hlt =>
    h8 k _ _ j (List.getElem?_eq_getElem hk) hlt (List.getElem?_eq_getElem hj)
  calc out
    _ = decodedChunks slot.dt as := by rw [← hdel.bytes, hempty heof, List.append_nil]
    _ = (decodeSeq slot.dt (as.flatMap SourceAnswer.syms)).1 := decodedChunks_eq hwhole hdel.clean
    _ = b := by rw [htext, hdt, decodeSeq_encodeCore hnodup]

end Sys2Proof.Proofs

/-!
PROOFS. How a command that does not wait on a port has ended, and that a failed check changes nothing else
(60_exceptions.md R254, O55); the step on a port's answer (R262, R263, O59).
-/

namespace Sys2Proof.Proofs

open Sys2Proof Sys2Proof.Machine Sys2Proof.Laws

/-! ## How a command ends -/

section

variable {s t : State}

theorem err_of_sencInterior_ended {p : List Byte} {acc : Nat} (hc : (sencInterior s p acc).cont = none) :
    (sencInterior s p acc).status.err = .ok := by
  rcases sencInterior_cases s p acc with ⟨-, nn, -, he⟩ | ⟨-, he⟩ <;> rw [he] at hc ⊢
  · cases hc
  · rfl

theorem err_of_sencTopUp_ended {p : List Byte} (hc : (sencTopUp s p).cont = none) :
    (sencTopUp s p).status.err = .ok := by
  rcases sencTopUp_cases s p with ⟨-, he⟩ | ⟨-, n, buf, -, -, ⟨-, he⟩ | ⟨-, he⟩⟩ <;> rw [he] at hc ⊢
  · exact err_of_sencInterior_ended hc
  · rfl
  · cases hc

/-- A command that has ended failed a check of its rule, met the sticky error of the stream, or passed its checks;
it then ends with OK, or with a corrupt symbol (60_exceptions.md R254). -/
theorem exec_ended_cases {i : Instr} (h : exec i s = .next t) (hc : t.cont = none) :
    (∃ e ∈ ([.badHandle, .streamState, .invalidArg, .bitRange, .addrRange] : List ErrCode),
      t = afterError s e 0 0 0) ∨
    (s.senc.state = .failed ∧ (i = .sencWrite ∨ i = .sencClose) ∧ t = afterError s .ioError 0 s.senc.err 0) ∨
    t.status.err = .ok ∨ t.status.err = .corruptInput := by
  cases exec_next h with
  | failed _ e he => exact .inl ⟨e, he, raiseError_eq_afterError s e _⟩
  | sticky _ hi hf => exact .inr (.inl ⟨hf, hi, raiseError_eq_afterError s _ _⟩)
  | decoded _ k mode out en hi hu hr hd t ht =>
    rcases ht with ⟨-, rfl⟩ | ⟨k, -, rfl⟩
    · exact .inr (.inr (.inl rfl))
    · exact .inr (.inr (.inr rfl))
  | sencWrote p => exact .inr (.inr (.inl (err_of_sencTopUp_ended hc)))
  | sencClosing | sdecPulled => cases hc
  | done | loaded | encoded | sencOpened | sencClosed | sdecOpened | sdecServed => exact .inr (.inr (.inl rfl))

end

/-- Settles O55: by how the command has ended, and for an illegal word by its acceptance. -/
theorem failedChecksChangeOnlyCompletion : Obligations.FailedChecksChangeOnlyCompletion := by
  obtain ⟨-, hillegal⟩ := illegalWordsOnlyComplete
  refine ⟨fun s t i h herr hc => ?_, fun s t i h herr hc => ?_, hillegal⟩
  · rcases exec_ended_cases h hc with ⟨e, -, rfl⟩ | ⟨-, -, rfl⟩ | hok | hcorrupt
    · rfl
    · simp [afterError] at herr
    · simp [hok] at herr
    · simp [hcorrupt] at herr
  · rcases exec_ended_cases h hc with ⟨e, he, rfl⟩ | hsticky | hok | hcorrupt
    · obtain rfl : e = .ioError := herr
      simp at he
    · exact hsticky
    · cases hok.symm.trans herr
    · cases hcorrupt.symm.trans herr

/-! ## The answers that resume no command -/

section

variable {s : State} {k : Nat}

/-- A late answer of the sink is discarded (70_reset_and_hazards.md R292). -/
theorem sinkStep_of_abandoned (hab : s.sinkLog[k]?.map SinkTx.reply = some .abandoned) (a : SinkAnswer) :
    sinkStep s k a = .next s := by
  rw [sinkStep, hab]

variable {e : SourceTx} (he : s.srcLog[k]? = some e) {a : SourceAnswer}

include he

/-- An answer of the source may not exceed what the pull asked for (60_exceptions.md R263). -/
theorem sourceStep_of_overlong (hlen : e.max < a.syms.length) : sourceStep s k a = .refused .sourceOverrun := by
  rw [sourceStep, he]
  exact if_pos hlen

/-- A late answer of the source is discarded (70_reset_and_hazards.md R292). -/
theorem sourceStep_of_abandoned (hlen : a.syms.length ≤ e.max) (hab : e.reply = .abandoned) :
    sourceStep s k a = .next s := by
  rw [sourceStep, he]
  dsimp only
  rw [if_neg (Nat.not_lt.2 hlen), hab]

end

/-- Settles O59: the step hands the answer to its port, which finds what became of the transaction in the log. -/
theorem lateAndOverlongAnswers : Obligations.LateAndOverlongAnswers := by
  intro s rest k a b
  rw [step_cons s (.sinkAnswer k a) rest, step_cons s (.sourceAnswer k b) rest]
  refine ⟨rfl, rfl, fun hab => ?_, fun e he hlen => ?_, fun e he hlen hab => ?_⟩
  · exact sinkStep_of_abandoned (s := { s with inputs := rest }) hab a
  · exact sourceStep_of_overlong (s := { s with inputs := rest }) he hlen
  · exact sourceStep_of_abandoned (s := { s with inputs := rest }) he hlen hab

end Sys2Proof.Proofs

/-!
PROOFS. Resets and hazards (70_reset_and_hazards.md): the power-on state (O10, O11), and what a dropped CMD write
(O8), an unwritten byte (O21) and a race for the ranges of a running command (O23) do. The two facts about every
step, that OVR and the written bytes stay, take the step apart by the agent that moves.
-/

namespace Sys2Proof.Proofs

open Sys2Proof Sys2Proof.Machine Sys2Proof.Laws

/-! ## Power-on reset -/

/-- The next input is the power-on reset, and the step performs it (R290). -/
theorem step_of_powersOn {s : State} (hp : s.powersOn = true) :
    ∃ rest, step s = .next (powerOnReset { s with inputs := rest }) := by
  obtain ⟨rest, hin⟩ := List.head?_eq_some_iff.1 (of_decide_eq_true hp)
  exact ⟨rest, by rw [step, hin]; rfl⟩

/-- A register shows nothing of the fields that a power-on reset leaves (log entry 15). -/
theorem regValue_powerOnReset (s : State) (offset : Nat) :
    regValue (powerOnReset s) offset = regValue (State.powerOn s.params) offset := rfl

/-- STATUS and the two mirrors of the streams are 0 after power-on. -/
theorem regValue_flags_powerOn (p : Params) : regValue (State.powerOn p) 0x04 = 0 ∧
    regValue (State.powerOn p) 0x34 = 0 ∧ regValue (State.powerOn p) 0x38 = 0 := by
  have hstatus : statusWord { busy := false, done := false, eof := false, ovr := false, err := .ok } = 0 := by decide
  have hsenc : sencStateWord { state := .idle, slot := 0, buf := [], err := 0 } = 0 := by decide
  have hsdec : sdecStateWord { isOpen := false, slot := 0, buf := [], eof := false } = 0 := by decide
  exact ⟨hstatus, hsenc, hsdec⟩

/-- After power-on no loadable slot is valid (10_state.md R42). -/
theorem not_valid_powerOn (p : Params) {i : Nat} (hi : 2 ≤ i) : (slotAt (State.powerOn p) i).valid = false := by
  rcases slot_powerOn_cases p i with ⟨h2, -⟩ | ⟨-, he⟩
  · omega
  · rw [he]; rfl

/-- Settles O10: the fields are those of the power-on state, and the registers that show more than one field have
their words from the statements about them. -/
theorem powerOnValues : Obligations.PowerOnValues := by
  refine ⟨⟨rfl, rfl, rfl⟩, fun p s rest hp hs => ⟨powerOnReset { s with inputs := rest }, rfl, hs, ?_⟩⟩
  subst hs
  have hslot (i : Nat) : slotAt (powerOnReset { s with inputs := rest }) i = slotAt (State.powerOn s.params) i :=
    slotAt_congr rfl rfl i
  obtain ⟨hstatus, hsenc, hsdec⟩ := regValue_flags_powerOn s.params
  obtain ⟨-, hregs⟩ := constantRegisters
  obtain ⟨hid, hmem, hchunk, hstage, hslots⟩ := hregs (State.powerOn s.params) hp
  obtain ⟨-, hvalid⟩ := slotValidMirrorsValidBits
  simp only [regValue_powerOnReset, hslot, slotAt_zero, slotAt_one]
  exact ⟨rfl, hstatus, rfl, rfl, rfl, rfl, rfl, rfl, rfl, rfl, rfl, hid, hvalid s.params hp, hsenc, hsdec, hmem, hchunk,
    hstage, hslots, rfl, rfl, romSlot_dt _, romSlot_dt _, rfl, rfl, rfl, rfl,
    fun i hi => not_valid_powerOn s.params hi, rfl, rfl, readByte_nil, rfl, rfl⟩

/-- Settles O11: the defaults are a legal choice of the parameters. -/
theorem powerOnHasInvariant : Obligations.PowerOnHasInvariant :=
  ⟨fun _ hp => inv_powerOn hp, inv_powerOn (by decide)⟩

/-! ## The agent that moves -/

/-- The next states of the block, by the agent that moves (00_scope.md R5, R6). -/
inductive AgentNext (s : State) : State → Prop where
  /-- The host makes a bus transaction, of an input or of its program. -/
  | bus (held : Bool) (op : HostOp) (ins : List Input) (prog : List HostMove) (t : State) (hop : s.nextOp = some op)
      (h : hostStep held op { s with inputs := ins, program := prog } = .next t) : AgentNext s t
  /-- The host's program has ended, or polls (30_encoding.md R92). -/
  | polled (ins : List Input) (prog : List HostMove) (log : List HostSeen) :
      AgentNext s { s with inputs := ins, program := prog, hostLog := log }
  /-- The core takes its turn. -/
  | core (ins : List Input) (t : State) (h : coreStep { s with inputs := ins } = .next t) : AgentNext s t
  /-- The sink answers. -/
  | sink (ins : List Input) (tx : Nat) (a : SinkAnswer) (t : State)
      (h : sinkStep { s with inputs := ins } tx a = .next t) : AgentNext s t
  /-- The source answers. -/
  | source (ins : List Input) (tx : Nat) (a : SourceAnswer) (t : State)
      (h : sourceStep { s with inputs := ins } tx a = .next t) : AgentNext s t
  /-- Power-on reset, from outside. -/
  | powerOn (ins : List Input) (hp : s.powersOn = true) : AgentNext s (powerOnReset { s with inputs := ins })

/-- Every next state of the block is one of those of `AgentNext`. -/
theorem step_agentNext {s t : State} (h : step s = .next t) : AgentNext s t := by
  rcases step_next h with ⟨-, h⟩ | ⟨e, rest, hin, h⟩
  · exact .core s.inputs t h
  cases e with
  | host op => exact .bus false op rest s.program t (by rw [State.nextOp, hin]) h
  | hostHeld op => exact .bus true op rest s.program t (by rw [State.nextOp, hin]) h
  | program held =>
    rcases programStep_cases held { s with inputs := rest } with ⟨-, he⟩ | ⟨op, prog, hpr, he⟩ | ⟨prog, -, he⟩ <;>
      rw [inputStep, he] at h
    · cases h; exact .polled rest s.program s.hostLog
    · have hprog : s.program = .op op :: prog := hpr
      exact .bus held op rest prog t (by rw [State.nextOp, hin, hprog]) h
    · cases h; rw [waitPoll_eq]; exact .polled rest _ _
  | core => exact .core rest t h
  | sinkAnswer tx a => exact .sink rest tx a t h
  | sourceAnswer tx a => exact .source rest tx a t h
  | powerOn => cases h; exact .powerOn rest (by simp [State.powersOn, hin])

/-! ## OVR -/

section

variable {s t : State}

theorem ovr_exec {i : Instr} (h : exec i s = .next t) : t.status.ovr = s.status.ovr := by
  rcases hostSide_exec h with hs | ⟨k, sym, -, rfl⟩
  · exact congrArg HostSide.ovr hs
  · rfl

/-- A write of CMD sets OVR or leaves it (R295, 10_state.md R23). -/
theorem ovr_writeCmd {held : Bool} {w : Word} (h : writeCmd held w s = .next t) (ho : s.status.ovr = true) :
    t.status.ovr = true := by
  rcases writeCmd_cases held w s with ⟨-, he⟩ | ⟨-, ⟨why, -, he⟩ | ⟨i, -, -, he⟩ | ⟨i, -, -, he⟩⟩ <;> rw [he] at h
  · cases h; rfl
  · cases h; exact ho
  · cases h; exact ho
  · exact (ovr_exec h).trans ho

/-- Of the host's transactions only a write of CTRL clears OVR, with CLR_OVR or SRST (10_state.md R30). -/
theorem ovr_hostStep {held : Bool} {op : HostOp} (h : hostStep held op s = .next t) (ho : s.status.ovr = true) :
    t.status.ovr = true ∨ ∃ w : Word, op = .regWrite 32 0x28 w ∧ (w.getLsbD 0 = true ∨ w.getLsbD 1 = true) := by
  cases hostStep_next h with
  | cmd w _ hw => exact .inl (ovr_writeCmd hw ho)
  | ctrl w =>
    rcases writeCtrl_cases w s with ⟨h0, -⟩ | ⟨-, h1, -⟩ | ⟨-, -, he⟩
    · exact .inr ⟨w, rfl, .inl h0⟩
    · exact .inr ⟨w, rfl, .inr h1⟩
    · rw [he]; exact .inl ho
  | read | arg | ignored | mem => exact .inl ho

/-- OVR stays 1 until CLR_OVR or a reset (R295). -/
theorem ovr_step (h : step s = .next t) (ho : s.status.ovr = true) (hr : s.resets = false)
    (hclr : ∀ w : Word, s.nextOp = some (.regWrite 32 0x28 w) → w.getLsbD 1 = false) : t.status.ovr = true := by
  cases step_agentNext h with
  | bus held op ins prog _ hop hb =>
    rcases ovr_hostStep hb ho with ht | ⟨w, rfl, h0 | h1⟩
    · exact ht
    · cases hr.symm.trans (resets_of_nextOp hop h0)
    · cases (hclr w hop).symm.trans h1
  | polled => exact ho
  | core ins _ hc =>
    rcases coreStep_next hc with ⟨rfl, -⟩ | ⟨i, -, he⟩
    · exact ho
    · exact (ovr_exec he).trans ho
  | sink ins tx a _ ha => exact (congrArg HostSide.ovr (hostSide_sinkStep ha)).trans ho
  | source ins tx a _ ha => exact (congrArg HostSide.ovr (hostSide_sourceStep ha)).trans ho
  | powerOn ins hp => simp [State.resets, hp] at hr

/-- A write of CMD while BUSY is dropped (R295). -/
theorem writeCmd_of_busy (hb : s.status.busy = true) (held : Bool) (w : Word) :
    writeCmd held w s = .next { s with status := { s.status with ovr := true } } := if_pos hb

end

/-- Settles O8: the write of a busy block is dropped, and no step but the named ones clears OVR. -/
theorem droppedCmdSetsOvr : Obligations.DroppedCmdSetsOvr := by
  refine ⟨fun s held rest w hb => ?_, fun s t ho h hr hclr => ovr_step h ho hr hclr⟩
  rw [step_regWrite s held rest w rfl (by decide)]
  exact writeCmd_of_busy (s := { s with inputs := rest }) hb held w

/-! ## Written bytes -/

section

variable {s t : State}

/-- MEM of `t` is that of `s` after MemWrite of some bytes, perhaps none (20_memory.md R63). -/
def StoresBytes (s t : State) : Prop := ∃ a bs, t.mem = writeBytes s.mem a bs

theorem storesBytes_of_mem_eq (h : t.mem = s.mem) : StoresBytes s t := ⟨0, [], h⟩

theorem mem_sencInterior (s : State) (p : List Byte) (acc : Nat) : (sencInterior s p acc).mem = s.mem := by
  rcases sencInterior_cases s p acc with ⟨-, nn, -, he⟩ | ⟨-, he⟩ <;> rw [he]
  · rfl
  · rfl

theorem mem_sencTopUp (s : State) (p : List Byte) : (sencTopUp s p).mem = s.mem := by
  rcases sencTopUp_cases s p with ⟨-, he⟩ | ⟨-, n, buf, -, -, ⟨-, he⟩ | ⟨-, he⟩⟩ <;> rw [he]
  · exact mem_sencInterior s p 0
  · rfl
  · rfl

/-- A command changes MEM by the store of its results alone. -/
theorem storesBytes_exec {i : Instr} (h : exec i s = .next t) : StoresBytes s t := by
  cases exec_next h with
  | encoded | sdecServed => exact ⟨_, _, rfl⟩
  | decoded _ k mode out en hi hu hr hd _ ht =>
    rcases ht with ⟨-, rfl⟩ | ⟨k, -, rfl⟩
    · exact ⟨_, out, rfl⟩
    · exact ⟨_, out, rfl⟩
  | sencWrote p => exact storesBytes_of_mem_eq (mem_sencTopUp s p)
  | failed | sticky | done | loaded | sencOpened | sencClosed | sencClosing | sdecOpened | sdecPulled =>
    exact storesBytes_of_mem_eq rfl

theorem storesBytes_writeCmd {held : Bool} {w : Word} (h : writeCmd held w s = .next t) : StoresBytes s t := by
  rcases writeCmd_cases held w s with ⟨-, he⟩ | ⟨-, ⟨why, -, he⟩ | ⟨i, -, -, he⟩ | ⟨i, -, -, he⟩⟩ <;> rw [he] at h
  · cases h; exact storesBytes_of_mem_eq rfl
  · cases h; exact storesBytes_of_mem_eq rfl
  · cases h; exact storesBytes_of_mem_eq rfl
  · exact storesBytes_exec (s := accept s w) h

/-- No write of CTRL changes MEM, a soft reset neither (R291). -/
theorem mem_writeCtrl (w : Word) (s : State) : (writeCtrl w s).mem = s.mem := by
  rcases writeCtrl_cases w s with ⟨-, he⟩ | ⟨-, -, he⟩ | ⟨-, -, he⟩ <;> rw [he]
  exact softReset_mem s

theorem storesBytes_hostStep {held : Bool} {op : HostOp} (h : hostStep held op s = .next t) : StoresBytes s t := by
  cases hostStep_next h with
  | cmd w _ hw => exact storesBytes_writeCmd hw
  | ctrl w => exact storesBytes_of_mem_eq (mem_writeCtrl w s)
  | mem a b => exact ⟨a, [b], rfl⟩
  | read | arg | ignored => exact storesBytes_of_mem_eq rfl

/-- The Streaming Encoder stores no byte (43_stream_encoder.md R192, R198). -/
theorem mem_sinkStep {tx : Nat} {a : SinkAnswer} (h : sinkStep s tx a = .next t) : t.mem = s.mem := by
  rcases sinkStep_cases s tx a with he | ⟨-, he⟩ | ⟨-, ⟨p, n, -, he⟩ | ⟨nn, p, acc, -, he⟩ | ⟨-, he⟩⟩ <;>
    rw [he] at h <;> cases h
  · rfl
  · cases a with
    | ok => exact mem_sencInterior _ p n
    | err c => rfl
  · cases a with
    | ok => exact mem_sencInterior _ (p.drop nn) (acc + nn)
    | err c => rfl
  · cases a with
    | ok => rfl
    | err c => rfl

theorem storesBytes_decodeChunk (s : State) (syms : List Byte) : StoresBytes s (decodeChunk s syms) := by
  rcases decodeChunk_cases s syms with ⟨i, -, he⟩ | ⟨-, he⟩ <;> rw [he]
  · exact storesBytes_of_mem_eq rfl
  · exact ⟨_, _, rfl⟩

/-- SDEC_READ delivers the bytes of its pull (44_stream_decoder.md R222). -/
theorem storesBytes_sourceStep {tx : Nat} {a : SourceAnswer} (h : sourceStep s tx a = .next t) : StoresBytes s t := by
  rcases sourceStep_cases s tx a with he | he | ⟨-, he⟩ | ⟨e, -, -, -, -, he⟩ <;> rw [he] at h <;> cases h
  · exact storesBytes_of_mem_eq rfl
  · unfold afterPull
    split
    · exact storesBytes_of_mem_eq rfl
    · exact storesBytes_decodeChunk { logSourceAnswer s tx a with sdec := { s.sdec with eof := true } } a.syms
    · exact storesBytes_decodeChunk (logSourceAnswer s tx a) a.syms

/-- Every step but a power-on reset changes MEM by stores alone (R293). -/
theorem storesBytes_step (h : step s = .next t) (hp : s.powersOn = false) : StoresBytes s t := by
  cases step_agentNext h with
  | bus held op ins prog _ _ hb => exact storesBytes_hostStep (s := { s with inputs := ins, program := prog }) hb
  | polled => exact storesBytes_of_mem_eq rfl
  | core ins _ hc =>
    rcases coreStep_next hc with ⟨rfl, -⟩ | ⟨i, -, he⟩
    · exact storesBytes_of_mem_eq rfl
    · exact storesBytes_exec (s := { s with inputs := ins, cont := none }) he
  | sink ins tx a _ ha => exact storesBytes_of_mem_eq (mem_sinkStep (s := { s with inputs := ins }) ha)
  | source ins tx a _ ha => exact storesBytes_sourceStep (s := { s with inputs := ins }) ha
  | powerOn ins hp' => cases hp.symm.trans hp'

/-- A host read of an unwritten byte faults where no access races (R293). -/
theorem step_memRead_unwritten (s : State) (held : Bool) (rest : List Input) {a : Nat} (ha : a < s.params.memBytes)
    (hr : races s a = false) (hn : readByte s.mem a = none) :
    step { s with inputs := hostInput held (.memRead a) :: rest } = .fault (.unwrittenMem a) := by
  have hr' : races { s with inputs := rest } a = false := hr
  rw [step_hostInput, hostStep, if_pos ha, hostReadMem, hr', hn]; rfl

end

/-- Settles O21: stores keep the written bytes, and power-on leaves none. -/
theorem writtenBytesStayWritten : Obligations.WrittenBytesStayWritten := by
  refine ⟨fun s held rest a hr ha hn => step_memRead_unwritten s held rest ha hr hn,
    fun s t a h => ⟨fun hp hw => ?_, fun hp => ?_⟩, fun s a hb => races_of_idle hb a, fun s t held rest w _ h => ?_⟩
  · obtain ⟨b, bs, hm⟩ := storesBytes_step h hp
    rw [hm]
    exact isSome_readByte_writeBytes bs b hw
  · obtain ⟨rest, he⟩ := step_of_powersOn hp
    cases he.symm.trans h
    exact readByte_nil a
  · rw [step_regWrite s held rest w rfl (by decide)] at h
    cases h
    exact mem_writeCtrl w { s with inputs := rest }

/-! ## Races -/

section

variable {s : State} {a : Nat}

/-- A byte races when it lies in a range of the running command (R296). -/
theorem races_iff {i : Instr} (hb : s.status.busy = true) (hd : decodeWord s.latch.cmd = .ok i) :
    races s a = true ↔ ∃ r ∈ commandRanges i s.latch, r.1 ≤ a ∧ a < r.1 + r.2 := by
  simp [races, hb, hd]

/-- A host access to a byte that races faults, also where the byte is unwritten (R296, log entry 22). -/
theorem step_of_races (held : Bool) (rest : List Input) (b : Byte) (ha : a < s.params.memBytes)
    (hr : races s a = true) :
    step { s with inputs := hostInput held (.memRead a) :: rest } = .fault (.hostRace a) ∧
    step { s with inputs := hostInput held (.memWrite a b) :: rest } = .fault (.hostRace a) := by
  rw [step_hostInput, step_hostInput, hostStep, hostStep, if_pos ha, if_pos ha]
  exact ⟨if_pos hr, if_pos hr⟩

end

/-- Settles O23: the ranges are those of the command, and an access outside them is as that of an idle block. -/
theorem hostRaceFaults : Obligations.HostRaceFaults := by
  intro s held rest i a b hb hd ha l inside racing
  have hrace : races s a = true ↔ racing := by
    rw [races_iff hb hd]
    cases i <;> simp [commandRanges, racing, inside, l, ceilDiv_five, srcAddr, dstAddr, lengthArg, bitCount]
  refine ⟨fun h => step_of_races held rest b ha (hrace.2 h), fun h => ?_⟩
  have hr : races s a = false := Bool.eq_false_iff.2 fun hr => h (hrace.1 hr)
  refine ⟨writeByte s.mem a b, step_memWrite s held rest b ha hr, ?_, fun x hx => ?_,
    step_memRead_unwritten s held rest ha hr, fun v => step_memRead s held rest ha hr⟩
  · rw [readByte_writeByte, if_pos rfl]
  · rw [readByte_writeByte, if_neg hx]

end Sys2Proof.Proofs
